-- ==== Sys2Proof/Word.lean ====
section
/-! DEFINITION. The word types of the AESD core: a byte (8 bits), a port word (32 bits), a byte array of fixed
length and the 16-byte block (spec 00_scope.md R8, R10). Every quantity is unsigned (R8), so there is no sign
extension anywhere. -/

namespace Sys2Proof

/-- A byte: 8 bits, bit 0 the least significant (R8). -/
abbrev Byte := BitVec 8

/-- A word of the port: 32 bits (R8, R85). -/
abbrev Word := BitVec 32

/-- A byte array of `n` bytes, indexed from 0 (R8). -/
abbrev Bytes (n : Nat) := Vector Byte n

/-- A 16-byte block. Byte `r + 4 * c` is row `r`, column `c` of the 4 by 4 matrix (R10). -/
abbrev Block := Bytes 16

end Sys2Proof
end

