-- ==== Sys2Proof/Syntax.lean ====
section
/-! DEFINITION. The syntax of the machine: the fields of a command word (format `C`, 30_encoding.md R110), the six
commands of spec/opcode_table.json as the one inductive `Instr`, and the events of the host's port (R86, R260). -/

namespace Sys2Proof

/-- The fields of a command word, format `C` (R110): `op` is bits 7:0, `x` is bit 8, `rsv` is bits 31:9. -/
structure CmdFields where
  op  : BitVec 8
  x   : Bool
  rsv : BitVec 23
deriving DecidableEq, Repr

/-- The commands of the core, one constructor for each row of spec/opcode_table.json (R113). The only field beside the
opcode is the flag `X` of SBEGIN (R114): `sbegin true` is written SBEGIN.X. Every other operand is implicit (R117). -/
inductive Instr where
  /-- EXTRACT: recover a 16-byte RawKey from the carrier in `DBUF` (R138). -/
  | extract
  /-- EXPAND: expand `KEY` into the round-key schedule `RKS` (R155). -/
  | expand
  /-- DECBLK: decrypt the block in `DBUF[0..15]` (R170). -/
  | decblk
  /-- SBEGIN (`x = false`) and SBEGIN.X (`x = true`): begin a CipherStream (R190). -/
  | sbegin (x : Bool)
  /-- SNEXT: decrypt the next window of the active stream (R193). -/
  | snext
  /-- CLR: return to IDLE from any state (R214). -/
  | clr
deriving DecidableEq, Repr

/-- An event of the host's side of the core: an access of the port (R86) or the reset input (R260). An access names
its word by `addr[31:2]`, 30 bits, so the byte offset is `4 * addr` and a misaligned or narrow access cannot be
expressed (R84, R86, U15). -/
inductive Event where
  /-- `Read(offset)` with `offset = 4 * addr`. -/
  | read (addr : BitVec 30)
  /-- `Write(offset, value)` with `offset = 4 * addr`. -/
  | write (addr : BitVec 30) (value : Word)
  /-- The reset input is asserted (R260). -/
  | reset
deriving DecidableEq, Repr

/-- What a word offset of the port names (10_state.md R47). The number of an array's word is counted from the
array's base. -/
inductive Target where
  | cmd | status | dlen | slen | klen | olen | declen | remct | rempt | id | cap
  | key (k : Nat) | chain (k : Nat) | rks (k : Nat) | obuf (k : Nat) | dbuf (k : Nat)
  | unmapped
deriving DecidableEq, Repr

end Sys2Proof
end

