-- ==== Sys2Proof/WellFormed.lean ====
section
/-! DEFINITION. When the fields of a command word are legal (30_encoding.md R110, R113, R115), one check each, and
which fields each command has. A word is a command exactly when the three checks pass. -/

namespace Sys2Proof

/-- `op` is one of the six opcodes 0x01 to 0x06 (R113, R115). -/
def CmdFields.opLegal (f : CmdFields) : Bool := decide (1 ≤ f.op.toNat) && decide (f.op.toNat ≤ 6)

/-- `X` is 0 unless the opcode is SBEGIN's, 0x04 (R110, R115). -/
def CmdFields.xLegal (f : CmdFields) : Bool := !f.x || f.op == 0x04

/-- The reserved bits 31:9 are 0 (R110, R115). -/
def CmdFields.rsvLegal (f : CmdFields) : Bool := f.rsv == 0

/-- The fields are those of a legal command word (R115). -/
def CmdFields.wellFormed (f : CmdFields) : Bool := f.opLegal && f.xLegal && f.rsvLegal

/-- The fields of each command's word (R113). -/
def Instr.fields : Instr → CmdFields
  | .extract  => ⟨0x01, false, 0⟩
  | .expand   => ⟨0x02, false, 0⟩
  | .decblk   => ⟨0x03, false, 0⟩
  | .sbegin x => ⟨0x04, x, 0⟩
  | .snext    => ⟨0x05, false, 0⟩
  | .clr      => ⟨0x06, false, 0⟩

/-- A command is well-formed when its fields are legal. `Instr` holds no operand that could break a check, so this is
true of every command; the checks have their content on `CmdFields`. -/
def Instr.wellFormed (i : Instr) : Bool := i.fields.wellFormed

end Sys2Proof
end

