-- ==== Sys2Proof/Decode.lean ====
section
/-! DEFINITION. The decoder of command words, total on all `2^32` words and rejecting by name (30_encoding.md R113 to
R116), and after it the encoder, written from the same table. -/

namespace Sys2Proof

/-- Why a word is no command (R115). The core answers all three alike, with error 10. -/
inductive DecodeReject where
  /-- A bit of 31:9 is set. -/
  | reservedBits
  /-- `X = 1` with an opcode other than 0x04. -/
  | flagNotAllowed
  /-- `op` is 0x00 or in 0x07 to 0xff. -/
  | noSuchOpcode
deriving DecidableEq, Repr

/-- The fields of a command word (R110). -/
def fieldsOf (w : Word) : CmdFields :=
  { op := w.extractLsb' 0 8, x := w.getLsbD 8, rsv := w.extractLsb' 9 23 }

/-- The command an opcode selects, with the flag `X` where it has one (R113). -/
def instrOf (op : BitVec 8) (x : Bool) : Option Instr :=
  match op.toNat with
  | 1 => some .extract
  | 2 => some .expand
  | 3 => some .decblk
  | 4 => some (.sbegin x)
  | 5 => some .snext
  | 6 => some .clr
  | _ => none

/-- Decode a command word; decoding does not depend on the machine's state (R110, R115). -/
def decode (w : Word) : Except DecodeReject Instr :=
  let f := fieldsOf w
  if !f.rsvLegal then .error .reservedBits
  else if !f.xLegal then .error .flagNotAllowed
  else match instrOf f.op f.x with
    | some i => .ok i
    | none => .error .noSuchOpcode

/-- Lay the fields out in a word: `rsv` in bits 31:9, `X` in bit 8, `op` in bits 7:0 (R110). -/
def wordOf (f : CmdFields) : Word :=
  (f.op.setWidth 32) ||| ((BitVec.ofBool f.x).setWidth 32 <<< 8) ||| (f.rsv.setWidth 32 <<< 9)

/-- The command word of a command (R113). -/
def encode (i : Instr) : Word := wordOf i.fields

/-- The instruction the decoder reads from a table word of `nbits` bits, every bit above `nbits` being 0. Every command
is one 32-bit word (R116), so no word of more than 32 bits is a command. -/
def decodeTableWord (nbits w : Nat) : Option Instr :=
  if nbits ≤ 32 then
    match decode (BitVec.ofNat 32 (w % 2 ^ nbits)) with
    | .ok i => some i
    | .error _ => none
  else none

end Sys2Proof
end

