-- ==== Sys2Proof/Config.lean ====
section
/-! DEFINITION. What is fixed for one core but is not state: the parameter `DBUF_BYTES`, the constants of the
register map, and the free values of the model, which are opaque constants with no body. -/

namespace Sys2Proof.Config

/-- The size of the output buffer `OBUF` in bytes: one window (00_scope.md R7). -/
def obufBytes : Nat := 1024

/-- The largest window of SNEXT in bytes (R7, R194). -/
def window : Nat := 1024

/-- The length of a CipherStream's header: 16 bytes of IV and 4 of length (R6, R118). -/
def headerBytes : Nat := 20

/-- The number of tokens a carrier must hold (R6, R134). -/
def tokenCount : Nat := 128

/-- The constant register `ID`: "AES" in bits 31:8 and interface revision 1 in bits 7:0 (10_state.md R37). -/
def idValue : Word := 0x41455301

/-- Selects which of the legal values `DBUF_BYTES` has. Opaque: nothing can be proved about it, so a claim
holds for every legal size (log entry 1). -/
opaque dbufSize : Nat

/-- `DBUF_BYTES`, the size of the input buffer: a multiple of 4 from 1024 to `2^20` (R7). There are 261889 such
sizes and `dbufSize` selects any of them; the spec's default 4096 is one (log entry 1). -/
def dbufBytes : Nat := 4 * (dbufSize % 261889) + 1024

/-- What byte `i` of `DBUF` holds after reset number `draw` while nothing has written it (R46, R260, U1). A free
value: opaque, no body (log entry 2). -/
opaque dbufAtReset : Nat → Nat → Byte

/-- What byte `i` of `OBUF` holds after reset number `draw` while nothing has written it (R46, R260, U2). A free
value: opaque, no body (log entry 2). -/
opaque obufAtReset : Nat → Nat → Byte

end Sys2Proof.Config
end

