-- ==== Sys2Proof/Machine/State.lean ====
section
/-! DEFINITION. The state of one core: the seventeen components of 10_state.md R20, and the model's own three fields
(the draw of the free reset contents, the pending events of the host's side, the port's read data); the error codes;
the reasons a step can stop; the state after reset (R46). -/

namespace Sys2Proof.Machine

/-- The values of the field `STATE` (10_state.md R24, R25). The value 3 never occurs and has no constructor. -/
inductive Mode where
  /-- IDLE, code 0: no stream is active. -/
  | idle
  /-- STREAM, code 1: a stream is active. -/
  | stream
  /-- ERROR, code 2: a command has failed. -/
  | error
deriving DecidableEq, Repr

/-- The eleven error codes (60_exceptions.md R226). `ERRCODE = 0`, no error, is the absence of one. -/
inductive ErrCode where
  /-- 1: the number of tokens is not 128 (EXTRACT). -/
  | invalidKeyMaterial
  /-- 2: `KLEN` is not 16, 24 or 32 (EXPAND, SBEGIN.X). -/
  | invalidKeyLength
  /-- 3: the ciphertext is not block-aligned (SBEGIN). -/
  | invalidStreamLength
  /-- 4: the declared length exceeds the ciphertext (SBEGIN). -/
  | declaredLengthExceedsCiphertext
  /-- 5: `SLEN < 20` (SBEGIN). -/
  | streamTooShort
  /-- 6: the carrier is not well-formed base64 (EXTRACT). -/
  | carrierFormat
  /-- 7: a token's digit value is not below its length (EXTRACT). -/
  | tokenIndex
  /-- 8: the command is not accepted in the current `STATE` (dispatch). -/
  | sequence
  /-- 9: no expansion since reset (DECBLK, SBEGIN). -/
  | noSchedule
  /-- 10: the word is not a command (dispatch). -/
  | illegalCommand
  /-- 11: `DLEN > DBUF_BYTES` (EXTRACT). -/
  | length
deriving DecidableEq, Repr

/-- A buffer's contents: the bytes written since reset, as (index, byte) pairs with the indices strictly rising. An
index that is not listed has no value written; what it reads as is the free value of `Operands.lean` (log entry 2). -/
abbrev Memory := List Host.Cell

/-- Why a step would stop with a fault: never. Every port event and every command has a next state (R111, R275 and
93_implementation_defined.md part 1); the errors of the core are next states in ERROR (R231). So no reason exists. -/
inductive Fault where
deriving DecidableEq, Repr

/-- Why a step would refuse. -/
inductive Refusal where
  /-- Raised by an arm of `exec` whose command has no meaning yet; no arm does (safe). -/
  | notModelled (mnemonic : String)
deriving DecidableEq, Repr

/-- The state of one core (10_state.md R20). -/
structure State where
  /-- `STATE`, bits 1:0 of STATUS (R25). -/
  mode    : Mode
  /-- `SV`, schedule valid (R26). -/
  sv      : Bool
  /-- `LAST`: the most recent command ended a stream (R27). -/
  last    : Bool
  /-- `ERRCODE`; `none` is the code 0 (R28). -/
  errcode : Option ErrCode
  /-- `NR`, the round count of the schedule, 0 while `SV = 0` (R29). -/
  nr      : BitVec 4
  /-- `DLEN`, the carrier's length (R30). -/
  dlen    : Word
  /-- `SLEN`, the stream's length (R31). -/
  slen    : Word
  /-- `KLEN`, the key's length (R32). -/
  klen    : Word
  /-- `OLEN`, the number of output bytes (R33). -/
  olen    : Word
  /-- `DECLEN`, the declared length (R34). -/
  declen  : Word
  /-- `REMCT`, ciphertext bytes to come (R35). -/
  remct   : Word
  /-- `REMPT`, plaintext bytes to deliver (R36). -/
  rempt   : Word
  /-- `KEY` (R39). -/
  key     : Bytes 32
  /-- `CHAIN`, the ChainValue (R40). -/
  chain   : Block
  /-- `RKS`, the round-key schedule (R41). -/
  rks     : Bytes 240
  /-- `OBUF`, the output window (R42). -/
  obuf    : Memory
  /-- `DBUF`, the input buffer (R43). -/
  dbuf    : Memory
  /-- The model's own: which draw of the free reset contents is in force (R260, log entry 2). -/
  draw    : Nat
  /-- The model's own: the events the host's side has still to present, first one first (R86, log entry 3). -/
  port    : List Event
  /-- The port's `rdata` when the last event was a read, else `none` (R86, log entry 4). -/
  rdata   : Option Word
deriving DecidableEq, Repr

/-- What a meaning answers. -/
abbrev Result := Host.Outcome State Fault Refusal

/-- The state after reset (R46): every register, flag, `KEY`, `CHAIN` and `RKS` zero, `STATE` IDLE, and neither buffer
written, so that each of their bytes reads as a free value. No event is pending. -/
def State.reset : State :=
  { mode := .idle, sv := false, last := false, errcode := none, nr := 0
    dlen := 0, slen := 0, klen := 0, olen := 0, declen := 0, remct := 0, rempt := 0
    key := Vector.replicate 32 0, chain := Vector.replicate 16 0, rks := Vector.replicate 240 0
    obuf := [], dbuf := [], draw := 0, port := [], rdata := none }

end Sys2Proof.Machine
end

