-- ==== Sys2Proof/Machine/Ops.lean ====
section
/-! DEFINITION. The named operations over byte arrays, buffers and words (00_scope.md R8, R9, R12; 20_memory.md R81),
and the operations of error handling that every command shares: error entry (60_exceptions.md R231), the return from
it (R236, 44_control.md R214), the acceptance check (30_encoding.md R111). -/

namespace Sys2Proof.Machine

/-! ### Byte arrays -/

/-- Byte `i` of an array, 0 past its end (no rule reads there: 20_memory.md R96). -/
def byteAt {n : Nat} (v : Bytes n) (i : Nat) : Byte := v.toList.getD i 0

/-- The array of `n` bytes whose byte `i` is `f i`. -/
def bytesOf (n : Nat) (f : Nat → Byte) : Bytes n := ⟨((List.range n).map f).toArray, by simp⟩

/-- The bytes of a sequence as an array of `n` bytes, zeros above the sequence's end. -/
def padTo (n : Nat) (s : List Byte) : Bytes n := bytesOf n fun i => s.getD i 0

/-- Byte-wise XOR of two blocks (R8). -/
def xorBlock (a b : Block) : Block := bytesOf 16 fun i => byteAt a i ^^^ byteAt b i

/-- The bytes `s[off..off+15]` of a sequence as a block. -/
def blockAt (s : List Byte) (off : Nat) : Block := bytesOf 16 fun i => s.getD (off + i) 0

/-- Split a sequence into its consecutive 16-byte blocks; a last piece shorter than 16 bytes is left out. `n` is how
many blocks are taken. -/
def blocksOf (s : List Byte) (n : Nat) : List Block := (List.range n).map fun i => blockAt s (16 * i)

/-! ### Words and byte lanes -/

/-- `LE32(b0, b1, b2, b3)`: four bytes in stream order as a little-endian word (R9). -/
def le32 (b0 b1 b2 b3 : Byte) : Word := (b3 ++ b2 ++ b1 ++ b0 : BitVec 32)

/-- Byte lane `j` of a word: bits `8j+7 : 8j` (R81). -/
def lane (v : Word) (j : Nat) : Byte := v.extractLsb' (8 * j) 8

/-- Word `k` of the byte array that `f` reads (R81). -/
def wordAt (f : Nat → Byte) (k : Nat) : Word := le32 (f (4 * k)) (f (4 * k + 1)) (f (4 * k + 2)) (f (4 * k + 3))

/-- The array `v` with word `k` replaced by the lanes of `w` (R81, R88). -/
def setWord {n : Nat} (v : Bytes n) (k : Nat) (w : Word) : Bytes n :=
  bytesOf n fun i => if i / 4 = k then lane w (i % 4) else byteAt v i

/-! ### Buffers -/

/-- The byte written at index `a`, none where nothing has been written since reset. -/
def Memory.get (m : Memory) (a : Nat) : Option Byte :=
  match m with
  | [] => none
  | c :: rest => if c.1 = a then some c.2 else Memory.get rest a

/-- Write byte `v` at index `a`, keeping the indices strictly rising (R12 `BUF[i] <- v`). -/
def Memory.set (m : Memory) (a : Nat) (v : Byte) : Memory :=
  match m with
  | [] => [(a, v)]
  | c :: rest =>
    if a < c.1 then (a, v) :: c :: rest
    else if a = c.1 then (a, v) :: rest
    else c :: Memory.set rest a v

/-- Write the bytes of a sequence at indices `a`, `a + 1`, … (R12 `BUF[i..j] <- s`). -/
def Memory.setBytes (m : Memory) (a : Nat) (s : List Byte) : Memory :=
  match s with
  | [] => m
  | b :: rest => Memory.setBytes (Memory.set m a b) (a + 1) rest

/-- The canonical form: the indices strictly rise. An unlisted index has no value, so no entry can equal what an unlisted
index reads as, and equal contents are equal lists. -/
def Memory.wf (m : Memory) : Bool :=
  match m with
  | [] => true
  | [_] => true
  | c :: d :: rest => decide (c.1 < d.1) && Memory.wf (d :: rest)

/-- Every listed index is below `n`, the buffer's size (R96). -/
def Memory.within (m : Memory) (n : Nat) : Bool := m.all fun c => decide (c.1 < n)

/-! ### Errors -/

/-- Error entry, `raise Err(code)` (R231): four writes and nothing else. -/
def raise (e : ErrCode) (s : State) : State :=
  { s with mode := .error, errcode := some e, olen := 0, last := false }

/-- The return to IDLE, the effect of CLR (R214, R236): the position of the call is cleared and nothing is restored,
because error entry saved nothing. -/
def clearCall (s : State) : State :=
  { s with
    mode := .idle, errcode := none, olen := 0, last := false
    declen := 0, remct := 0, rempt := 0, chain := Vector.replicate 16 0 }

/-- The dispatch of a legal command that is accepted in state `m` only (R111 cases 2, 4 and 5): ignored in ERROR,
error 8 where it is not accepted, else its own rule. -/
def accepted (m : Mode) (rule : State → State) (s : State) : Result :=
  if s.mode = .error then .next s
  else if s.mode = m then .next (rule s)
  else .next (raise .sequence s)

/-- What a word that is no command does (R111 cases 2 and 3, R115, R216): error 10, ignored in ERROR. -/
def illegalCommand (s : State) : Result :=
  if s.mode = .error then .next s else .next (raise .illegalCommand s)

end Sys2Proof.Machine
end

