-- ==== Sys2Proof/Machine/Control.lean ====
section
/-! DEFINITION. The control family: the command CLR (44_control.md R214). -/

namespace Sys2Proof.Machine

/-- CLR, accepted in every state (R111, R214). -/
def execClr (s : State) : Result := .next (clearCall s)

end Sys2Proof.Machine
end

