-- ==== Sys2Proof/Machine/Operands.lean ====
section
/-! DEFINITION. Where operands come from: the bytes of the two buffers with their free contents after reset (10_state.md
R46), the byte ranges the commands read (20_memory.md R96), and the register map of the port (10_state.md R47). -/

namespace Sys2Proof.Machine

/-- `DBUF[i]`: the byte written there, or the free value of the reset in force (R46, R265). -/
def State.dbufByte (s : State) (i : Nat) : Byte := (s.dbuf.get i).getD (Config.dbufAtReset s.draw i)

/-- `OBUF[i]`: the byte written there, or the free value of the reset in force (R46). -/
def State.obufByte (s : State) (i : Nat) : Byte := (s.obuf.get i).getD (Config.obufAtReset s.draw i)

/-- `DBUF[0..n-1]`. -/
def State.dbufBytes (s : State) (n : Nat) : List Byte := (List.range n).map s.dbufByte

/-- `OBUF[0..n-1]`. -/
def State.obufBytes (s : State) (n : Nat) : List Byte := (List.range n).map s.obufByte

/-- `DBUF[16j..16j+15]`, block `j` of the input window. -/
def State.dbufBlock (s : State) (j : Nat) : Block := bytesOf 16 fun i => s.dbufByte (16 * j + i)

/-- The carrier, `DBUF[0..DLEN-1]` (R30, R138). -/
def State.carrier (s : State) : List Byte := s.dbufBytes s.dlen.toNat

/-- The RawKey, `KEY[0..KLEN-1]` (R39). -/
def State.rawKey (s : State) : List Byte := (List.range s.klen.toNat).map (byteAt s.key)

/-- The schedule, `RKS[0..16*NR+15]` (R41, R96). -/
def State.schedule (s : State) : List Byte := (List.range (16 * s.nr.toNat + 16)).map (byteAt s.rks)

/-- The declared length of the header in `DBUF[16..19]` (R82, R188). -/
def State.declaredLength (s : State) : Word :=
  le32 (s.dbufByte 16) (s.dbufByte 17) (s.dbufByte 18) (s.dbufByte 19)

/-- `KLEN` is the length of a RawKey: 16, 24 or 32 (R6, R155). -/
def keyLengthOk (n : Nat) : Bool := n == 16 || n == 24 || n == 32

/-- What the word at byte offset `off`, a multiple of 4, names (R47). -/
def targetOf (off : Nat) : Target :=
  if off = 0x000 then .cmd
  else if off = 0x004 then .status
  else if off = 0x008 then .dlen
  else if off = 0x00c then .slen
  else if off = 0x010 then .klen
  else if off = 0x014 then .olen
  else if off = 0x018 then .declen
  else if off = 0x01c then .remct
  else if off = 0x020 then .rempt
  else if off = 0x024 then .id
  else if off = 0x028 then .cap
  else if 0x040 ≤ off ∧ off < 0x060 then .key ((off - 0x040) / 4)
  else if 0x060 ≤ off ∧ off < 0x070 then .chain ((off - 0x060) / 4)
  else if 0x100 ≤ off ∧ off < 0x1f0 then .rks ((off - 0x100) / 4)
  else if 0x400 ≤ off ∧ off < 0x800 then .obuf ((off - 0x400) / 4)
  else if 0x1000 ≤ off ∧ off - 0x1000 < Config.dbufBytes then .dbuf ((off - 0x1000) / 4)
  else .unmapped

/-- The byte offset of a port address (R86). -/
def offsetOf (addr : BitVec 30) : Nat := 4 * addr.toNat

/-- The port address of a byte offset; its two low bits are not carried (R84, R86). -/
def addrOf (off : Nat) : BitVec 30 := BitVec.ofNat 30 (off / 4)

end Sys2Proof.Machine
end

