-- ==== Sys2Proof/Machine/Extract.lean ====
section
/-! DEFINITION. Key-material extraction: the function `Extract` and the command EXTRACT (40_extract.md R130 to R138). -/

namespace Sys2Proof.Machine

/-- Step 1a: append `=` up to a multiple of 4 characters (R131). -/
def padCarrier (c : List Byte) : List Byte := c ++ List.replicate ((4 - c.length % 4) % 4) padChar

/-- The 24-bit value of a group of four 6-bit values (R132). -/
def groupValue (v0 v1 v2 v3 : BitVec 6) : BitVec 24 :=
  (v0.setWidth 24 <<< 18) ||| (v1.setWidth 24 <<< 12) ||| (v2.setWidth 24 <<< 6) ||| v3.setWidth 24

/-- Step 1b for one group of four characters; `isLast` says that no group follows. The three legal shapes are a full
group, one pad, two pads; anything else is none (R132). -/
def decodeGroup (isLast : Bool) (q0 q1 q2 q3 : Byte) : Option (List Byte) :=
  match base64Value q0, base64Value q1, base64Value q2, base64Value q3 with
  | some v0, some v1, some v2, some v3 =>
    let v := groupValue v0 v1 v2 v3
    some [v.extractLsb' 16 8, v.extractLsb' 8 8, v.extractLsb' 0 8]
  | some v0, some v1, some v2, none =>
    let v := groupValue v0 v1 v2 0
    if isLast && q3 == padChar then some [v.extractLsb' 16 8, v.extractLsb' 8 8] else none
  | some v0, some v1, none, none =>
    let v := groupValue v0 v1 0 0
    if isLast && q2 == padChar && q3 == padChar then some [v.extractLsb' 16 8] else none
  | _, _, _, _ => none

/-- Step 1b: the bytes of a sequence of groups, none if a group has no legal shape (R132). The length is a multiple of 4
(R131); any other is none. -/
def decodeGroups : List Byte → Option (List Byte)
  | [] => some []
  | q0 :: q1 :: q2 :: q3 :: rest =>
    match decodeGroup rest.isEmpty q0 q1 q2 q3, decodeGroups rest with
    | some d, some ds => some (d ++ ds)
    | _, _ => none
  | _ => none

/-- Step 1: base64 decoding of a carrier, none where it is malformed (R131, R132). -/
def base64Decode (c : List Byte) : Option (List Byte) := decodeGroups (padCarrier c)

/-- Step 2: the tokens of the bytes that are still to be scanned, `run` being the non-digit bytes read since the last
digit: a digit closes a non-empty run into a token and is skipped after an empty one; a trailing run is no token
(R133). -/
def tokensFrom (run : List Byte) : List Byte → List (List Byte)
  | [] => []
  | b :: rest =>
    if isDigit b then
      if run.isEmpty then tokensFrom [] rest else (run ++ [b]) :: tokensFrom [] rest
    else tokensFrom (run ++ [b]) rest

/-- Step 2: the tokens of the decoded bytes (R133). -/
def tokens (d : List Byte) : List (List Byte) := tokensFrom [] d

/-- Step 4: the bit of a token: whether `t[d]` equals `t[n-2]`, `d` being the value of its last byte; none where `d` is
not below the token's length (R135). -/
def tokenBit (t : List Byte) : Option Bool :=
  let d := digitValue (t.getD (t.length - 1) 0)
  if d < t.length then some (t.getD d 0 == t.getD (t.length - 2) 0) else none

/-- Step 4: the bits of all tokens in order, none at the first token whose index is out of range (R135). -/
def tokenBits : List (List Byte) → Option (List Bool)
  | [] => some []
  | t :: rest =>
    match tokenBit t with
    | none => none
    | some b => (tokenBits rest).map (b :: ·)

/-- Step 5: rotate left by 64, the first 64 to the end (R136). -/
def rotate64 (b : List Bool) : List Bool := b.drop 64 ++ b.take 64

/-- Step 7: the value of a bit string whose first character is the most significant (R136). -/
def bitsValue (b : List Bool) : Nat := b.foldl (fun v x => 2 * v + x.toNat) 0

/-- Steps 5 to 7: rotate, reverse, read as a base-2 integer, serialize least significant byte first (R136). -/
def assembleKey (b : List Bool) : Block :=
  let v := bitsValue (rotate64 b).reverse
  bytesOf 16 fun k => BitVec.ofNat 8 (v >>> (8 * k))

/-- The function `Extract` (R130): padding, decoding, tokens, count, bits, assembly, in that order. -/
def extractKey (c : List Byte) : Except ErrCode Block :=
  match base64Decode c with
  | none => .error .carrierFormat
  | some d =>
    if (tokens d).length ≠ Config.tokenCount then .error .invalidKeyMaterial
    else match tokenBits (tokens d) with
      | none => .error .tokenIndex
      | some b => .ok (assembleKey b)

/-- The writes of a completed EXTRACT with key `r`: `KEY[0..15]`, `KLEN`, `OLEN`, `LAST` (R138). -/
def storeKey (r : Block) (s : State) : State :=
  { s with
    key := bytesOf 32 fun i => if i < 16 then byteAt r i else byteAt s.key i
    klen := 16, olen := 0, last := false }

/-- The rule of EXTRACT after dispatch (R138). -/
def extractRule (s : State) : State :=
  if Config.dbufBytes < s.dlen.toNat then raise .length s
  else match extractKey s.carrier with
    | .error e => raise e s
    | .ok r => storeKey r s

/-- EXTRACT, accepted in IDLE only (R111, R138). -/
def execExtract (s : State) : Result := accepted .idle extractRule s

end Sys2Proof.Machine
end

