-- ==== Sys2Proof/Machine/Decblk.lean ====
section
/-! DEFINITION. The block engine: the four transforms on the 16-byte serialised form, the function `DecBlock` and the
command DECBLK (42_decblk.md R165 to R176). A block is held serialised throughout, so load and serialize (R166, R176)
are the identity. -/

namespace Sys2Proof.Machine

/-- Round-key block `r` of a schedule (R120, R171). -/
def roundKey (rk : List Byte) (r : Nat) : Block := blockAt rk (16 * r)

/-- AddRoundKey with block `r` (R171). -/
def addRoundKey (rk : List Byte) (r : Nat) (b : Block) : Block := xorBlock b (roundKey rk r)

/-- InvShiftRows: byte `r + 4c` comes from column `(c - r) mod 4` of the same row (R172). -/
def invShiftRows (b : Block) : Block :=
  bytesOf 16 fun i => byteAt b (i % 4 + 4 * ((i / 4 + 4 - i % 4) % 4))

/-- InvSubBytes (R173). -/
def invSubBytes (b : Block) : Block := bytesOf 16 fun i => invSbox (byteAt b i)

/-- Byte of row `r` of a column after the inverse column-mix (R175). -/
def invMixByte (r : Nat) (a0 a1 a2 a3 : Byte) : Byte :=
  match r with
  | 0 => mul14 a0 ^^^ mul11 a1 ^^^ mul13 a2 ^^^ mul9 a3
  | 1 => mul9 a0 ^^^ mul14 a1 ^^^ mul11 a2 ^^^ mul13 a3
  | 2 => mul13 a0 ^^^ mul9 a1 ^^^ mul14 a2 ^^^ mul11 a3
  | _ => mul11 a0 ^^^ mul13 a1 ^^^ mul9 a2 ^^^ mul14 a3

/-- InvMixColumns, each column by itself (R175). -/
def invMixColumns (b : Block) : Block :=
  bytesOf 16 fun i =>
    invMixByte (i % 4) (byteAt b (4 * (i / 4))) (byteAt b (4 * (i / 4) + 1))
      (byteAt b (4 * (i / 4) + 2)) (byteAt b (4 * (i / 4) + 3))

/-- Round `r`: inverse row-shift, inverse substitution, round key, inverse column-mix (R167 steps 4 to 7). -/
def invRound (rk : List Byte) (r : Nat) (b : Block) : Block :=
  invMixColumns (addRoundKey rk r (invSubBytes (invShiftRows b)))

/-- Rounds `r`, `r-1`, …, 1 (R167 step 3). -/
def invRounds (rk : List Byte) : Nat → Block → Block
  | 0, b => b
  | r + 1, b => invRounds rk r (invRound rk (r + 1) b)

/-- The final round: no column-mix (R167 steps 8 to 10). -/
def finalRound (rk : List Byte) (b : Block) : Block := addRoundKey rk 0 (invSubBytes (invShiftRows b))

/-- The function `DecBlock` (R165, R167): whitening with block `nr`, rounds `nr-1` down to 1, the final round. -/
def decBlock (c : Block) (nr : Nat) (rk : List Byte) : Block :=
  finalRound rk (invRounds rk (nr - 1) (addRoundKey rk nr c))

/-- `DecBlock` with the core's own schedule (R170, R192). -/
def State.decBlock (s : State) (c : Block) : Block := Sys2Proof.Machine.decBlock c s.nr.toNat s.schedule

/-- The rule of DECBLK after dispatch (R170). -/
def decblkRule (s : State) : State :=
  if s.sv then
    { s with obuf := s.obuf.setBytes 0 (s.decBlock (s.dbufBlock 0)).toList, olen := 16, last := false }
  else raise .noSchedule s

/-- DECBLK, accepted in IDLE only (R111, R170). -/
def execDecblk (s : State) : Result := accepted .idle decblkRule s

end Sys2Proof.Machine
end

