-- ==== Sys2Proof/Machine/Expand.lean ====
section
/-! DEFINITION. Key-schedule expansion: the function `Expand`, the expansion that EXPAND and SBEGIN.X perform, and the
command EXPAND (41_expand.md R150 to R155). -/

namespace Sys2Proof.Machine

/-- A schedule word: four bytes, `b0` the one the spec calls the first. It is never treated as an integer (R152). -/
structure KWord where
  b0 : Byte
  b1 : Byte
  b2 : Byte
  b3 : Byte
deriving DecidableEq, Repr

/-- The zero word. -/
def kwordZero : KWord := ⟨0, 0, 0, 0⟩

/-- The word's bytes in order. -/
def kwordBytes (w : KWord) : List Byte := [w.b0, w.b1, w.b2, w.b3]

/-- Byte-wise XOR of two words (R152). -/
def kwordXor (a b : KWord) : KWord := ⟨a.b0 ^^^ b.b0, a.b1 ^^^ b.b1, a.b2 ^^^ b.b2, a.b3 ^^^ b.b3⟩

/-- Rotate left by one byte (R152). -/
def rotWord (w : KWord) : KWord := ⟨w.b1, w.b2, w.b3, w.b0⟩

/-- The forward substitution box on every byte (R152). -/
def subWord (w : KWord) : KWord := ⟨sbox w.b0, sbox w.b1, sbox w.b2, sbox w.b3⟩

/-- XOR the round constant `Rcon(t)` into the first byte (R153). -/
def xorRcon (t : Nat) (w : KWord) : KWord := { w with b0 := w.b0 ^^^ BitVec.ofNat 8 (rcon t) }

/-- `temp` for word index `i`, from the previous word (R153): rotate, substitute and add the constant where `i` is a
multiple of `nk`; only substitute for `nk > 6` and `i mod nk = 4`; else the word as it is. -/
def expandTemp (nk i : Nat) (prev : KWord) : KWord :=
  if i % nk = 0 then xorRcon (i / nk) (subWord (rotWord prev))
  else if 6 < nk ∧ i % nk = 4 then subWord prev
  else prev

/-- The next word of an array of words: `w[i] = w[i-nk] ^ temp`, `i` being the array's length (R153). -/
def nextWord (nk : Nat) (w : List KWord) : KWord :=
  kwordXor (w.getD (w.length - nk) kwordZero) (expandTemp nk w.length (w.getD (w.length - 1) kwordZero))

/-- Append `n` words to the expanding array, one after the other (R153). -/
def expandWords (nk : Nat) : Nat → List KWord → List KWord
  | 0, w => w
  | n + 1, w => expandWords nk n (w ++ [nextWord nk w])

/-- Word `j` of the key (R120, R153). -/
def keyWord (key : List Byte) (j : Nat) : KWord :=
  ⟨key.getD (4 * j) 0, key.getD (4 * j + 1) 0, key.getD (4 * j + 2) 0, key.getD (4 * j + 3) 0⟩

/-- The words of the schedule of a key of `4 * nk` bytes: the `nk` words of the key, then the others up to
`4 * (nk + 7)` words (R151, R153). -/
def scheduleWords (nk : Nat) (key : List Byte) : List KWord :=
  expandWords nk (4 * (nk + 7) - nk) ((List.range nk).map (keyWord key))

/-- The function `Expand`: the round count and the schedule, none for a key whose length is not 16, 24 or 32 (R150, R151,
R154). -/
def expandKey (key : List Byte) : Option (Nat × List Byte) :=
  if keyLengthOk key.length then
    some (key.length / 4 + 6, (scheduleWords (key.length / 4) key).flatMap kwordBytes)
  else none

/-- An expansion, the writes to `RKS`, `NR` and `SV` (R155): the schedule and zeros above it. It is performed after `KLEN`
has been checked; for any other `KLEN` it writes nothing. -/
def expansion (s : State) : State :=
  match expandKey s.rawKey with
  | none => s
  | some (nr, sched) => { s with rks := padTo 240 sched, nr := BitVec.ofNat 4 nr, sv := true }

/-- The rule of EXPAND after dispatch (R155). -/
def expandRule (s : State) : State :=
  if keyLengthOk s.klen.toNat then { expansion s with olen := 0, last := false }
  else raise .invalidKeyLength s

/-- EXPAND, accepted in IDLE only (R111, R155). -/
def execExpand (s : State) : Result := accepted .idle expandRule s

end Sys2Proof.Machine
end

