-- ==== Sys2Proof/Machine/Flags.lean ====
section
/-! DEFINITION. The fields of STATUS (10_state.md R24 to R29) and how the stream commands compute `STATE` and `LAST`
(43_stream.md R190, R193). -/

namespace Sys2Proof.Machine

/-- The 2-bit value of `STATE` (R24, R25). -/
def Mode.code : Mode → BitVec 2
  | .idle => 0
  | .stream => 1
  | .error => 2

/-- The 4-bit error code (R226). -/
def ErrCode.code : ErrCode → BitVec 4
  | .invalidKeyMaterial => 1
  | .invalidKeyLength => 2
  | .invalidStreamLength => 3
  | .declaredLengthExceedsCiphertext => 4
  | .streamTooShort => 5
  | .carrierFormat => 6
  | .tokenIndex => 7
  | .sequence => 8
  | .noSchedule => 9
  | .illegalCommand => 10
  | .length => 11

/-- The value of the field `ERRCODE`: 0 where there is no error (R28). -/
def errField : Option ErrCode → BitVec 4
  | none => 0
  | some e => e.code

/-- The word STATUS: `STATE | SV << 2 | LAST << 3 | ERRCODE << 4 | NR << 8` (R24). -/
def State.status (s : State) : Word :=
  s.mode.code.setWidth 32
    ||| ((BitVec.ofBool s.sv).setWidth 32 <<< 2)
    ||| ((BitVec.ofBool s.last).setWidth 32 <<< 3)
    ||| ((errField s.errcode).setWidth 32 <<< 4)
    ||| (s.nr.setWidth 32 <<< 8)

/-- `STATE` and `LAST` after a stream command that leaves `remct` ciphertext bytes to come: the stream is complete when
none are (R27, R190, R193). -/
def streamFlags (remct : Word) (s : State) : State :=
  if remct = 0 then { s with mode := .idle, last := true } else { s with mode := .stream, last := false }

end Sys2Proof.Machine
end

