-- ==== Sys2Proof/Machine/Stream.lean ====
section
/-! DEFINITION. CBC stream decryption: the function `DecryptStream` of the source (43_stream.md R185) and the commands
SBEGIN, SBEGIN.X and SNEXT that compute it window by window (R186 to R193). -/

namespace Sys2Proof.Machine

/-! ### The function of the source -/

/-- The plaintext blocks of a list of ciphertext blocks, `prev` being the chain value before the first (R185). -/
def cbcBlocks (nr : Nat) (rk : List Byte) (prev : Block) : List Block → List Block
  | [] => []
  | c :: rest => xorBlock (decBlock c nr rk) prev :: cbcBlocks nr rk c rest

/-- `DecryptStream(s, Nr, rk)` for a stream of at least 20 bytes (R185). -/
def decryptStream (s : List Byte) (nr : Nat) (rk : List Byte) : Except ErrCode (List Byte) :=
  let n := s.length - Config.headerBytes
  let declared := (le32 (s.getD 16 0) (s.getD 17 0) (s.getD 18 0) (s.getD 19 0)).toNat
  if n % 16 ≠ 0 then .error .invalidStreamLength
  else if n < declared then .error .declaredLengthExceedsCiphertext
  else
    let ps := cbcBlocks nr rk (blockAt s 0) (blocksOf (s.drop Config.headerBytes) (n / 16))
    .ok ((ps.flatMap fun p => p.toList).take declared)

/-! ### SBEGIN -/

/-- The ciphertext length that `SLEN` states, `SLEN - 20` (R189). -/
def State.ciphertextLength (s : State) : Nat := s.slen.toNat - Config.headerBytes

/-- The checks of SBEGIN in their order; the first that fails (R190, R233). -/
def sbeginCheck (x : Bool) (s : State) : Option ErrCode :=
  if x && !keyLengthOk s.klen.toNat then some .invalidKeyLength
  else if !x && !s.sv then some .noSchedule
  else if s.slen.toNat < Config.headerBytes then some .streamTooShort
  else if s.ciphertextLength % 16 ≠ 0 then some .invalidStreamLength
  else if s.ciphertextLength < s.declaredLength.toNat then some .declaredLengthExceedsCiphertext
  else none

/-- The writes of SBEGIN to the stream position and flags, `n` being the ciphertext length (R190). -/
def beginStream (n : Word) (s : State) : State :=
  streamFlags n
    { s with
      chain := s.dbufBlock 0, declen := s.declaredLength, remct := n, rempt := s.declaredLength, olen := 0 }

/-- The rule of SBEGIN (`x = false`) and SBEGIN.X (`x = true`) after dispatch (R190). -/
def sbeginRule (x : Bool) (s : State) : State :=
  match sbeginCheck x s with
  | some e => raise e s
  | none => beginStream (s.slen - 20) (if x then expansion s else s)

/-- SBEGIN and SBEGIN.X, accepted in IDLE only (R111, R190). -/
def execSbegin (x : Bool) (s : State) : Result := accepted .idle (sbeginRule x) s

/-! ### SNEXT -/

/-- The window of the next SNEXT: `min(1024, REMCT)` (R193). -/
def State.windowBytes (s : State) : Nat := min Config.window s.remct.toNat

/-- One chained block: what block `c` decrypts to with chain value `chain` (R192). -/
def State.chainedBlock (s : State) (c chain : Block) : Block := xorBlock (s.decBlock c) chain

/-- The output buffer and the chain value after the first `n` blocks of the window in `DBUF`, in order (R192, R193). -/
def State.windowBlocks (s : State) : Nat → Memory × Block
  | 0 => (s.obuf, s.chain)
  | j + 1 =>
    let before := State.windowBlocks s j
    (before.1.setBytes (16 * j) (s.chainedBlock (s.dbufBlock j) before.2).toList, s.dbufBlock j)

/-- The rule of SNEXT after dispatch (R193). -/
def snextRule (s : State) : State :=
  let w := s.windowBytes
  let out := s.windowBlocks (w / 16)
  let delivered := min s.rempt.toNat w
  let remct := s.remct - BitVec.ofNat 32 w
  streamFlags remct
    { s with
      obuf := out.1, chain := out.2
      olen := BitVec.ofNat 32 delivered, rempt := s.rempt - BitVec.ofNat 32 delivered, remct := remct }

/-- SNEXT, accepted in STREAM only (R111, R193). -/
def execSnext (s : State) : Result := accepted .stream snextRule s

end Sys2Proof.Machine
end

