-- ==== Sys2Proof/Machine/Dispatch.lean ====
section
/-! DEFINITION. Which meaning each command has: one arm per constructor of `Instr`. -/

namespace Sys2Proof.Machine

/-- The effect of a legal command word (30_encoding.md R111), in whatever state the core is. -/
def exec (i : Instr) (s : State) : Host.Outcome State Fault Refusal :=
  match i with
  | .extract => Sys2Proof.Machine.execExtract s
  | .expand => Sys2Proof.Machine.execExpand s
  | .decblk => Sys2Proof.Machine.execDecblk s
  | .sbegin x => Sys2Proof.Machine.execSbegin x s
  | .snext => Sys2Proof.Machine.execSnext s
  | .clr => Sys2Proof.Machine.execClr s

end Sys2Proof.Machine
end

