-- ==== Sys2Proof/Machine/Port.lean ====
section
/-! DEFINITION. The host's side of the core: port reads (20_memory.md R87), port writes (R88), the dispatch of a command
word (30_encoding.md R111), the reset event (70_reset_and_hazards.md R260), and the one operation that gives an event its
effect. -/

namespace Sys2Proof.Machine

/-- The word a port read of a target answers (R87); unmapped offsets and CMD read as 0. -/
def readTarget (t : Target) (s : State) : Word :=
  match t with
  | .cmd => 0
  | .status => s.status
  | .dlen => s.dlen
  | .slen => s.slen
  | .klen => s.klen
  | .olen => s.olen
  | .declen => s.declen
  | .remct => s.remct
  | .rempt => s.rempt
  | .id => Config.idValue
  | .cap => BitVec.ofNat 32 Config.dbufBytes
  | .key k => wordAt (byteAt s.key) k
  | .chain k => wordAt (byteAt s.chain) k
  | .rks k => wordAt (byteAt s.rks) k
  | .obuf k => wordAt s.obufByte k
  | .dbuf k => wordAt s.dbufByte k
  | .unmapped => 0

/-- The word a port read answers (R87). -/
def portRead (addr : BitVec 30) (s : State) : Word := readTarget (targetOf (offsetOf addr)) s

/-- A write of word `w` to CMD (R111): the command it encodes, or what an illegal word does. -/
def writeCmd (w : Word) (s : State) : Result :=
  match decode w with
  | .ok i => exec i s
  | .error _ => illegalCommand s

/-- The bytes of a word in the order they take in a byte array (R81, R88). -/
def lanes (v : Word) : List Byte := [lane v 0, lane v 1, lane v 2, lane v 3]

/-- A port write of word `v` to a target other than CMD (R88); writes to read-only and unmapped targets are ignored. -/
def writeTarget (t : Target) (v : Word) (s : State) : State :=
  match t with
  | .dlen => { s with dlen := v }
  | .slen => { s with slen := v }
  | .klen => { s with klen := v }
  | .key k => { s with key := setWord s.key k v }
  | .dbuf k => { s with dbuf := s.dbuf.setBytes (4 * k) (lanes v) }
  | .cmd | .status | .olen | .declen | .remct | .rempt | .id | .cap | .chain _ | .rks _ | .obuf _ | .unmapped => s

/-- A port write (R88): a command where the offset is CMD's, else a write of the register or bytes it names. -/
def portWrite (addr : BitVec 30) (v : Word) (s : State) : Result :=
  match targetOf (offsetOf addr) with
  | .cmd => writeCmd v s
  | t => .next (writeTarget t v s)

/-- The reset event (R260): the reset state, with a fresh draw of the free contents of the two buffers; the events the
host's side has still to present are not part of the core and stay. -/
def resetEvent (s : State) : State := { State.reset with draw := s.draw + 1, port := s.port }

/-- The effect of one event on the core (R91): a read answers on `rdata` and changes nothing else (R85). -/
def applyEvent (e : Event) (s : State) : Result :=
  match e with
  | .read addr => .next { s with rdata := some (portRead addr s) }
  | .write addr v => portWrite addr v s
  | .reset => .next (resetEvent s)

/-- The port address of CMD (R23). -/
def cmdAddr : BitVec 30 := addrOf 0x000

end Sys2Proof.Machine
end

