-- ==== Sys2Proof/Machine/Step.lean ====
section
/-! DEFINITION. One step of the machine: the next event of the host's side takes its full effect (20_memory.md R91,
30_encoding.md R112). A command is the data of a write to CMD, so an instruction is fetched from the pending events and
from nowhere else (R22, R94). -/

namespace Sys2Proof.Machine

/-- One step: with no event pending the core is idle and keeps all its state (60_exceptions.md R256); otherwise the first
pending event is taken off the list and applied. -/
def step (s : State) : Host.Outcome State Fault Refusal :=
  match s.port with
  | [] => .next s
  | e :: rest => applyEvent e { s with port := rest, rdata := none }

/-- The state in which the very next step is the host's write of the table word `w` of `nbits` bits to CMD. -/
def State.withFetchWord (s : State) (nbits w : Nat) : State :=
  { s with port := .write cmdAddr (BitVec.ofNat 32 (w % 2 ^ nbits)) :: s.port }

end Sys2Proof.Machine
end

