-- ==== Sys2Proof/Machine/HostSequences.lean ====
section
/-! DEFINITION. The host's notation and sequences, each as the port events the spec expands it to: the line notation (30_encoding.md
R121), the pseudo-instructions (R122), and the two entry points of the source, `extract_key` (40_extract.md R143) and
`decrypt_stream` (43_stream.md R203), as hosts that drive the core. They are no part of the core: claims about whole calls
are stated with them. -/

namespace Sys2Proof.Machine

/-! ### The line notation -/

/-- `RD <offset>` (R121). -/
def rd (off : Nat) : Event := .read (addrOf off)

/-- `WR <offset>, <value>` (R121). -/
def wr (off : Nat) (v : Word) : Event := .write (addrOf off) v

/-- The line of a command: the write of its word to CMD (R121). -/
def cmdLine (i : Instr) : Event := wr 0x000 (encode i)

/-! ### The pseudo-instructions -/

/-- The number of words that `n` bytes fill: `ceil(n / 4)` (R83). -/
def wordsFor (n : Nat) : Nat := (n + 3) / 4

/-- The words that pack a byte sequence, bytes past its end taken as 0 (R122). -/
def packWords (base : Nat) (s : List Byte) : List Event :=
  (List.range (wordsFor s.length)).map fun k => wr (base + 4 * k) (wordAt (fun i => s.getD i 0) k)

/-- `LOAD` (R122); the sequence has at most `DBUF_BYTES` bytes. -/
def load (s : List Byte) : List Event := packWords 0x1000 s

/-- `LOADSTR`: the bytes of an ASCII string (R122). -/
def loadStr (s : String) : List Event := load (s.toList.map fun c => BitVec.ofNat 8 c.toNat)

/-- `SETKEY` (R122). -/
def setKey (key : List Byte) : List Event := packWords 0x040 (key.take 32) ++ [wr 0x010 (BitVec.ofNat 32 key.length)]

/-! ### Driving the core

The host waits for the answer of each event before it presents the next one (R86), and what it does may depend on the words
its reads have answered. So a sequence is written as a function of the state of the core in which the host begins: it
answers the state in which it ends and what the host has learnt. The core's state is reached by events only, never read
past the port. -/

/-- The state after one event; an event always has a next state. -/
def present (s : State) (e : Event) : State :=
  match applyEvent e { s with rdata := none } with
  | .next t => t
  | .fault _ => s
  | .refused _ => s

/-- The state after a sequence of events, the first one first. -/
def play (es : List Event) (s : State) : State := es.foldl present s

/-- A line `RD <offset>`: the state after it and the word the core answers on `rdata`. -/
def ask (off : Nat) (s : State) : State × Word :=
  let t := present s (rd off)
  (t, t.rdata.getD 0)

/-- The lines `RD base + 4k` for `k` in `0..n-1`: the state after them and the words answered, in order. -/
def askWords (base : Nat) : Nat → State → State × List Word
  | 0, s => (s, [])
  | n + 1, s =>
    let before := askWords base n s
    let r := ask (base + 4 * n) before.1
    (r.1, before.2 ++ [r.2])

/-- The first `n` bytes of the words a host has read, by their lanes (R81, R83). -/
def bytesOfWords (n : Nat) (ws : List Word) : List Byte := (ws.flatMap lanes).take n

/-- `READOUT` (R122): `RD OLEN`, then the words of `OBUF` that hold so many bytes; the output is the first `OLEN` bytes. -/
def readOut (s : State) : State × List Byte :=
  let len := ask 0x014 s
  let r := askWords 0x400 (wordsFor len.2.toNat) len.1
  (r.1, bytesOfWords len.2.toNat r.2)

/-- `READKEY` (R122): `RD KLEN`, then the eight words of `KEY`; the RawKey is the first `KLEN` bytes (R39). -/
def readKey (s : State) : State × List Byte :=
  let len := ask 0x010 s
  let r := askWords 0x040 8 len.1
  (r.1, bytesOfWords len.2.toNat r.2)

/-- The field `STATE` of a word read from STATUS (R24). -/
def statusState (w : Word) : BitVec 2 := w.extractLsb' 0 2

/-- The field `ERRCODE` of a word read from STATUS (R24). -/
def statusErrcode (w : Word) : BitVec 4 := w.extractLsb' 4 4

/-! ### `extract_key` -/

/-- The lines of `EXTRACT_KEY` up to the command (R122, R143). -/
def extractLines (carrier : List Byte) : List Event :=
  load carrier ++ [wr 0x008 (BitVec.ofNat 32 carrier.length), cmdLine .extract]

/-- `extract_key(carrier)` (R122, R143): after the command `RD STATUS` and `READKEY`; where STATUS shows `STATE = 2` the host
reports `ERRCODE` and issues CLR, else it returns the RawKey. Answers the state at the end and what the host returns. -/
def hostExtractKey (carrier : List Byte) (s : State) : State × Except (BitVec 4) (List Byte) :=
  let status := ask 0x004 (play (extractLines carrier) s)
  let key := readKey status.1
  if statusState status.2 = 2 then (play [cmdLine .clr] key.1, .error (statusErrcode status.2))
  else (key.1, .ok key.2)

/-! ### `decrypt_stream` -/

/-- Which key `decrypt_stream` works with (R203 `key_or_schedule`). -/
inductive KeyForm where
  /-- The schedule already expanded: SBEGIN. -/
  | schedule
  /-- The RawKey form with the key given: `SETKEY` and SBEGIN.X. -/
  | rawKey (key : List Byte)
  /-- The RawKey form with the key that stands in `KEY` and `KLEN` already, where EXTRACT has put it (R139): SBEGIN.X. -/
  | keyInPlace
deriving DecidableEq, Repr

/-- The flag `X` of the form's SBEGIN (R203). -/
def KeyForm.flag : KeyForm → Bool
  | .schedule => false
  | .rawKey _ => true
  | .keyInPlace => true

/-- `[SETKEY key]`, only where a RawKey is given (R203). -/
def KeyForm.lines : KeyForm → List Event
  | .schedule => []
  | .rawKey key => setKey key
  | .keyInPlace => []

/-- The lines of `decrypt_stream` up to SBEGIN or SBEGIN.X (R203): of a stream shorter than the header the host loads what it
has. -/
def beginLines (form : KeyForm) (stream : List Byte) : List Event :=
  form.lines ++ load (stream.take Config.headerBytes)
    ++ [wr 0x00c (BitVec.ofNat 32 stream.length), cmdLine (.sbegin form.flag)]

/-- The window loop of `decrypt_stream` (R203): while the last STATUS read shows `STATE = 1`, `RD REMCT`, `LOAD` of the next
window of `rest`, SNEXT, `READOUT` appended to `out`, `RD STATUS`. The first argument bounds the number of windows. -/
def hostWindows : Nat → List Byte → List Byte → State × Word → State × List Byte
  | 0, _, out, status => (status.1, out)
  | n + 1, rest, out, status =>
    if statusState status.2 = 1 then
      let remct := ask 0x01c status.1
      let w := min Config.window remct.2.toNat
      let r := readOut (play (load (rest.take w) ++ [cmdLine .snext]) remct.1)
      hostWindows n (rest.drop w) (out ++ r.2) (ask 0x004 r.1)
    else (status.1, out)

/-- `decrypt_stream(stream, key_or_schedule)` (R203): after SBEGIN, `RD STATUS`; where it shows `STATE = 2` the host fails with
`ERRCODE` and issues CLR, else it runs the window loop and returns its output. Every window takes at least one byte of the
stream, so the stream's length bounds the windows. Answers the state at the end and what the host returns. -/
def hostDecryptStream (form : KeyForm) (stream : List Byte) (s : State) : State × Except (BitVec 4) (List Byte) :=
  let status := ask 0x004 (play (beginLines form stream) s)
  if statusState status.2 = 2 then (play [cmdLine .clr] status.1, .error (statusErrcode status.2))
  else
    let r := hostWindows stream.length (stream.drop Config.headerBytes) [] status
    (r.1, .ok r.2)

end Sys2Proof.Machine
end

