-- ==== Sys2Proof/Machine/Reference.lean ====
section
/-! DEFINITION. Functions that claims refer to and no command computes: the AES forward cipher, of which `DecBlock` is the
inverse (42_decblk.md R168; the core has no encryptor, 00_scope.md R2), and the carrier built for a given key
(40_extract.md R141). -/

namespace Sys2Proof.Machine

/-! ### The forward cipher

PRESUMED (log entry 7): the spec names the AES forward cipher and does not write it out; it is taken from FIPS-197. -/

/-- SubBytes, the forward substitution box on every byte. -/
def subBytes (b : Block) : Block := bytesOf 16 fun i => sbox (byteAt b i)

/-- ShiftRows: row `r` rotated left by `r`. -/
def shiftRows (b : Block) : Block := bytesOf 16 fun i => byteAt b (i % 4 + 4 * ((i / 4 + i % 4) % 4))

/-- Byte of row `r` of a column after the forward column-mix: the circulant matrix with first row 2, 3, 1, 1. -/
def mixByte (r : Nat) (a0 a1 a2 a3 : Byte) : Byte :=
  match r with
  | 0 => gmul a0 2 ^^^ gmul a1 3 ^^^ a2 ^^^ a3
  | 1 => a0 ^^^ gmul a1 2 ^^^ gmul a2 3 ^^^ a3
  | 2 => a0 ^^^ a1 ^^^ gmul a2 2 ^^^ gmul a3 3
  | _ => gmul a0 3 ^^^ a1 ^^^ a2 ^^^ gmul a3 2

/-- MixColumns, each column by itself. -/
def mixColumns (b : Block) : Block :=
  bytesOf 16 fun i =>
    mixByte (i % 4) (byteAt b (4 * (i / 4))) (byteAt b (4 * (i / 4) + 1))
      (byteAt b (4 * (i / 4) + 2)) (byteAt b (4 * (i / 4) + 3))

/-- Forward round `r`. -/
def encRound (rk : List Byte) (r : Nat) (b : Block) : Block :=
  addRoundKey rk r (mixColumns (shiftRows (subBytes b)))

/-- Forward rounds 1 to `n`, in order. -/
def encRounds (rk : List Byte) : Nat → Block → Block
  | 0, b => b
  | n + 1, b => encRound rk (n + 1) (encRounds rk n b)

/-- The AES forward cipher with `nr` rounds and the schedule `rk`. -/
def encBlock (p : Block) (nr : Nat) (rk : List Byte) : Block :=
  addRoundKey rk nr (shiftRows (subBytes (encRounds rk (nr - 1) (addRoundKey rk 0 p))))

/-! ### The carrier for a given key -/

/-- The bit that token `j` carries: `b[(8k + n + 64) mod 128] = K[k][n]` (R141). -/
def carrierBit (key : Block) (j : Nat) : Bool :=
  (byteAt key ((j + 64) % 128 / 8)).getLsbD ((j + 64) % 128 % 8)

/-- The token of a bit: `"a0"` for 1, `"ab0"` for 0 (R141). -/
def carrierToken (b : Bool) : List Byte := if b then [0x61, 0x30] else [0x61, 0x62, 0x30]

/-- The bytes of the 128 tokens in order (R141). -/
def carrierBytes (key : Block) : List Byte :=
  (List.range Config.tokenCount).flatMap fun j => carrierToken (carrierBit key j)

/-- The character of a 6-bit value (R69). -/
def base64Char (v : BitVec 6) : Byte :=
  let n := v.toNat
  if n < 26 then BitVec.ofNat 8 (0x41 + n)
  else if n < 52 then BitVec.ofNat 8 (0x61 + (n - 26))
  else if n < 62 then BitVec.ofNat 8 (0x30 + (n - 52))
  else if n = 62 then 0x2b
  else 0x2f

/-- Base64 encoding with the alphabet of R69, padded with `=` to whole groups. PRESUMED (log entry 7): the grouping is RFC 4648's. -/
def base64Encode : List Byte → List Byte
  | [] => []
  | [a] => [base64Char (a.extractLsb' 2 6), base64Char ((a ++ 0#4).extractLsb' 0 6), padChar, padChar]
  | [a, b] =>
    [base64Char (a.extractLsb' 2 6), base64Char ((a ++ b).extractLsb' 4 6),
      base64Char ((b ++ 0#2).extractLsb' 0 6), padChar]
  | a :: b :: c :: rest =>
    base64Char (a.extractLsb' 2 6) :: base64Char ((a ++ b).extractLsb' 4 6)
      :: base64Char ((b ++ c).extractLsb' 6 6) :: base64Char (c.extractLsb' 0 6) :: base64Encode rest

/-- The carrier built for a key (R141). -/
def buildCarrier (key : Block) : List Byte := base64Encode (carrierBytes key)

end Sys2Proof.Machine
end

