-- ==== Sys2Proof/Safety.lean ====
section
/-! DEFINITION. The terms in which claims speak of the core: the invariants of its reachable states (10_state.md R45),
where a schedule comes from (R26, R158), and in which state each command is accepted (30_encoding.md R111). -/

namespace Sys2Proof.Machine

/-- The invariants of 10_state.md R45, and the canonical form and extent of the two buffers. -/
structure State.Inv (s : State) : Prop where
  /-- R45.1: `STATE = 2` if and only if `ERRCODE ≠ 0` (`STATE` is 0, 1 or 2 by its type). -/
  error_iff : s.mode = .error ↔ s.errcode ≠ none
  /-- R45.2: `SV = 1` if and only if `NR` is 10, 12 or 14. -/
  sv_iff : s.sv = true ↔ (s.nr = 10 ∨ s.nr = 12 ∨ s.nr = 14)
  /-- R45.2: otherwise `NR = 0` and `RKS` is all zero. -/
  no_schedule : s.sv = false → s.nr = 0 ∧ ∀ i < 240, byteAt s.rks i = 0
  /-- R45.3: `RKS` is zero above the schedule. -/
  schedule_tail : s.sv = true → ∀ i < 240, 16 * (s.nr.toNat + 1) ≤ i → byteAt s.rks i = 0
  /-- R45.4: what holds in STREAM. -/
  in_stream : s.mode = .stream →
    s.sv = true ∧ 0 < s.remct.toNat ∧ s.remct.toNat % 16 = 0 ∧ s.rempt.toNat ≤ s.remct.toNat
  /-- R45.5: what holds in IDLE. -/
  in_idle : s.mode = .idle → s.remct = 0 ∧ s.rempt = 0
  /-- R45.6: `OLEN ≤ 1024`. -/
  olen_le : s.olen.toNat ≤ 1024
  /-- R45.6: `LAST = 1` implies `STATE = IDLE`. -/
  last_idle : s.last = true → s.mode = .idle
  /-- `OBUF` is in canonical form. -/
  obuf_wf : s.obuf.wf = true
  /-- `DBUF` is in canonical form. -/
  dbuf_wf : s.dbuf.wf = true
  /-- No index of `OBUF` at or above 1024 is written (R96). -/
  obuf_within : s.obuf.within Config.obufBytes = true
  /-- No index of `DBUF` at or above `DBUF_BYTES` is written (R96). -/
  dbuf_within : s.dbuf.within Config.dbufBytes = true

/-- Where a valid schedule comes from: while `SV = 1`, `NR` and `RKS` are what `Expand` gives for some RawKey, with zeros
above it (R26, R158, D14). -/
def State.ScheduleExpanded (s : State) : Prop :=
  s.sv = true → ∃ key nr sched, expandKey key = some (nr, sched) ∧ s.nr = BitVec.ofNat 4 nr ∧ s.rks = padTo 240 sched

/-- In which `STATE` a command is accepted (the table of R111; in ERROR only CLR is, its case 1). -/
def acceptedIn (i : Instr) (m : Mode) : Bool :=
  match i, m with
  | .clr, _ => true
  | .snext, .stream => true
  | .extract, .idle => true
  | .expand, .idle => true
  | .decblk, .idle => true
  | .sbegin _, .idle => true
  | _, _ => false

/-- The errors each command can raise once it is accepted (R226, R233). -/
def errorsOf : Instr → List ErrCode
  | .extract => [.length, .carrierFormat, .invalidKeyMaterial, .tokenIndex]
  | .expand => [.invalidKeyLength]
  | .decblk => [.noSchedule]
  | .sbegin true => [.invalidKeyLength, .streamTooShort, .invalidStreamLength, .declaredLengthExceedsCiphertext]
  | .sbegin false => [.noSchedule, .streamTooShort, .invalidStreamLength, .declaredLengthExceedsCiphertext]
  | .snext => []
  | .clr => []

/-- The states a run from reset reaches, whatever events the host's side presents (R91). -/
def State.Reachable (t : State) : Prop :=
  ∃ (es : List Event) (n : Nat), Host.Core.run Sys2Proof.core n { State.reset with port := es } = .next t

/-- The host sequence of `decrypt_stream` on stream `st` from state `s` returns the plaintext `p` and leaves the core as R200
says a stream ends. -/
def HostDelivers (form : KeyForm) (st : List Byte) (s : State) (p : List Byte) : Prop :=
  ∃ t, hostDecryptStream form st s = (t, .ok p) ∧ t.mode = .idle ∧ t.last = true

/-- The host sequence of `decrypt_stream` fails with error `e` (R203, R204): SBEGIN has left the core in ERROR with the code and
no byte of `OBUF` written, the host reports the code, and its CLR has left the core in IDLE. -/
def HostFails (form : KeyForm) (st : List Byte) (s : State) (e : ErrCode) : Prop :=
  (play (beginLines form st) s).mode = .error ∧ (play (beginLines form st) s).errcode = some e
    ∧ (∀ i, (play (beginLines form st) s).obufByte i = s.obufByte i)
    ∧ ∃ t, hostDecryptStream form st s = (t, .error e.code) ∧ t.mode = .idle ∧ t.errcode = none
        ∧ ∀ i, t.obufByte i = s.obufByte i

/-- The host sequence of `decrypt_stream` computes what `DecryptStream` gives for the schedule `(nr, rk)`, and for a stream
shorter than its header it fails with StreamTooShort (R189, R204). -/
def HostComputes (form : KeyForm) (st : List Byte) (s : State) (nr : Nat) (rk : List Byte) : Prop :=
  (st.length < Config.headerBytes → HostFails form st s .streamTooShort)
    ∧ (Config.headerBytes ≤ st.length →
        (∀ p, decryptStream st nr rk = .ok p → HostDelivers form st s p)
        ∧ ∀ e, decryptStream st nr rk = .error e → HostFails form st s e)

end Sys2Proof.Machine
end

