-- ==== Sys2Proof/Certificates/Slice0/Obligations.lean ====
section
/-! DEFINITION. The statements about the machine, one definition each. Every statement is about all states or all operands
it names; a premise `s.Inv` rules out states that no run reaches, and that every step keeps it is itself a statement. How the
rules' port events come to the core is the model's own: the pending events `port` (DESIGN CHOICE, log entry 3), the read data
`rdata` (DESIGN CHOICE, log entry 4), the count `draw` of the free reset contents (DESIGN CHOICE, log entry 2), the free size
`DBUF_BYTES` (DESIGN CHOICE, log entry 1). -/

open Sys2Proof Sys2Proof.Machine

/-! ### Reset -/

/-- 10_state.md R46: the state after reset, register by register; the two buffers read as free values, whatever they are;
the core executes nothing of itself (with no pending event, log entry 3). -/
def Obligations.ResetLeavesTheSpecsValues : Prop :=
  State.reset.mode = .idle ∧ State.reset.sv = false ∧ State.reset.last = false ∧ State.reset.errcode = none
    ∧ State.reset.nr = 0
    ∧ State.reset.dlen = 0 ∧ State.reset.slen = 0 ∧ State.reset.klen = 0
    ∧ State.reset.olen = 0 ∧ State.reset.declen = 0 ∧ State.reset.remct = 0 ∧ State.reset.rempt = 0
    ∧ (∀ i < 32, byteAt State.reset.key i = 0)
    ∧ (∀ i < 16, byteAt State.reset.chain i = 0)
    ∧ (∀ i < 240, byteAt State.reset.rks i = 0)
    ∧ (∀ i, State.reset.obufByte i = Config.obufAtReset State.reset.draw i)
    ∧ (∀ i, State.reset.dbufByte i = Config.dbufAtReset State.reset.draw i)
    ∧ portRead (addrOf 0x024) State.reset = 0x41455301
    ∧ portRead (addrOf 0x028) State.reset = BitVec.ofNat 32 Config.dbufBytes
    ∧ step State.reset = .next State.reset

/-- 70_reset_and_hazards.md R260: the reset event, from any state, gives the reset state with a fresh draw of the two
buffers' contents; the host's later events stay pending. Draw and pending events are the model's choice (log entries 2, 3). -/
def Obligations.ResetEventGivesTheResetState : Prop :=
  ∀ (s : State) (rest : List Event), s.port = .reset :: rest →
    step s = .next { State.reset with draw := s.draw + 1, port := rest }

/-! ### Invariants -/

/-- The reset state meets the invariants of 10_state.md R45. -/
def Obligations.ResetSatisfiesTheInvariants : Prop := State.reset.Inv ∧ State.reset.ScheduleExpanded

/-- From every state that meets the invariants of R45, not only from reachable ones, a step leads to one that does. -/
def Obligations.EveryStepKeepsTheInvariants : Prop :=
  ∀ s t : State, s.Inv → step s = .next t → t.Inv

/-- R45: the invariants hold in every reachable state, whatever events the host's side presents. -/
def Obligations.ReachableStatesMeetTheInvariants : Prop := ∀ t : State, t.Reachable → t.Inv

/-- R26, R158: every step keeps the invariant that a valid schedule is one that `Expand` made from a RawKey. -/
def Obligations.EveryStepKeepsTheScheduleExpanded : Prop :=
  ∀ s t : State, s.ScheduleExpanded → step s = .next t → t.ScheduleExpanded

/-- R275: a command, and any other event, always yields a next state; no step faults and none refuses. -/
def Obligations.EveryStepYieldsANextState : Prop :=
  (∀ s : State, ∃ t, step s = .next t) ∧ ∀ (i : Instr) (s : State), ∃ t, exec i s = .next t

/-! ### Encoding and dispatch -/

/-- Decoding the word of a command gives the command back, and a word that decodes to a command is that command's word, so
each command has exactly one word. -/
def Obligations.DecodeAndEncodeAgree : Prop :=
  (∀ i : Instr, i.wellFormed = true → decode (encode i) = .ok i)
    ∧ ∀ (w : Word) (i : Instr), decode w = .ok i → encode i = w

/-- R113: the legal words are exactly the seven of the table, each the command of its row, and each row's match and mask
select it. -/
def Obligations.TheLegalWordsAreTheSevenOfTheTable : Prop :=
  decode 0x00000001 = .ok .extract ∧ decode 0x00000002 = .ok .expand ∧ decode 0x00000003 = .ok .decblk
    ∧ decode 0x00000004 = .ok (.sbegin false) ∧ decode 0x00000104 = .ok (.sbegin true)
    ∧ decode 0x00000005 = .ok .snext ∧ decode 0x00000006 = .ok .clr
    ∧ ∀ w : Word,
      ((∃ i, decode w = .ok i) ↔
        w ∈ [0x00000001, 0x00000002, 0x00000003, 0x00000004, 0x00000104, 0x00000005, 0x00000006])
      ∧ (decode w = .ok .extract ↔ w &&& 0xffffffff = 0x00000001)
      ∧ (decode w = .ok .expand ↔ w &&& 0xffffffff = 0x00000002)
      ∧ (decode w = .ok .decblk ↔ w &&& 0xffffffff = 0x00000003)
      ∧ ((∃ x, decode w = .ok (.sbegin x)) ↔ w &&& 0xfffffeff = 0x00000004)
      ∧ (decode w = .ok .snext ↔ w &&& 0xffffffff = 0x00000005)
      ∧ (decode w = .ok .clr ↔ w &&& 0xffffffff = 0x00000006)

/-- R115: a word is illegal exactly for one of the four reasons, and writing one raises error 10 in IDLE and STREAM and is
ignored in ERROR. -/
def Obligations.IllegalWordsRaiseErrorTen : Prop :=
  ∀ w : Word,
    ((∀ i, decode w ≠ .ok i) ↔
      (w &&& 0xff = 0 ∨ 7 ≤ (w &&& 0xff).toNat ∨ w >>> 9 ≠ 0 ∨ (w.getLsbD 8 = true ∧ w &&& 0xff ≠ 0x04)))
    ∧ ∀ s : State, (∀ i, decode w ≠ .ok i) →
      (s.mode ≠ .error → writeCmd w s = .next (raise .illegalCommand s))
        ∧ (s.mode = .error → writeCmd w s = .next s)

/-- A few words written out from the table's encodings decode to the commands they stand for (a sanity statement). -/
def Obligations.TableWordsDecode : Prop :=
  decodeTableWord 32 0x00000001 = some .extract ∧ decodeTableWord 32 0x00000104 = some (.sbegin true)
    ∧ decodeTableWord 32 0x00000006 = some .clr ∧ decodeTableWord 32 0x00000106 = none
    ∧ decodeTableWord 32 0x80000006 = none ∧ decodeTableWord 32 0x00000000 = none

/-- A step runs the decoded command: when the next event writes a legal word to CMD, the step is `exec` of its command at
the state with that event taken off; the other events and the empty list of events, likewise in full. The list of pending
events is the model's choice (log entry 3). -/
def Obligations.StepRunsTheDecodedCommand : Prop :=
  ∀ s : State,
    (s.port = [] → step s = .next s)
    ∧ (∀ w i rest, s.port = .write cmdAddr w :: rest → decode w = .ok i →
        step s = exec i { s with port := rest, rdata := none })
    ∧ (∀ w rest, s.port = .write cmdAddr w :: rest → (∀ i, decode w ≠ .ok i) →
        step s = illegalCommand { s with port := rest, rdata := none })
    ∧ (∀ a v rest, s.port = .write a v :: rest → a ≠ cmdAddr →
        step s = .next (writeTarget (targetOf (offsetOf a)) v { s with port := rest, rdata := none }))
    ∧ (∀ a rest, s.port = .read a :: rest →
        step s = .next { s with port := rest, rdata := some (portRead a { s with port := rest, rdata := none }) })
    ∧ ∀ nbits w i, decodeTableWord nbits w = some i →
        step (s.withFetchWord nbits w) = exec i { s with rdata := none }

/-- 30_encoding.md R111: the cases of a write to CMD, in their order. -/
def Obligations.CommandWordsAreDispatchedInOrder : Prop :=
  ∀ (s : State) (w : Word),
    (s.mode = .error → w = 0x00000006 → writeCmd w s = exec .clr s)
    ∧ (s.mode = .error → w ≠ 0x00000006 → writeCmd w s = .next s)
    ∧ (s.mode ≠ .error → (∀ i, decode w ≠ .ok i) → writeCmd w s = .next (raise .illegalCommand s))
    ∧ ∀ i, s.mode ≠ .error → decode w = .ok i →
        (acceptedIn i s.mode = false → writeCmd w s = .next (raise .sequence s))
        ∧ (acceptedIn i s.mode = true →
            writeCmd w s = match i with
              | .extract => .next (extractRule s)
              | .expand => .next (expandRule s)
              | .decblk => .next (decblkRule s)
              | .sbegin x => .next (sbeginRule x s)
              | .snext => .next (snextRule s)
              | .clr => .next (clearCall s))

/-! ### Errors -/

/-- 60_exceptions.md R231: errors are precise. A command that ends in ERROR from another state has made the four writes of
error entry and no other. -/
def Obligations.ErrorsArePrecise : Prop :=
  ∀ (i : Instr) (s t : State), s.mode ≠ .error → exec i s = .next t → t.mode = .error →
    ∃ e, t = { s with mode := .error, errcode := some e, olen := 0, last := false }

/-- R232: in ERROR a write to CMD of any word but CLR's changes nothing, so the first error's code stays; reads and data
writes work as in any state, and keep the core in ERROR. What the step does to the pending events and to the read data is the
model's choice (log entries 3 and 4). -/
def Obligations.ErrorStateIgnoresEveryWordButClr : Prop :=
  ∀ s : State, s.mode = .error →
    (∀ (w : Word) (rest : List Event), s.port = .write cmdAddr w :: rest → w ≠ 0x00000006 →
      step s = .next { s with port := rest, rdata := none })
    ∧ ∀ (m : Mode) (a : BitVec 30) (v : Word),
        (a ≠ addrOf 0x004 → portRead a { s with mode := m } = portRead a s)
        ∧ (a ≠ cmdAddr → ∃ t, portWrite a v s = .next t ∧ t.mode = .error ∧ t.errcode = s.errcode
            ∧ portWrite a v { s with mode := m } = .next { t with mode := m })

/-- R226, R234: which command raises which error, and from which state: error 8 where the command is not accepted, else one
of its own errors, and then the state before was IDLE; error 8 and error 10 do arise in IDLE and in STREAM. -/
def Obligations.EachErrorHasItsCommandAndItsState : Prop :=
  (∀ (i : Instr) (s t : State) (e : ErrCode), s.Inv → s.mode ≠ .error → exec i s = .next t → t.errcode = some e →
    (e = .sequence ∧ acceptedIn i s.mode = false)
      ∨ (e ∈ errorsOf i ∧ acceptedIn i s.mode = true ∧ s.mode = .idle))
  ∧ (∀ m : Mode, m ≠ .error → ∃ (i : Instr) (s t : State), s.Inv ∧ s.mode = m ∧ exec i s = .next t
      ∧ t.errcode = some .sequence)
  ∧ ∀ m : Mode, m ≠ .error →
      ∃ (w : Word) (s t : State), s.Inv ∧ s.mode = m ∧ writeCmd w s = .next t ∧ t.errcode = some .illegalCommand

/-- R24, R25, R226: the word STATUS, field by field, with the number of each value of `STATE` and of each error code; its
reserved bits read as 0, no host write changes it and reading it changes nothing; it is 0 after reset. That the answer of a read
stands in `rdata` is the model's choice (log entry 4). -/
def Obligations.StatusPacksItsFields : Prop :=
  State.reset.status = 0
  ∧ (Mode.idle.code = 0 ∧ Mode.stream.code = 1 ∧ Mode.error.code = 2)
  ∧ (errField none = 0 ∧ ErrCode.invalidKeyMaterial.code = 1 ∧ ErrCode.invalidKeyLength.code = 2
      ∧ ErrCode.invalidStreamLength.code = 3 ∧ ErrCode.declaredLengthExceedsCiphertext.code = 4
      ∧ ErrCode.streamTooShort.code = 5 ∧ ErrCode.carrierFormat.code = 6 ∧ ErrCode.tokenIndex.code = 7
      ∧ ErrCode.sequence.code = 8 ∧ ErrCode.noSchedule.code = 9 ∧ ErrCode.illegalCommand.code = 10 ∧ ErrCode.length.code = 11
      ∧ ∀ e : ErrCode, errField (some e) = e.code)
  ∧ ∀ s : State,
    portRead (addrOf 0x004) s = s.status
    ∧ s.status.toNat = s.mode.code.toNat + 4 * s.sv.toNat + 8 * s.last.toNat + 16 * (errField s.errcode).toNat
        + 256 * s.nr.toNat
    ∧ s.status >>> 12 = 0
    ∧ s.mode.code ≠ 3 ∧ (errField s.errcode).toNat ≤ 11
    ∧ (s.Inv → s.nr = 0 ∨ s.nr = 10 ∨ s.nr = 12 ∨ s.nr = 14)
    ∧ (∀ v, portWrite (addrOf 0x004) v s = .next s)
    ∧ applyEvent (.read (addrOf 0x004)) s = .next { s with rdata := some s.status }

/-! ### The port -/

/-- 20_memory.md R87: what a port read answers at every offset, a byte that nothing has written since reset being the
free value of that reset (log entry 2); it changes no state but the port's own read data (the model's field, log entry 4). -/
def Obligations.PortReadsAnswerTheirRegisters : Prop :=
  ∀ s : State,
    portRead (addrOf 0x000) s = 0 ∧ portRead (addrOf 0x004) s = s.status
    ∧ portRead (addrOf 0x008) s = s.dlen ∧ portRead (addrOf 0x00c) s = s.slen ∧ portRead (addrOf 0x010) s = s.klen
    ∧ portRead (addrOf 0x014) s = s.olen ∧ portRead (addrOf 0x018) s = s.declen
    ∧ portRead (addrOf 0x01c) s = s.remct ∧ portRead (addrOf 0x020) s = s.rempt
    ∧ portRead (addrOf 0x024) s = Config.idValue ∧ portRead (addrOf 0x028) s = BitVec.ofNat 32 Config.dbufBytes
    ∧ (∀ k < 8, portRead (addrOf (0x040 + 4 * k)) s = wordAt (byteAt s.key) k)
    ∧ (∀ k < 4, portRead (addrOf (0x060 + 4 * k)) s = wordAt (byteAt s.chain) k)
    ∧ (∀ k < 60, portRead (addrOf (0x100 + 4 * k)) s = wordAt (byteAt s.rks) k)
    ∧ (∀ k < 256, portRead (addrOf (0x400 + 4 * k)) s = wordAt s.obufByte k)
    ∧ (∀ k, 4 * k < Config.dbufBytes → portRead (addrOf (0x1000 + 4 * k)) s = wordAt s.dbufByte k)
    ∧ (∀ a : BitVec 30,
        (0x02c ≤ 4 * a.toNat ∧ 4 * a.toNat < 0x040) ∨ (0x070 ≤ 4 * a.toNat ∧ 4 * a.toNat < 0x100)
          ∨ (0x1f0 ≤ 4 * a.toNat ∧ 4 * a.toNat < 0x400) ∨ (0x800 ≤ 4 * a.toNat ∧ 4 * a.toNat < 0x1000)
          ∨ 0x1000 + Config.dbufBytes ≤ 4 * a.toNat → portRead a s = 0)
    ∧ (∀ i, s.obuf.get i = none → s.obufByte i = Config.obufAtReset s.draw i)
    ∧ (∀ i, s.dbuf.get i = none → s.dbufByte i = Config.dbufAtReset s.draw i)
    ∧ ∀ a, applyEvent (.read a) s = .next { s with rdata := some (portRead a s) }

/-- R88: what a port write does at every offset. -/
def Obligations.PortWritesChangeOnlyWhatTheyName : Prop :=
  ∀ (s : State) (v : Word),
    portWrite (addrOf 0x008) v s = .next { s with dlen := v }
    ∧ portWrite (addrOf 0x00c) v s = .next { s with slen := v }
    ∧ portWrite (addrOf 0x010) v s = .next { s with klen := v }
    ∧ (∀ k < 8, ∃ key, portWrite (addrOf (0x040 + 4 * k)) v s = .next { s with key := key }
        ∧ ∀ i < 32, byteAt key i = if i / 4 = k then v.extractLsb' (8 * (i % 4)) 8 else byteAt s.key i)
    ∧ (∀ k, 4 * k < Config.dbufBytes → ∃ m, portWrite (addrOf (0x1000 + 4 * k)) v s = .next { s with dbuf := m }
        ∧ ∀ i, State.dbufByte { s with dbuf := m } i
            = if i / 4 = k then v.extractLsb' (8 * (i % 4)) 8 else s.dbufByte i)
    ∧ portWrite (addrOf 0x000) v s = writeCmd v s
    ∧ ∀ a : BitVec 30,
        (4 * a.toNat = 0x004 ∨ (0x014 ≤ 4 * a.toNat ∧ 4 * a.toNat < 0x040)
          ∨ (0x060 ≤ 4 * a.toNat ∧ 4 * a.toNat < 0x1000) ∨ 0x1000 + Config.dbufBytes ≤ 4 * a.toNat)
        → portWrite a v s = .next s

/-- R81: byte `i` of each array is byte lane `i mod 4` of the word at `base + 4 * (i / 4)`. -/
def Obligations.PortWordsHoldTheirByteLanes : Prop :=
  ∀ (s : State) (i : Nat),
    (i < 32 → (portRead (addrOf (0x040 + 4 * (i / 4))) s).extractLsb' (8 * (i % 4)) 8 = byteAt s.key i)
    ∧ (i < 16 → (portRead (addrOf (0x060 + 4 * (i / 4))) s).extractLsb' (8 * (i % 4)) 8 = byteAt s.chain i)
    ∧ (i < 240 → (portRead (addrOf (0x100 + 4 * (i / 4))) s).extractLsb' (8 * (i % 4)) 8 = byteAt s.rks i)
    ∧ (i < 1024 → (portRead (addrOf (0x400 + 4 * (i / 4))) s).extractLsb' (8 * (i % 4)) 8 = s.obufByte i)
    ∧ (i < Config.dbufBytes →
        (portRead (addrOf (0x1000 + 4 * (i / 4))) s).extractLsb' (8 * (i % 4)) 8 = s.dbufByte i)

/-- R91: a read of a writable word after a write to it gives the value written, and a data write leaves what every other
word reads as. -/
def Obligations.ReadsGiveTheLatestWrite : Prop :=
  ∀ (s t : State) (a b : BitVec 30) (v : Word), a ≠ cmdAddr → portWrite a v s = .next t →
    (b ≠ a → portRead b t = portRead b s)
    ∧ ((0x008 ≤ 4 * a.toNat ∧ 4 * a.toNat < 0x014) ∨ (0x040 ≤ 4 * a.toNat ∧ 4 * a.toNat < 0x060)
        ∨ (0x1000 ≤ 4 * a.toNat ∧ 4 * a.toNat < 0x1000 + Config.dbufBytes) → portRead a t = v)

/-- R85: a read may be repeated; a data write twice is the write once, from every state; a write to CMD is not idempotent. -/
def Obligations.DataWritesAreIdempotentAndCommandsAreNot : Prop :=
  (∀ (s t : State) (a : BitVec 30) (v : Word), a ≠ cmdAddr → portWrite a v s = .next t → portWrite a v t = .next t)
    ∧ (∀ (s t : State) (a : BitVec 30), applyEvent (.read a) s = .next t → applyEvent (.read a) t = .next t)
    ∧ ∃ (s t u : State) (w : Word), s.Inv ∧ writeCmd w s = .next t ∧ writeCmd w t = .next u ∧ u ≠ t

/-! ### The constant tables -/

/-- 11_constants.md R60: `SBOX[a]` is the affine map of the field inverse of `a`, 0 standing for the inverse of 0. -/
def Obligations.SboxIsTheAffineMapOfTheFieldInverse : Prop :=
  ∀ a : Byte, ∃ b : Byte, ((a = 0 ∧ b = 0) ∨ gmul a b = 1) ∧ sbox a = sboxAffine b

/-- R61: the two substitution boxes are each other's inverse. -/
def Obligations.TheSubstitutionBoxesAreInverse : Prop :=
  ∀ a : Byte, invSbox (sbox a) = a ∧ sbox (invSbox a) = a

/-- R62: the four multiply tables are the products with 9, 11, 13 and 14; each maps 0 to 0 and no two bytes to one. -/
def Obligations.TheMultiplyTablesAreFieldProducts : Prop :=
  (∀ a : Byte, mul9 a = gmul a 0x09 ∧ mul11 a = gmul a 0x0b ∧ mul13 a = gmul a 0x0d ∧ mul14 a = gmul a 0x0e)
    ∧ mul9 0 = 0 ∧ mul11 0 = 0 ∧ mul13 0 = 0 ∧ mul14 0 = 0
    ∧ ∀ a b : Byte, (mul9 a = mul9 b → a = b) ∧ (mul11 a = mul11 b → a = b)
        ∧ (mul13 a = mul13 b → a = b) ∧ (mul14 a = mul14 b → a = b)

/-- R68: the ten round constants the expander uses are bytes and equal the field's doubling recurrence. -/
def Obligations.TheRoundConstantsAreTheDoublingRecurrence : Prop :=
  (∀ t, 1 ≤ t → rcon t = if t ≤ 8 then 2 ^ (t - 1) else 27 * 2 ^ (t - 9))
    ∧ ∀ t, 1 ≤ t → t ≤ 10 → rcon t < 256 ∧ BitVec.ofNat 8 (rcon t) = xtimes (t - 1) 0x01

/-! ### EXTRACT -/

/-- 40_extract.md R138: the command EXTRACT, accepted in IDLE only; its errors in their order and its writes when it
completes. -/
def Obligations.ExtractCommandStoresTheKey : Prop :=
  decode 0x00000001 = .ok .extract
  ∧ (∀ s : State, (s.mode = .stream → exec .extract s = .next (raise .sequence s))
      ∧ (s.mode = .error → exec .extract s = .next s))
  ∧ ∀ s : State, s.mode = .idle →
    (Config.dbufBytes < s.dlen.toNat → exec .extract s = .next (raise .length s))
    ∧ (s.dlen.toNat ≤ Config.dbufBytes →
        s.carrier.length = s.dlen.toNat ∧ (∀ i < s.dlen.toNat, s.carrier.getD i 0 = s.dbufByte i)
        ∧ (∀ e, extractKey s.carrier = .error e →
            (e = .carrierFormat ∨ e = .invalidKeyMaterial ∨ e = .tokenIndex) ∧ exec .extract s = .next (raise e s))
        ∧ ∀ r, extractKey s.carrier = .ok r →
            ∃ key, exec .extract s = .next { s with key := key, klen := 16, olen := 0, last := false }
              ∧ (∀ i < 16, byteAt key i = byteAt r i) ∧ ∀ i, 16 ≤ i → i < 32 → byteAt key i = byteAt s.key i)

/-- R130, R134: `Extract` decodes, scans and counts before it computes any bit; the count must be 128. -/
def Obligations.ExtractChecksItsStagesInOrder : Prop :=
  ∀ c : List Byte,
    (base64Decode c = none → extractKey c = .error .carrierFormat)
    ∧ ∀ d, base64Decode c = some d →
        ((tokens d).length ≠ 128 → extractKey c = .error .invalidKeyMaterial)
        ∧ ((tokens d).length = 128 → (∃ t ∈ tokens d, tokenBit t = none) → extractKey c = .error .tokenIndex)
        ∧ ((tokens d).length = 128 → (∀ t ∈ tokens d, tokenBit t ≠ none) →
            ∃ b, b.length = 128 ∧ (∀ j < 128, some (b.getD j false) = tokenBit ((tokens d).getD j []))
              ∧ extractKey c = .ok (assembleKey b))

/-- R132: carriers that base64 decoding refuses: every length that is one more than a multiple of 4; every carrier with a byte
that is neither in the alphabet nor `=`; `=` in a group that is not the last, in position 0 or 1 of a group, or in position 2
with anything but `=` behind it. An accepted carrier decodes to three bytes a group, less at most two. -/
def Obligations.MalformedCarriersFail : Prop :=
  (∀ c : List Byte,
    (c.length % 4 = 1 → extractKey c = .error .carrierFormat)
    ∧ ((∃ x ∈ c, base64Value x = none ∧ x ≠ 0x3d) → extractKey c = .error .carrierFormat)
    ∧ ∀ d, base64Decode c = some d → d.length ≤ 3 * ((c.length + 3) / 4) ∧ 3 * ((c.length + 3) / 4) ≤ d.length + 2)
  ∧ ∀ (before after : List Byte) (q0 q1 q2 q3 : Byte), before.length % 4 = 0 →
      (0x3d ∈ [q0, q1, q2, q3] ∧ after ≠ []) ∨ q0 = 0x3d ∨ q1 = 0x3d ∨ (q2 = 0x3d ∧ q3 ≠ 0x3d) →
      extractKey (before ++ q0 :: q1 :: q2 :: q3 :: after) = .error .carrierFormat

/-- R131, R132: a carrier is decoded as if `=` were appended up to a multiple of 4, and each legal shape of a group decodes by
the table: with `v` the number of its four 6-bit values, a full group to the bytes `v[23:16]`, `v[15:8]`, `v[7:0]`, a last group
with one pad to the first two and one with two pads to the first, whatever the bits below them. -/
def Obligations.CarrierGroupsDecodeByTheTable : Prop :=
  (∀ c : List Byte, base64Decode c = base64Decode (c ++ List.replicate ((4 - c.length % 4) % 4) 0x3d))
  ∧ base64Decode [] = some []
  ∧ ∀ (q0 q1 : Byte) (v0 v1 : BitVec 6), base64Value q0 = some v0 → base64Value q1 = some v1 →
      (∀ (q2 q3 : Byte) (v2 v3 : BitVec 6) (after : List Byte), base64Value q2 = some v2 → base64Value q3 = some v3 →
        let v := 2 ^ 18 * v0.toNat + 2 ^ 12 * v1.toNat + 2 ^ 6 * v2.toNat + v3.toNat
        base64Decode (q0 :: q1 :: q2 :: q3 :: after)
          = (base64Decode after).map fun d =>
              BitVec.ofNat 8 (v / 2 ^ 16) :: BitVec.ofNat 8 (v / 2 ^ 8) :: BitVec.ofNat 8 v :: d)
      ∧ (∀ (q2 : Byte) (v2 : BitVec 6), base64Value q2 = some v2 →
          let v := 2 ^ 18 * v0.toNat + 2 ^ 12 * v1.toNat + 2 ^ 6 * v2.toNat
          base64Decode [q0, q1, q2, 0x3d] = some [BitVec.ofNat 8 (v / 2 ^ 16), BitVec.ofNat 8 (v / 2 ^ 8)])
      ∧ base64Decode [q0, q1, 0x3d, 0x3d]
          = some [BitVec.ofNat 8 ((2 ^ 18 * v0.toNat + 2 ^ 12 * v1.toNat) / 2 ^ 16)]

/-- R69, R132: base64 decoding gives back every byte sequence that is base64-encoded. The encoder is the model's (PRESUMED, log
entry 7): the spec says `base64-encode` (R141) and does not write it out. -/
def Obligations.Base64DecodingInvertsEncoding : Prop :=
  ∀ d : List Byte, base64Decode (base64Encode d) = some d

/-- R69: the alphabet of base64, character by character, the pad character, and no other byte. The spec has it from general
knowledge (PRESUMED, log entry 8). -/
def Obligations.TheAlphabetHasItsSixtyFourCharacters : Prop :=
  let alphabet : List Byte :=
    "ABCDEFGHIJKLMNOPQRSTUVWXYZabcdefghijklmnopqrstuvwxyz0123456789+/".toList.map fun c => BitVec.ofNat 8 c.toNat
  alphabet.length = 64 ∧ (∀ n < 64, base64Value (alphabet.getD n 0) = some (BitVec.ofNat 6 n))
    ∧ (∀ x : Byte, base64Value x ≠ none ↔ x ∈ alphabet) ∧ padChar = 0x3d

/-- R70: the digit bytes are the ten from 0x30 to 0x39, each with its value, and no other byte is one. -/
def Obligations.DigitBytesAreTheTenCharacters : Prop :=
  (∀ b : Byte, isDigit b = true ↔ b ∈ [0x30, 0x31, 0x32, 0x33, 0x34, 0x35, 0x36, 0x37, 0x38, 0x39])
    ∧ ∀ n < 10, digitValue (BitVec.ofNat 8 (0x30 + n)) = n

/-- R133: the tokens of the decoded bytes: digits before a run are skipped, a run with the digit after it is a token, a
trailing run is none; every token is a non-empty run of non-digits and one digit. -/
def Obligations.TokensAreRunsEndedByOneDigit : Prop :=
  (∀ (b : Byte) (d : List Byte), isDigit b = true → tokens (b :: d) = tokens d)
    ∧ (∀ (run : List Byte) (b : Byte) (d : List Byte), run ≠ [] → (∀ x ∈ run, isDigit x = false) → isDigit b = true →
        tokens (run ++ b :: d) = (run ++ [b]) :: tokens d)
    ∧ (∀ run : List Byte, (∀ x ∈ run, isDigit x = false) → tokens run = [])
    ∧ ∀ (d t : List Byte), t ∈ tokens d → 2 ≤ t.length ∧
        ∃ run b, t = run ++ [b] ∧ isDigit b = true ∧ ∀ x ∈ run, isDigit x = false

/-- R135: the bit of a token `t` of length `n` with digit value `d`: none where `d` is not below `n`, else whether `t[d]`
equals `t[n-2]`; always 1 for `d = n - 2` and always 0 for `d = n - 1`. -/
def Obligations.TokenBitComparesTheIndexedByte : Prop :=
  ∀ (run : List Byte) (b : Byte), run ≠ [] → (∀ x ∈ run, isDigit x = false) → isDigit b = true →
    (run.length + 1 ≤ digitValue b → tokenBit (run ++ [b]) = none)
    ∧ (digitValue b < run.length + 1 →
        tokenBit (run ++ [b]) = some ((run ++ [b]).getD (digitValue b) 0 == run.getD (run.length - 1) 0))
    ∧ (digitValue b = run.length - 1 → tokenBit (run ++ [b]) = some true)
    ∧ (digitValue b = run.length → tokenBit (run ++ [b]) = some false)

/-- R137: the closed form of the key's bits: bit `n` of key byte `k` is the bit of token `(8k + n + 64) mod 128`. -/
def Obligations.KeyBitsComeFromTheirTokens : Prop :=
  ∀ b : List Bool, b.length = 128 →
    (∀ k < 16, ∀ n < 8, (byteAt (assembleKey b) k).getLsbD n = b.getD ((8 * k + n + 64) % 128) false)
    ∧ (∀ k < 8, ∀ n < 8, (byteAt (assembleKey b) k).getLsbD n = b.getD (64 + 8 * k + n) false)
    ∧ ∀ k, 8 ≤ k → k < 16 → ∀ n < 8, (byteAt (assembleKey b) k).getLsbD n = b.getD (8 * (k - 8) + n) false

/-- R141: `Extract` of the carrier built for a key is that key, for every key. The base64 encoder that builds the carrier is the
model's (PRESUMED, log entry 7): the spec says `base64-encode` and does not write it out. -/
def Obligations.ExtractRecoversTheKeyOfABuiltCarrier : Prop :=
  ∀ key : Block, extractKey (buildCarrier key) = .ok key

/-! ### EXPAND -/

/-- 41_expand.md R155: the command EXPAND, accepted in IDLE only: error 2 for any other key length, else the schedule in `RKS` with zeros
above it, `NR` and `SV`. -/
def Obligations.ExpandCommandWritesTheSchedule : Prop :=
  decode 0x00000002 = .ok .expand
  ∧ (∀ s : State, (s.mode = .stream → exec .expand s = .next (raise .sequence s))
      ∧ (s.mode = .error → exec .expand s = .next s))
  ∧ ∀ s : State, s.mode = .idle →
    (s.klen.toNat ≠ 16 ∧ s.klen.toNat ≠ 24 ∧ s.klen.toNat ≠ 32 → exec .expand s = .next (raise .invalidKeyLength s))
    ∧ (s.klen.toNat = 16 ∨ s.klen.toNat = 24 ∨ s.klen.toNat = 32 →
        ∃ rks nr sched,
          exec .expand s = .next { s with rks := rks, nr := nr, sv := true, olen := 0, last := false }
          ∧ expandKey ((List.range s.klen.toNat).map (byteAt s.key)) = some (nr.toNat, sched)
          ∧ sched.length = 16 * (nr.toNat + 1)
          ∧ (∀ i < 16 * (nr.toNat + 1), byteAt rks i = sched.getD i 0)
          ∧ ∀ i, 16 * (nr.toNat + 1) ≤ i → i < 240 → byteAt rks i = 0)

/-- R150: which keys have a schedule, and its sizes; a key of any other length has none. -/
def Obligations.ScheduleSizesFollowTheKeyLength : Prop :=
  ∀ key : List Byte,
    (expandKey key = none ↔ key.length ≠ 16 ∧ key.length ≠ 24 ∧ key.length ≠ 32)
    ∧ ∀ nr sched, expandKey key = some (nr, sched) →
        nr = key.length / 4 + 6 ∧ (nr = 10 ∨ nr = 12 ∨ nr = 14) ∧ sched.length = 4 * (4 * (nr + 1))

/-- R153: the recurrence of the schedule's words, for every word of every schedule. -/
def Obligations.ScheduleWordsObeyTheRecurrence : Prop :=
  ∀ (key : List Byte) (nr : Nat) (sched : List Byte), expandKey key = some (nr, sched) →
    (∀ j < key.length / 4, keyWord sched j = keyWord key j)
    ∧ ∀ i, key.length / 4 ≤ i → i < 4 * (nr + 1) →
        let nk := key.length / 4
        let prev := keyWord sched (i - 1)
        (i % nk = 0 → keyWord sched i = kwordXor (keyWord sched (i - nk))
            ⟨sbox prev.b1 ^^^ BitVec.ofNat 8 (rcon (i / nk)), sbox prev.b2, sbox prev.b3, sbox prev.b0⟩)
        ∧ (i % nk ≠ 0 → 6 < nk → i % nk = 4 → keyWord sched i = kwordXor (keyWord sched (i - nk))
            ⟨sbox prev.b0, sbox prev.b1, sbox prev.b2, sbox prev.b3⟩)
        ∧ (i % nk ≠ 0 → ¬ (6 < nk ∧ i % nk = 4) → keyWord sched i = kwordXor (keyWord sched (i - nk)) prev)

/-- R155: the schedule is a function of `KEY[0..KLEN-1]` alone: two cores that agree on `KLEN` and those bytes get the same
240 bytes of `RKS` and the same `NR`, whatever else differs. -/
def Obligations.ScheduleDependsOnTheRawKeyAlone : Prop :=
  ∀ s u : State, s.mode = .idle → u.mode = .idle → s.klen = u.klen → keyLengthOk s.klen.toNat = true →
    (∀ i < s.klen.toNat, byteAt s.key i = byteAt u.key i) →
    ∃ s' u', exec .expand s = .next s' ∧ exec .expand u = .next u' ∧ s'.rks = u'.rks ∧ s'.nr = u'.nr

/-! ### DECBLK -/

/-- 42_decblk.md R170: the command DECBLK, accepted in IDLE only: error 9 without a schedule, else the decrypted block in `OBUF[0..15]`, every
other byte of `OBUF` unchanged. -/
def Obligations.DecblkCommandDecryptsOneBlock : Prop :=
  decode 0x00000003 = .ok .decblk
  ∧ (∀ s : State, (s.mode = .stream → exec .decblk s = .next (raise .sequence s))
      ∧ (s.mode = .error → exec .decblk s = .next s))
  ∧ ∀ s : State, s.mode = .idle →
    (s.sv = false → exec .decblk s = .next (raise .noSchedule s))
    ∧ (s.sv = true → ∃ m, exec .decblk s = .next { s with obuf := m, olen := 16, last := false }
        ∧ (∀ i < 16, byteAt (s.dbufBlock 0) i = s.dbufByte i)
        ∧ (∀ i < 16 * s.nr.toNat + 16, s.schedule.getD i 0 = byteAt s.rks i)
        ∧ ∀ i, State.obufByte { s with obuf := m } i
            = if i < 16 then byteAt (decBlock (s.dbufBlock 0) s.nr.toNat s.schedule) i else s.obufByte i)

/-- R167: `DecBlock` is whitening with block `Nr`, the rounds `Nr - 1` down to 1, and the final round without the column-mix. -/
def Obligations.DecBlockRunsItsRoundsInOrder : Prop :=
  ∀ (c : Block) (nr : Nat) (rk : List Byte), 1 ≤ nr →
    decBlock c nr rk =
      addRoundKey rk 0 (invSubBytes (invShiftRows
        ((List.range' 1 (nr - 1)).reverse.foldl
          (fun b r => invMixColumns (addRoundKey rk r (invSubBytes (invShiftRows b)))) (addRoundKey rk nr c))))

/-- R171, R172, R173, R175: the four transforms, entry by entry of the 4 by 4 matrix. Which table meets which byte in the inverse
column-mix is the spec's from general knowledge (PRESUMED, log entry 8). -/
def Obligations.TransformsActOnTheStateMatrix : Prop :=
  ∀ (b : Block) (rk : List Byte) (r : Nat), ∀ row < 4, ∀ col < 4,
    byteAt (addRoundKey rk r b) (row + 4 * col) = byteAt b (row + 4 * col) ^^^ rk.getD (16 * r + (row + 4 * col)) 0
    ∧ byteAt (invShiftRows b) (row + 4 * col) = byteAt b (row + 4 * ((col + 4 - row) % 4))
    ∧ byteAt (invSubBytes b) (row + 4 * col) = invSbox (byteAt b (row + 4 * col))
    ∧ byteAt (invMixColumns b) (0 + 4 * col) = mul14 (byteAt b (4 * col)) ^^^ mul11 (byteAt b (4 * col + 1))
        ^^^ mul13 (byteAt b (4 * col + 2)) ^^^ mul9 (byteAt b (4 * col + 3))
    ∧ byteAt (invMixColumns b) (1 + 4 * col) = mul9 (byteAt b (4 * col)) ^^^ mul14 (byteAt b (4 * col + 1))
        ^^^ mul11 (byteAt b (4 * col + 2)) ^^^ mul13 (byteAt b (4 * col + 3))
    ∧ byteAt (invMixColumns b) (2 + 4 * col) = mul13 (byteAt b (4 * col)) ^^^ mul9 (byteAt b (4 * col + 1))
        ^^^ mul14 (byteAt b (4 * col + 2)) ^^^ mul11 (byteAt b (4 * col + 3))
    ∧ byteAt (invMixColumns b) (3 + 4 * col) = mul11 (byteAt b (4 * col)) ^^^ mul13 (byteAt b (4 * col + 1))
        ^^^ mul9 (byteAt b (4 * col + 2)) ^^^ mul14 (byteAt b (4 * col + 3))

/-- R174: the inverse row-shift and the inverse substitution commute; neither commutes with the inverse column-mix, nor in
general with the round-key XOR. -/
def Obligations.InvShiftRowsAndInvSubBytesCommute : Prop :=
  (∀ b : Block, invShiftRows (invSubBytes b) = invSubBytes (invShiftRows b))
    ∧ (∃ b : Block, invShiftRows (invMixColumns b) ≠ invMixColumns (invShiftRows b))
    ∧ (∃ b : Block, invSubBytes (invMixColumns b) ≠ invMixColumns (invSubBytes b))
    ∧ (∃ (b : Block) (rk : List Byte) (r : Nat), invShiftRows (addRoundKey rk r b) ≠ addRoundKey rk r (invShiftRows b))
    ∧ ∃ (b : Block) (rk : List Byte) (r : Nat), invSubBytes (addRoundKey rk r b) ≠ addRoundKey rk r (invSubBytes b)

/-- R168: `DecBlock` is the inverse of the AES forward cipher under the same key, for every key and block. The forward cipher is
the model's (PRESUMED, log entry 7): the spec names it and does not write it out. -/
def Obligations.DecBlockInvertsTheForwardCipher : Prop :=
  ∀ (key : List Byte) (nr : Nat) (rk : List Byte) (p : Block), expandKey key = some (nr, rk) →
    decBlock (encBlock p nr rk) nr rk = p

/-! ### SBEGIN and SNEXT -/

/-- 43_stream.md R190: the commands SBEGIN and SBEGIN.X, accepted in IDLE only: the checks in their order, and every write when they pass. -/
def Obligations.SbeginCommandBeginsTheStream : Prop :=
  (decode 0x00000004 = .ok (.sbegin false) ∧ decode 0x00000104 = .ok (.sbegin true))
  ∧ (∀ (s : State) (x : Bool), (s.mode = .stream → exec (.sbegin x) s = .next (raise .sequence s))
      ∧ (s.mode = .error → exec (.sbegin x) s = .next s))
  ∧ ∀ s : State, s.mode = .idle →
    (∀ x, exec (.sbegin x) s =
      if x = true ∧ ¬ (s.klen.toNat = 16 ∨ s.klen.toNat = 24 ∨ s.klen.toNat = 32) then .next (raise .invalidKeyLength s)
      else if x = false ∧ s.sv = false then .next (raise .noSchedule s)
      else if s.slen.toNat < 20 then .next (raise .streamTooShort s)
      else if (s.slen.toNat - 20) % 16 ≠ 0 then .next (raise .invalidStreamLength s)
      else if s.slen.toNat - 20 < s.declaredLength.toNat then .next (raise .declaredLengthExceedsCiphertext s)
      else .next
        { (if x = true then expansion s else s) with
          chain := s.dbufBlock 0, declen := s.declaredLength, remct := BitVec.ofNat 32 (s.slen.toNat - 20)
          rempt := s.declaredLength, olen := 0
          mode := if s.slen.toNat = 20 then .idle else .stream, last := decide (s.slen.toNat = 20) })
    ∧ (∀ i < 16, byteAt (s.dbufBlock 0) i = s.dbufByte i)
    ∧ s.declaredLength.toNat = (s.dbufByte 16).toNat + 2 ^ 8 * (s.dbufByte 17).toNat + 2 ^ 16 * (s.dbufByte 18).toNat
        + 2 ^ 24 * (s.dbufByte 19).toNat
    ∧ (s.klen.toNat = 16 ∨ s.klen.toNat = 24 ∨ s.klen.toNat = 32 → ∃ nr sched,
        expandKey s.rawKey = some (nr, sched)
        ∧ expansion s = { s with rks := padTo 240 sched, nr := BitVec.ofNat 4 nr, sv := true })

/-- R192, R193: the command SNEXT, accepted in STREAM only: each block of the window is decrypted and XORed with the ciphertext before it (with
`CHAIN` for the first), and the position, the flags and `STATE` advance; nothing else changes. -/
def Obligations.SnextCommandDecryptsOneWindow : Prop :=
  decode 0x00000005 = .ok .snext
  ∧ (∀ s : State, (s.mode = .idle → exec .snext s = .next (raise .sequence s))
      ∧ (s.mode = .error → exec .snext s = .next s))
  ∧ ∀ s : State, s.Inv → s.mode = .stream →
    let w := min 1024 s.remct.toNat
    w % 16 = 0 ∧ 16 ≤ w ∧ ∃ m,
      exec .snext s = .next
        { s with
          obuf := m, chain := s.dbufBlock (w / 16 - 1), olen := BitVec.ofNat 32 (min s.rempt.toNat w)
          rempt := BitVec.ofNat 32 (s.rempt.toNat - min s.rempt.toNat w)
          remct := BitVec.ofNat 32 (s.remct.toNat - w)
          mode := if s.remct.toNat = w then .idle else .stream, last := decide (s.remct.toNat = w) }
      ∧ (∀ j < w / 16, ∀ i < 16, State.obufByte { s with obuf := m } (16 * j + i)
          = byteAt (decBlock (s.dbufBlock j) s.nr.toNat s.schedule) i
            ^^^ byteAt (if j = 0 then s.chain else s.dbufBlock (j - 1)) i)
      ∧ (∀ j i, i < 16 → byteAt (s.dbufBlock j) i = s.dbufByte (16 * j + i))
      ∧ ∀ i, w ≤ i → State.obufByte { s with obuf := m } i = s.obufByte i

/-- R198: a stream that decrypts gives exactly `declared_length` bytes, which is at most its ciphertext's length, so it is also
`min(declared_length, 16k)`. -/
def Obligations.StreamOutputHasTheDeclaredLength : Prop :=
  ∀ (st : List Byte) (nr : Nat) (rk p : List Byte), 20 ≤ st.length → decryptStream st nr rk = .ok p →
    let declared := (le32 (st.getD 16 0) (st.getD 17 0) (st.getD 18 0) (st.getD 19 0)).toNat
    (st.length - 20) % 16 = 0 ∧ declared ≤ st.length - 20 ∧ p.length = declared
      ∧ p.length = min declared (16 * ((st.length - 20) / 16))

/-- R197: changing `IV0` changes only the first decrypted block, by exactly the difference of the IVs; changing one ciphertext
block changes only its own plaintext block and, by exactly the difference, the next. -/
def Obligations.ChangesReachOnlyTheirOwnBlocks : Prop :=
  (∀ (iv iv' rest : List Byte) (nr : Nat) (rk p : List Byte), iv.length = 16 → iv'.length = 16 →
    decryptStream (iv ++ rest) nr rk = .ok p →
    ∃ p', decryptStream (iv' ++ rest) nr rk = .ok p' ∧ p'.length = p.length
      ∧ (∀ i, 16 ≤ i → p'.getD i 0 = p.getD i 0)
      ∧ ∀ i, i < 16 → i < p.length → p'.getD i 0 ^^^ p.getD i 0 = iv'.getD i 0 ^^^ iv.getD i 0)
  ∧ ∀ (nr : Nat) (rk : List Byte) (prev c' : Block) (cs : List Block) (k : Nat), k < cs.length →
      (∀ j, j ≠ k → j ≠ k + 1 → (cbcBlocks nr rk prev (cs.set k c'))[j]? = (cbcBlocks nr rk prev cs)[j]?)
      ∧ ∀ q, (cbcBlocks nr rk prev cs)[k + 1]? = some q →
          ∃ q' c, (cbcBlocks nr rk prev (cs.set k c'))[k + 1]? = some q' ∧ cs[k]? = some c
            ∧ ∀ i < 16, byteAt q' i ^^^ byteAt q i = byteAt c' i ^^^ byteAt c i

/-- R203, R204: the host sequence of `decrypt_stream` computes exactly `DecryptStream`, for every stream that `SLEN` can
describe and every idle core: with the schedule in force, with a RawKey that SETKEY gives, and with the RawKey that stands in
`KEY`. Where the function fails (or there is no schedule, or the key has a wrong length, or the stream is too short) the core is
in ERROR with its code and no byte of `OBUF` is written; the host reports the code and issues CLR. -/
def Obligations.HostDecryptStreamComputesTheFunction : Prop :=
  ∀ (s : State) (st : List Byte), s.Inv → s.mode = .idle → st.length < 2 ^ 32 →
    (s.sv = true → HostComputes .schedule st s s.nr.toNat s.schedule)
    ∧ (s.sv = false → HostFails .schedule st s .noSchedule)
    ∧ (∀ key : List Byte, key.length < 2 ^ 32 →
        (expandKey key = none → HostFails (.rawKey key) st s .invalidKeyLength)
        ∧ ∀ nr rk, expandKey key = some (nr, rk) → HostComputes (.rawKey key) st s nr rk)
    ∧ (expandKey s.rawKey = none → HostFails .keyInPlace st s .invalidKeyLength)
    ∧ ∀ nr rk, expandKey s.rawKey = some (nr, rk) → HostComputes .keyInPlace st s nr rk

/-- R143: the host sequence of `extract_key` computes exactly `Extract`, for every carrier the input buffer holds and every idle
core, and leaves the schedule in force as it was (R139). Where it fails the core is in ERROR with its code, the host reports the
code and issues CLR, and `KEY` and `KLEN` are as before. -/
def Obligations.HostExtractKeyComputesTheFunction : Prop :=
  ∀ (s : State) (c : List Byte), s.Inv → s.mode = .idle → c.length ≤ Config.dbufBytes →
    (∀ r, extractKey c = .ok r → ∃ t, hostExtractKey c s = (t, .ok r.toList) ∧ t.mode = .idle ∧ t.klen = 16
        ∧ t.sv = s.sv ∧ t.nr = s.nr ∧ t.rks = s.rks)
    ∧ ∀ e, extractKey c = .error e →
        (play (extractLines c) s).mode = .error ∧ (play (extractLines c) s).errcode = some e
        ∧ ∃ t, hostExtractKey c s = (t, .error e.code) ∧ t.mode = .idle ∧ t.errcode = none ∧ t.key = s.key ∧ t.klen = s.klen
            ∧ t.sv = s.sv ∧ t.nr = s.nr ∧ t.rks = s.rks

/-! ### CLR -/

/-- 44_control.md R214: CLR, in every state: what it writes, and nothing else; a word with extra bits is not CLR. -/
def Obligations.ClrReturnsToIdle : Prop :=
  decode 0x00000006 = .ok .clr ∧ (∀ i, decode 0x00000106 ≠ .ok i)
  ∧ ∀ s : State, exec .clr s = .next
    { s with
      mode := .idle, errcode := none, olen := 0, last := false, declen := 0, remct := 0, rempt := 0
      chain := Vector.replicate 16 0 }

/-! ### The whole machine -/

/-- 41_expand.md R157: only an expansion writes the schedule: no other command changes `RKS`, `NR` or `SV`, and no port write
does; in STREAM none does at all, and only reset clears a schedule. -/
def Obligations.OnlyAnExpansionChangesTheSchedule : Prop :=
  ∀ s t : State, step s = .next t →
    (t.rks ≠ s.rks ∨ t.nr ≠ s.nr ∨ t.sv ≠ s.sv) →
    (∃ rest, s.port = .reset :: rest)
      ∨ (s.mode = .idle ∧ t.sv = true ∧ ∃ rest,
          s.port = .write cmdAddr 0x00000002 :: rest ∨ s.port = .write cmdAddr 0x00000104 :: rest)

/-- 20_memory.md R96, 30_encoding.md R117: what no command changes, and the one or few commands that change each of the others. -/
def Obligations.CommandsChangeOnlyTheirOwnState : Prop :=
  ∀ (i : Instr) (s t : State), exec i s = .next t →
    t.dbuf = s.dbuf ∧ t.dlen = s.dlen ∧ t.slen = s.slen ∧ t.draw = s.draw ∧ t.port = s.port ∧ t.rdata = s.rdata
    ∧ (i ≠ .extract → t.key = s.key ∧ t.klen = s.klen)
    ∧ ((∀ x, i ≠ .sbegin x) → i ≠ .snext → i ≠ .clr → t.chain = s.chain ∧ t.remct = s.remct ∧ t.rempt = s.rempt)
    ∧ ((∀ x, i ≠ .sbegin x) → i ≠ .clr → t.declen = s.declen)
    ∧ (i ≠ .decblk → i ≠ .snext → t.obuf = s.obuf)
    ∧ (i ≠ .expand → i ≠ .sbegin true → t.rks = s.rks ∧ t.nr = s.nr ∧ t.sv = s.sv)
    ∧ ∀ a, Config.obufBytes ≤ a → t.obufByte a = s.obufByte a

/-- 10_state.md R27, R33: `LAST` and `OLEN` after every command that is not ignored. -/
def Obligations.EveryCommandWritesLastAndOlen : Prop :=
  ∀ (i : Instr) (s t : State), (s.mode ≠ .error ∨ i = .clr) → exec i s = .next t →
    (t.last = true ↔ (t.mode ≠ .error ∧ (i = .snext ∨ ∃ x, i = .sbegin x) ∧ t.remct = 0))
    ∧ t.olen = if t.mode = .error then 0 else match i with
        | .decblk => 16
        | .snext => BitVec.ofNat 32 (min s.rempt.toNat (min 1024 s.remct.toNat))
        | _ => 0

/-- 43_stream.md R186: the transitions of `STATE`: those of the table, each with its event, and no other. -/
def Obligations.StateChangesOnlyAsTheTableSays : Prop :=
  (∀ (s t : State) (i : Instr), s.Inv → exec i s = .next t →
    (s.mode = .idle → t.mode ≠ .error → i = .extract ∨ i = .expand ∨ i = .decblk → t.mode = .idle)
    ∧ (∀ x, s.mode = .idle → t.mode ≠ .error → i = .sbegin x → s.slen.toNat = 20 → t.mode = .idle ∧ t.last = true)
    ∧ (∀ x, s.mode = .idle → t.mode ≠ .error → i = .sbegin x → s.slen.toNat ≠ 20 → 20 < s.slen.toNat ∧ t.mode = .stream)
    ∧ (s.mode = .stream → i = .snext → 0 < t.remct.toNat → t.mode = .stream)
    ∧ (s.mode = .stream → i = .snext → t.remct = 0 → t.mode = .idle ∧ t.last = true)
    ∧ (i = .clr → t.mode = .idle)
    ∧ (s.mode = .error → i ≠ .clr → t = s)
    ∧ (s.mode ≠ .error → (t.errcode ≠ none ↔ t.mode = .error)))
  ∧ (∀ (s : State) (w : Word), s.mode = .error → (∀ i, decode w ≠ .ok i) → writeCmd w s = .next s)
  ∧ (∀ (s t : State) (rest : List Event), s.port = .reset :: rest → step s = .next t → t.mode = .idle)
  ∧ ∀ s t : State, step s = .next t → t.mode ≠ s.mode →
      (t.mode = .idle ∧ ∃ rest, s.port = .reset :: rest)
      ∨ ∃ w rest, s.port = .write cmdAddr w :: rest
          ∧ ((t.mode = .error ∧ s.mode ≠ .error)
            ∨ (t.mode = .idle ∧ decode w = .ok .clr)
            ∨ (t.mode = .idle ∧ s.mode = .stream ∧ decode w = .ok .snext)
            ∨ (t.mode = .stream ∧ s.mode = .idle ∧ ∃ x, decode w = .ok (.sbegin x)))
end

