-- ==== Sys2Proof/Laws/Bytes.lean ====
section
/-! SUPPORT. Laws of byte arrays: what a byte of an array built by `bytesOf` is, when two arrays are equal, and the byte
lanes of a word. -/

namespace Sys2Proof.Machine

@[simp] theorem byteAt_bytesOf (n : Nat) (f : Nat → Byte) (i : Nat) :
    byteAt (bytesOf n f) i = if i < n then f i else 0 := by
  by_cases h : i < n <;> simp [byteAt, bytesOf, List.getD_eq_getElem?_getD, h]

theorem byteAt_eq_getElem {n : Nat} (v : Bytes n) (i : Nat) (h : i < n) : byteAt v i = v[i] := by
  simp [byteAt, List.getD_eq_getElem?_getD, h]

@[simp] theorem byteAt_past {n : Nat} (v : Bytes n) (i : Nat) (h : n ≤ i) : byteAt v i = 0 := by
  simp [byteAt, List.getD_eq_getElem?_getD, h]

/-- Two arrays with the same bytes are equal. -/
theorem bytes_ext {n : Nat} (v w : Bytes n) (h : ∀ i < n, byteAt v i = byteAt w i) : v = w := by
  apply Vector.ext
  intro i hi
  rw [← byteAt_eq_getElem v i hi, ← byteAt_eq_getElem w i hi, h i hi]

@[simp] theorem byteAt_replicate (n : Nat) (b : Byte) (i : Nat) :
    byteAt (Vector.replicate n b) i = if i < n then b else 0 := by
  by_cases h : i < n
  · rw [byteAt_eq_getElem _ _ h]; simp [h]
  · rw [byteAt_past _ _ (by omega)]; simp [h]

@[simp] theorem byteAt_padTo (n : Nat) (s : List Byte) (i : Nat) :
    byteAt (padTo n s) i = if i < n then s.getD i 0 else 0 := by simp [padTo]

@[simp] theorem byteAt_xorBlock (a b : Block) (i : Nat) : byteAt (xorBlock a b) i = byteAt a i ^^^ byteAt b i := by
  by_cases h : i < 16
  · simp [xorBlock, h]
  · rw [byteAt_past _ _ (by omega), byteAt_past _ _ (by omega), byteAt_past _ _ (by omega)]; rfl

@[simp] theorem byteAt_blockAt (s : List Byte) (off i : Nat) :
    byteAt (blockAt s off) i = if i < 16 then s.getD (off + i) 0 else 0 := by simp [blockAt]

/-- An array is the list of its bytes. -/
theorem toList_eq_map_byteAt {n : Nat} (v : Bytes n) : v.toList = (List.range n).map (byteAt v) := by
  apply List.ext_getElem
  · simp
  · intro i h1 h2
    have h : i < n := by simpa using h1
    simp [byteAt_eq_getElem v i h]

theorem toList_bytesOf (n : Nat) (f : Nat → Byte) : (bytesOf n f).toList = (List.range n).map f := rfl

@[simp] theorem toList_length {n : Nat} (v : Bytes n) : v.toList.length = n := by simp

theorem xorBlock_self_cancel (a b : Block) : xorBlock (xorBlock a b) b = a := by
  apply bytes_ext
  intro i _
  simp

/-! ### Lanes -/

/-- The value of a little-endian word (00_scope.md R9). -/
theorem le32_toNat (b0 b1 b2 b3 : Byte) :
    (le32 b0 b1 b2 b3).toNat = b0.toNat + 2 ^ 8 * b1.toNat + 2 ^ 16 * b2.toNat + 2 ^ 24 * b3.toNat := by
  have h0 := b0.isLt; have h1 := b1.isLt; have h2 := b2.isLt; have h3 := b3.isLt
  simp only [le32, BitVec.toNat_append]
  rw [← Nat.shiftLeft_add_eq_or_of_lt (by omega), ← Nat.shiftLeft_add_eq_or_of_lt (by omega),
    ← Nat.shiftLeft_add_eq_or_of_lt (by omega)]
  simp only [Nat.shiftLeft_eq]
  omega

@[simp] theorem lane0_le32 (b0 b1 b2 b3 : Byte) : lane (le32 b0 b1 b2 b3) 0 = b0 := by
  apply BitVec.eq_of_toNat_eq
  have h0 := b0.isLt; have h1 := b1.isLt; have h2 := b2.isLt; have h3 := b3.isLt
  simp only [lane, BitVec.extractLsb'_toNat, le32_toNat, Nat.shiftRight_eq_div_pow]
  omega

@[simp] theorem lane1_le32 (b0 b1 b2 b3 : Byte) : lane (le32 b0 b1 b2 b3) 1 = b1 := by
  apply BitVec.eq_of_toNat_eq
  have h0 := b0.isLt; have h1 := b1.isLt; have h2 := b2.isLt; have h3 := b3.isLt
  simp only [lane, BitVec.extractLsb'_toNat, le32_toNat, Nat.shiftRight_eq_div_pow]
  omega

@[simp] theorem lane2_le32 (b0 b1 b2 b3 : Byte) : lane (le32 b0 b1 b2 b3) 2 = b2 := by
  apply BitVec.eq_of_toNat_eq
  have h0 := b0.isLt; have h1 := b1.isLt; have h2 := b2.isLt; have h3 := b3.isLt
  simp only [lane, BitVec.extractLsb'_toNat, le32_toNat, Nat.shiftRight_eq_div_pow]
  omega

@[simp] theorem lane3_le32 (b0 b1 b2 b3 : Byte) : lane (le32 b0 b1 b2 b3) 3 = b3 := by
  apply BitVec.eq_of_toNat_eq
  have h0 := b0.isLt; have h1 := b1.isLt; have h2 := b2.isLt; have h3 := b3.isLt
  simp only [lane, BitVec.extractLsb'_toNat, le32_toNat, Nat.shiftRight_eq_div_pow]
  omega

/-- A word is put together from its own lanes (20_memory.md R81). -/
theorem le32_lanes (w : Word) : le32 (lane w 0) (lane w 1) (lane w 2) (lane w 3) = w := by
  apply BitVec.eq_of_toNat_eq
  have h := w.isLt
  simp only [le32_toNat, lane, BitVec.extractLsb'_toNat, Nat.shiftRight_eq_div_pow]
  omega

/-- Lane `j` of word `k` is byte `4k + j` of the array (R81). -/
theorem lane_wordAt (f : Nat → Byte) (k j : Nat) (h : j < 4) : lane (wordAt f k) j = f (4 * k + j) := by
  have : j = 0 ∨ j = 1 ∨ j = 2 ∨ j = 3 := by omega
  rcases this with rfl | rfl | rfl | rfl <;> simp [wordAt]

@[simp] theorem byteAt_setWord {n : Nat} (v : Bytes n) (k : Nat) (w : Word) (i : Nat) :
    byteAt (setWord v k w) i = if i < n then (if i / 4 = k then lane w (i % 4) else byteAt v i) else 0 := by
  simp [setWord]

end Sys2Proof.Machine
end

