-- ==== Sys2Proof/Laws/Cbc.lean ====
section
/-! SUPPORT. Laws of the source's stream function (43_stream.md R185): its blocks one by one, and when it fails. -/

namespace Sys2Proof.Machine

@[simp] theorem cbcBlocks_length (nr : Nat) (rk : List Byte) (prev : Block) (cs : List Block) :
    (cbcBlocks nr rk prev cs).length = cs.length := by
  induction cs generalizing prev with
  | nil => rfl
  | cons c cs ih => simp [cbcBlocks, ih]

/-- Plaintext block `j`: the decrypted block XORed with the block before it, or with the chain value (R185, R192). -/
theorem cbcBlocks_getElem? (nr : Nat) (rk : List Byte) (prev : Block) (cs : List Block) (j : Nat) :
    (cbcBlocks nr rk prev cs)[j]?
      = (cs[j]?).map fun c => xorBlock (decBlock c nr rk) (if j = 0 then prev else cs.getD (j - 1) prev) := by
  induction cs generalizing prev j with
  | nil => simp [cbcBlocks]
  | cons c cs ih =>
    cases j with
    | zero => simp [cbcBlocks]
    | succ j =>
      simp only [cbcBlocks, List.getElem?_cons_succ, ih]
      cases j with
      | zero => simp
      | succ j =>
        by_cases hj : j < cs.length
        · simp [hj]
        · have : cs.length ≤ j + 1 := by omega
          simp [this]

/-- Chaining runs on across any cut of the block list (R194). -/
theorem cbcBlocks_append (nr : Nat) (rk : List Byte) (prev : Block) (cs ds : List Block) :
    cbcBlocks nr rk prev (cs ++ ds) = cbcBlocks nr rk prev cs ++ cbcBlocks nr rk (cs.getLastD prev) ds := by
  induction cs generalizing prev with
  | nil => simp [cbcBlocks]
  | cons c cs ih => simp only [List.cons_append, cbcBlocks, ih, List.getLastD_cons]

@[simp] theorem flatMap_toList_length (l : List Block) : (l.flatMap fun p => p.toList).length = 16 * l.length := by
  induction l with
  | nil => rfl
  | cons b l ih => simp [ih]; omega

@[simp] theorem blocksOf_length (s : List Byte) (n : Nat) : (blocksOf s n).length = n := by simp [blocksOf]

/-- Byte `i` of the concatenation of blocks. -/
theorem flatMap_toList_getD (l : List Block) (i : Nat) (h : i < 16 * l.length) :
    (l.flatMap fun p => p.toList).getD i 0 = byteAt (l.getD (i / 16) (Vector.replicate 16 0)) (i % 16) := by
  induction l generalizing i with
  | nil => simp at h
  | cons b l ih =>
    simp only [List.flatMap_cons, List.getD_eq_getElem?_getD]
    by_cases hi : i < 16
    · rw [List.getElem?_append_left (by rw [toList_length]; omega)]
      have h0 : i / 16 = 0 := by omega
      have h1 : i % 16 = i := by omega
      rw [h0, h1]
      simp [byteAt, List.getD_eq_getElem?_getD]
    · rw [List.getElem?_append_right (by rw [toList_length]; omega), toList_length]
      have h0 : i / 16 = (i - 16) / 16 + 1 := by omega
      have h1 : i % 16 = (i - 16) % 16 := by omega
      rw [h0, h1, ← List.getD_eq_getElem?_getD, ih (i - 16) (by simp at h; omega)]
      simp

/-- Cutting a sequence at a block boundary cuts its list of blocks. -/
theorem blocksOf_add (s : List Byte) (a b : Nat) :
    blocksOf s (a + b) = blocksOf (s.take (16 * a)) a ++ blocksOf (s.drop (16 * a)) b := by
  unfold blocksOf
  rw [List.range_add, List.map_append, List.map_map]
  congr 1
  · apply List.map_congr_left
    intro j hj
    simp at hj
    apply bytes_ext
    intro i hi
    simp only [byteAt_blockAt, if_pos hi, List.getD_eq_getElem?_getD]
    rw [List.getElem?_take, if_pos (by omega)]
  · apply List.map_congr_left
    intro j hj
    apply bytes_ext
    intro i hi
    simp only [Function.comp, byteAt_blockAt, if_pos hi, List.getD_eq_getElem?_getD, List.getElem?_drop]
    congr 2; omega

/-- A ciphertext that is no whole number of blocks fails (R185). -/
theorem decryptStream_ragged (st : List Byte) (nr : Nat) (rk : List Byte) (h : (st.length - 20) % 16 ≠ 0) :
    decryptStream st nr rk = .error .invalidStreamLength := if_pos h

/-- A declared length above the ciphertext's fails (R185). -/
theorem decryptStream_short (st : List Byte) (nr : Nat) (rk : List Byte) (h : (st.length - 20) % 16 = 0)
    (hd : st.length - 20 < (le32 (st.getD 16 0) (st.getD 17 0) (st.getD 18 0) (st.getD 19 0)).toNat) :
    decryptStream st nr rk = .error .declaredLengthExceedsCiphertext :=
  (if_neg (by simpa [Config.headerBytes] using h)).trans (if_pos hd)

/-- Otherwise the plaintext is the blocks' bytes cut to the declared length (R185). -/
theorem decryptStream_ok (st : List Byte) (nr : Nat) (rk : List Byte) (h : (st.length - 20) % 16 = 0)
    (hd : (le32 (st.getD 16 0) (st.getD 17 0) (st.getD 18 0) (st.getD 19 0)).toNat ≤ st.length - 20) :
    decryptStream st nr rk = .ok
      (((cbcBlocks nr rk (blockAt st 0) (blocksOf (st.drop 20) ((st.length - 20) / 16))).flatMap fun p => p.toList).take
        (le32 (st.getD 16 0) (st.getD 17 0) (st.getD 18 0) (st.getD 19 0)).toNat) :=
  (if_neg (by simpa [Config.headerBytes] using h)).trans (if_neg (by simpa [Config.headerBytes] using hd))

/-- When the function succeeds, and with what (R185). -/
theorem decryptStream_eq_ok (st : List Byte) (nr : Nat) (rk p : List Byte) :
    decryptStream st nr rk = .ok p ↔
      (st.length - 20) % 16 = 0
      ∧ (le32 (st.getD 16 0) (st.getD 17 0) (st.getD 18 0) (st.getD 19 0)).toNat ≤ st.length - 20
      ∧ ((cbcBlocks nr rk (blockAt st 0) (blocksOf (st.drop 20) ((st.length - 20) / 16))).flatMap fun p => p.toList).take
          (le32 (st.getD 16 0) (st.getD 17 0) (st.getD 18 0) (st.getD 19 0)).toNat = p := by
  by_cases h : (st.length - 20) % 16 = 0
  · by_cases hd : (le32 (st.getD 16 0) (st.getD 17 0) (st.getD 18 0) (st.getD 19 0)).toNat ≤ st.length - 20
    · rw [decryptStream_ok st nr rk h hd]
      simp only [Except.ok.injEq]
      exact ⟨fun e => ⟨h, hd, e⟩, fun e => e.2.2⟩
    · rw [decryptStream_short st nr rk h (by omega)]
      constructor
      · intro e; cases e
      · intro e; exact absurd e.2.1 hd
  · rw [decryptStream_ragged st nr rk h]
    constructor
    · intro e; cases e
    · intro e; exact absurd e.1 h

end Sys2Proof.Machine
end

