-- ==== Sys2Proof/Laws/Decode.lean ====
section
/-! SUPPORT. Laws of the decoder: the fields of a word determine it, and everything decoding can accept. -/

namespace Sys2Proof

/-- The parts of a word put together again. -/
theorem wordOf_fieldsOf (w : Word) : wordOf (fieldsOf w) = w := by
  apply BitVec.eq_of_getLsbD_eq
  intro i hi
  simp only [wordOf, fieldsOf, BitVec.getLsbD_or, BitVec.getLsbD_setWidth, BitVec.getLsbD_shiftLeft,
    BitVec.getLsbD_extractLsb', BitVec.getLsbD_ofBool]
  rcases Nat.lt_trichotomy i 8 with h | h | h
  · simp [h, hi, show i < 9 by omega]
  · subst h; simp
  · simp [hi, show ¬ i < 8 by omega, show ¬ i < 9 by omega, show i - 9 < 23 by omega, show i - 9 < 32 by omega, show 9 + (i - 9) = i by omega,
      show ¬ i - 8 = 0 by omega]

/-- Everything decoding can accept: a word whose fields are those of the command it answers. -/
theorem fieldsOf_of_decode (w : Word) (i : Instr) (h : decode w = .ok i) : fieldsOf w = i.fields := by
  simp only [decode] at h
  split at h
  · cases h
  · split at h
    · cases h
    · next hr hx =>
      rcases hf : fieldsOf w with ⟨op, x, rsv⟩
      rw [hf] at h hr hx
      have hrsv : rsv = 0 := by simpa [CmdFields.rsvLegal] using hr
      subst hrsv
      have hx' : op ≠ 4 → x = false := by
        intro hne
        cases x
        · rfl
        · exact absurd (by simpa [CmdFields.xLegal] using hx) hne
      split at h
      · next j hj =>
        injection h with h
        subst h
        unfold instrOf at hj
        split at hj <;> simp only [Option.some.injEq, reduceCtorEq] at hj
        all_goals
          next hn =>
            have hop : op = BitVec.ofNat 8 op.toNat := by simp
            simp only at hn
            rw [hn] at hop
            subst hop
            subst hj
            first
              | (have hx0 := hx' (by decide); subst hx0; rfl)
              | rfl
      · cases h

end Sys2Proof
end

