-- ==== Sys2Proof/Laws/Extract.lean ====
section
/-! SUPPORT. Laws of key-material extraction: what a base64 group and a carrier can decode to, how the token scan runs, what
the bits of a list of tokens are, and the bits of the assembled number. -/

namespace Sys2Proof.Machine

/-- A property of all bytes, checked on the 256 values. -/
theorem forall_byte {p : Byte → Prop} (h : ∀ n < 256, p (BitVec.ofNat 8 n)) (a : Byte) : p a := by
  have := h a.toNat a.isLt
  simpa using this

/-- Everything a group can decode to: its characters, and how many bytes (R132). -/
theorem decodeGroup_cases (isLast : Bool) (q0 q1 q2 q3 : Byte) (d : List Byte)
    (h : decodeGroup isLast q0 q1 q2 q3 = some d) :
    (∃ v0, base64Value q0 = some v0) ∧ (∃ v1, base64Value q1 = some v1)
    ∧ ((∃ v2, base64Value q2 = some v2) ∨ q2 = padChar ∧ q3 = padChar)
    ∧ ((∃ v3, base64Value q3 = some v3) ∨ q3 = padChar)
    ∧ 1 ≤ d.length ∧ d.length ≤ 3 ∧ (isLast = false → d.length = 3) := by
  unfold decodeGroup at h
  split at h
  · next v0 v1 v2 v3 h0 h1 h2 h3 =>
    simp only [Option.some.injEq] at h; subst h
    exact ⟨⟨_, h0⟩, ⟨_, h1⟩, .inl ⟨_, h2⟩, .inl ⟨_, h3⟩, by simp, by simp, by simp⟩
  · next v0 v1 v2 h0 h1 h2 h3 =>
    simp only at h
    split at h
    · next hc =>
      simp only [Option.some.injEq] at h; subst h
      simp at hc
      exact ⟨⟨_, h0⟩, ⟨_, h1⟩, .inl ⟨_, h2⟩, .inr hc.2, by simp, by simp, by simp [hc.1]⟩
    · cases h
  · next v0 v1 h0 h1 h2 h3 =>
    simp only at h
    split at h
    · next hc =>
      simp only [Option.some.injEq] at h; subst h
      simp at hc
      exact ⟨⟨_, h0⟩, ⟨_, h1⟩, .inr ⟨hc.1.2, hc.2⟩, .inr hc.2, by simp, by simp, by simp [hc.1.1]⟩
    · cases h
  · cases h

/-- The scan carries a run of non-digits along (R133). -/
theorem tokensFrom_append (run acc d : List Byte) (h : ∀ x ∈ run, isDigit x = false) :
    tokensFrom acc (run ++ d) = tokensFrom (acc ++ run) d := by
  induction run generalizing acc with
  | nil => simp
  | cons x run ih =>
    have hx := h x List.mem_cons_self
    simp only [List.cons_append, tokensFrom, hx]
    have := ih (acc ++ [x]) (fun y hy => h y (List.mem_cons_of_mem _ hy))
    simpa using this

/-- One token out of range makes the bits fail (R135). -/
theorem tokenBits_of_none (l : List (List Byte)) (h : ∃ t ∈ l, tokenBit t = none) : tokenBits l = none := by
  induction l with
  | nil => simp at h
  | cons x l ih =>
    simp only [tokenBits]
    split
    · rfl
    · next b hb =>
      obtain ⟨t, ht, hn⟩ := h
      rcases List.mem_cons.1 ht with rfl | ht
      · rw [hb] at hn; cases hn
      · rw [ih ⟨t, ht, hn⟩]; rfl

/-- With every token in range there is one bit a token, in order (R135). -/
theorem tokenBits_of_some (l : List (List Byte)) (h : ∀ t ∈ l, tokenBit t ≠ none) :
    ∃ b, tokenBits l = some b ∧ b.length = l.length
      ∧ ∀ j < l.length, some (b.getD j false) = tokenBit (l.getD j []) := by
  induction l with
  | nil => exact ⟨[], rfl, rfl, by simp⟩
  | cons x l ih =>
    obtain ⟨b, h1, h2, h3⟩ := ih fun t ht => h t (List.mem_cons_of_mem _ ht)
    have hx := h x List.mem_cons_self
    cases hb : tokenBit x with
    | none => exact absurd hb hx
    | some v =>
      refine ⟨v :: b, by simp [tokenBits, hb, h1], by simp [h2], ?_⟩
      intro j hj
      cases j with
      | zero => simp [hb]
      | succ j => simpa using h3 j (by simpa using hj)

/-- Bit `m` of the value of a reversed bit string is its element `m` (R136 steps 6 and 7). -/
theorem testBit_bitsValue_reverse (l : List Bool) (m : Nat) : (bitsValue l.reverse).testBit m = l.getD m false := by
  induction l generalizing m with
  | nil => simp [bitsValue]
  | cons x l ih =>
    have e : bitsValue (x :: l).reverse = 2 * bitsValue l.reverse + x.toNat := by
      simp [bitsValue, List.foldl_append]
    rw [e]
    cases m with
    | zero => cases x <;> simp [Nat.testBit_zero, Nat.add_mod]
    | succ m =>
      rw [Nat.testBit_succ]
      have : (2 * bitsValue l.reverse + x.toNat) / 2 = bitsValue l.reverse := by cases x <;> (simp; try omega)
      rw [this, ih]; simp

/-- The rotation by 64 of 128 bits (R136 step 5). -/
theorem rotate64_getD (b : List Bool) (h : b.length = 128) (m : Nat) (hm : m < 128) :
    (rotate64 b).getD m false = b.getD ((m + 64) % 128) false := by
  unfold rotate64
  simp only [List.getD_eq_getElem?_getD]
  by_cases h1 : m < 64
  · rw [List.getElem?_append_left (by simp; omega), List.getElem?_drop]
    congr 2; omega
  · rw [List.getElem?_append_right (by simp; omega), List.getElem?_take]
    simp [h]
    rw [if_pos (by omega)]
    congr 2; omega

end Sys2Proof.Machine
end

