-- ==== Sys2Proof/Laws/Field.lean ====
section
/-! SUPPORT. Laws of the field of 256 elements: doubling and multiplication distribute over XOR. -/

namespace Sys2Proof.Machine

theorem xor_swap_middle (a b c d : Byte) : (a ^^^ b) ^^^ (c ^^^ d) = (a ^^^ c) ^^^ (b ^^^ d) := by ac_rfl

theorem xtime_xor (a b : Byte) : xtime (a ^^^ b) = xtime a ^^^ xtime b := by
  unfold xtime
  rw [BitVec.shiftLeft_xor_distrib, xor_swap_middle]
  congr 1
  rw [BitVec.getLsbD_xor]
  cases a.getLsbD 7 <;> cases b.getLsbD 7 <;> simp

theorem xtimes_xor (n : Nat) (a b : Byte) : xtimes n (a ^^^ b) = xtimes n a ^^^ xtimes n b := by
  induction n with
  | zero => rfl
  | succ n ih => simp [xtimes, ih, xtime_xor]

theorem gmul_fold_xor (a b k : Byte) (l : List Nat) (x y : Byte) :
    l.foldl (fun acc i => if k.getLsbD i then acc ^^^ xtimes i (a ^^^ b) else acc) (x ^^^ y)
      = l.foldl (fun acc i => if k.getLsbD i then acc ^^^ xtimes i a else acc) x
        ^^^ l.foldl (fun acc i => if k.getLsbD i then acc ^^^ xtimes i b else acc) y := by
  induction l generalizing x y with
  | nil => rfl
  | cons i l ih =>
    simp only [List.foldl_cons]
    split
    · rw [xtimes_xor, xor_swap_middle]; exact ih _ _
    · exact ih _ _

/-- Multiplication by a fixed element is additive (00_scope.md R11). -/
theorem gmul_xor (a b k : Byte) : gmul (a ^^^ b) k = gmul a k ^^^ gmul b k := by
  have := gmul_fold_xor a b k (List.range 8) 0 0
  simpa [gmul] using this

end Sys2Proof.Machine
end

