-- ==== Sys2Proof/Laws/Memory.lean ====
section
/-! SUPPORT. Laws of buffers: a read after a write to the same index gives the value written, a write leaves every other
index alone, and every operation keeps the canonical form and the buffer's extent. -/

namespace Sys2Proof.Machine

/-- Reading one index after a write. -/
@[simp] theorem Memory.get_set (m : Memory) (a : Nat) (v : Byte) (b : Nat) :
    Memory.get (Memory.set m a v) b = if b = a then some v else Memory.get m b := by
  induction m with
  | nil =>
    by_cases h : b = a
    · simp [Memory.set, Memory.get, h]
    · simp [Memory.set, Memory.get, h, Ne.symm h]
  | cons c rest ih =>
    simp only [Memory.set]
    split
    · by_cases h : b = a
      · subst h; simp [Memory.get]
      · simp [Memory.get, h, Ne.symm h]
    · split
      · next h1 h2 =>
        by_cases h : b = a
        · subst h; simp [Memory.get]
        · have : ¬ c.1 = b := by omega
          simp [Memory.get, h, Ne.symm h, this]
      · next h1 h2 =>
        simp only [Memory.get, ih]
        by_cases hcb : c.1 = b
        · have : ¬ b = a := by omega
          simp [hcb, this]
        · simp [hcb]

/-- Reading one index after a write of a sequence. -/
theorem Memory.get_setBytes (m : Memory) (a : Nat) (s : List Byte) (b : Nat) :
    Memory.get (Memory.setBytes m a s) b = if a ≤ b ∧ b < a + s.length then s[b - a]? else Memory.get m b := by
  induction s generalizing m a with
  | nil => simp [Memory.setBytes]
  | cons x rest ih =>
    simp only [Memory.setBytes, ih, Memory.get_set, List.length_cons]
    by_cases h1 : b = a
    · subst h1; simp
    · by_cases h2 : a + 1 ≤ b ∧ b < a + 1 + rest.length
      · have h3 : a ≤ b ∧ b < a + (rest.length + 1) := by omega
        have h4 : b - a = (b - (a + 1)) + 1 := by omega
        rw [if_pos h2, if_pos h3, h4, List.getElem?_cons_succ]
      · have h3 : ¬ (a ≤ b ∧ b < a + (rest.length + 1)) := by omega
        rw [if_neg h2, if_neg h3, if_neg h1]

/-- The canonical form, entry by entry: a head below every later index. -/
theorem Memory.wf_cons (c : Host.Cell) (m : Memory) :
    Memory.wf (c :: m) = true ↔ Memory.wf m = true ∧ ∀ d ∈ m, c.1 < d.1 := by
  induction m generalizing c with
  | nil => simp [Memory.wf]
  | cons d rest ih =>
    simp only [Memory.wf, Bool.and_eq_true, decide_eq_true_eq, List.mem_cons, forall_eq_or_imp]
    constructor
    · rintro ⟨h1, h2⟩
      exact ⟨h2, h1, fun e he => Nat.lt_trans h1 (((ih d).1 h2).2 e he)⟩
    · rintro ⟨h1, h2, _⟩
      exact ⟨h2, h1⟩

/-- The indices listed after a write: the old ones and the one written. -/
theorem Memory.mem_set (m : Memory) (a : Nat) (v : Byte) (d : Host.Cell) (h : d ∈ Memory.set m a v) :
    d = (a, v) ∨ d ∈ m := by
  induction m with
  | nil => simpa [Memory.set] using h
  | cons c rest ih =>
    simp only [Memory.set] at h
    split at h
    · simpa using h
    · split at h
      · rcases List.mem_cons.1 h with h | h
        · exact .inl h
        · exact .inr (List.mem_cons_of_mem _ h)
      · rcases List.mem_cons.1 h with h | h
        · exact .inr (by simp [h])
        · rcases ih h with h | h
          · exact .inl h
          · exact .inr (List.mem_cons_of_mem _ h)

/-- A write keeps the canonical form. -/
theorem Memory.wf_set (m : Memory) (a : Nat) (v : Byte) (h : Memory.wf m = true) : Memory.wf (Memory.set m a v) = true := by
  induction m with
  | nil => rfl
  | cons c rest ih =>
    have hc := (Memory.wf_cons c rest).1 h
    simp only [Memory.set]
    split
    · next h1 =>
      refine (Memory.wf_cons _ _).2 ⟨h, ?_⟩
      intro d hd
      rcases List.mem_cons.1 hd with rfl | hd
      · exact h1
      · exact Nat.lt_trans h1 (hc.2 d hd)
    · split
      · next h2 => exact (Memory.wf_cons _ _).2 ⟨hc.1, fun d hd => h2 ▸ hc.2 d hd⟩
      · refine (Memory.wf_cons _ _).2 ⟨ih hc.1, ?_⟩
        intro d hd
        rcases Memory.mem_set rest a v d hd with rfl | hd
        · simp only; omega
        · exact hc.2 d hd

/-- A write of a sequence keeps the canonical form. -/
theorem Memory.wf_setBytes (m : Memory) (a : Nat) (s : List Byte) (h : Memory.wf m = true) :
    Memory.wf (Memory.setBytes m a s) = true := by
  induction s generalizing m a with
  | nil => exact h
  | cons x rest ih => exact ih _ _ (Memory.wf_set m a x h)

/-- A write inside the buffer's extent keeps it. -/
theorem Memory.within_set (m : Memory) (n a : Nat) (v : Byte) (ha : a < n) (h : Memory.within m n = true) :
    Memory.within (Memory.set m a v) n = true := by
  simp only [Memory.within, List.all_eq_true, decide_eq_true_eq] at *
  intro d hd
  rcases Memory.mem_set m a v d hd with rfl | hd
  · exact ha
  · exact h d hd

/-- A write of a sequence inside the buffer's extent keeps it. -/
theorem Memory.within_setBytes (m : Memory) (n a : Nat) (s : List Byte) (ha : a + s.length ≤ n)
    (h : Memory.within m n = true) : Memory.within (Memory.setBytes m a s) n = true := by
  induction s generalizing m a with
  | nil => exact h
  | cons x rest ih =>
    simp only [List.length_cons] at ha
    exact ih _ _ (by omega) (Memory.within_set m n a x (by omega) h)

/-- A buffer in which nothing past `n` is listed has no value there. -/
theorem Memory.get_past (m : Memory) (n a : Nat) (h : Memory.within m n = true) (ha : n ≤ a) : Memory.get m a = none := by
  simp only [Memory.within, List.all_eq_true, decide_eq_true_eq] at h
  induction m with
  | nil => rfl
  | cons c rest ih =>
    have hc := h c (by simp)
    have : ¬ c.1 = a := by omega
    simpa [Memory.get, this] using ih fun d hd => h d (List.mem_cons_of_mem _ hd)

/-- Canonical buffers that hold the same bytes are the same list. -/
theorem Memory.ext_of_wf (m m' : Memory) (h : Memory.wf m = true) (h' : Memory.wf m' = true)
    (hg : ∀ a, Memory.get m a = Memory.get m' a) : m = m' := by
  have none_of_lt : ∀ (l : Memory) (x : Nat), (∀ d ∈ l, x < d.1) → Memory.get l x = none := by
    intro l x hl
    induction l with
    | nil => rfl
    | cons c rest ih =>
      have : ¬ c.1 = x := by have := hl c (by simp); omega
      simpa [Memory.get, this] using ih fun d hd => hl d (List.mem_cons_of_mem _ hd)
  induction m generalizing m' with
  | nil =>
    cases m' with
    | nil => rfl
    | cons c rest => have := hg c.1; simp [Memory.get] at this
  | cons c rest ih =>
    cases m' with
    | nil => have := hg c.1; simp [Memory.get] at this
    | cons d rest' =>
      obtain ⟨hw, hlt⟩ := (Memory.wf_cons c rest).1 h
      obtain ⟨hw', hlt'⟩ := (Memory.wf_cons d rest').1 h'
      have hcd : c.1 = d.1 := by
        rcases Nat.lt_trichotomy c.1 d.1 with hl | he | hl
        · have := hg c.1
          have hn : Memory.get rest' c.1 = none := none_of_lt _ _ fun e he => Nat.lt_trans hl (hlt' e he)
          have : ¬ d.1 = c.1 := by omega
          simp_all [Memory.get]
        · exact he
        · have := hg d.1
          have hn : Memory.get rest d.1 = none := none_of_lt _ _ fun e he => Nat.lt_trans hl (hlt e he)
          have : ¬ c.1 = d.1 := by omega
          simp_all [Memory.get]
      have hv : c.2 = d.2 := by have := hg c.1; simpa [Memory.get, hcd] using this
      have hrest : rest = rest' := by
        apply ih rest' hw hw'
        intro a
        have := hg a
        by_cases ha : c.1 = a
        · rw [none_of_lt rest a (ha ▸ hlt), none_of_lt rest' a (ha ▸ hcd ▸ hlt')]
        · have hd : ¬ d.1 = a := hcd ▸ ha
          simpa [Memory.get, ha, hd] using this
      rw [hrest, show c = d from Prod.ext hcd hv]

end Sys2Proof.Machine
end

