-- ==== Sys2Proof/Laws/State.lean ====
section
/-! SUPPORT. Laws of the shared updates of the state, one per field and update, true by `rfl` or by the cases of a flag, and what
the shared operations of error handling can answer. -/

namespace Sys2Proof.Machine

/-! ### Error entry (60_exceptions.md R231) -/

@[simp] theorem raise_mode (e : ErrCode) (s : State) : (raise e s).mode = .error := rfl
@[simp] theorem raise_errcode (e : ErrCode) (s : State) : (raise e s).errcode = some e := rfl
@[simp] theorem raise_olen (e : ErrCode) (s : State) : (raise e s).olen = 0 := rfl
@[simp] theorem raise_last (e : ErrCode) (s : State) : (raise e s).last = false := rfl
@[simp] theorem raise_sv (e : ErrCode) (s : State) : (raise e s).sv = s.sv := rfl
@[simp] theorem raise_nr (e : ErrCode) (s : State) : (raise e s).nr = s.nr := rfl
@[simp] theorem raise_dlen (e : ErrCode) (s : State) : (raise e s).dlen = s.dlen := rfl
@[simp] theorem raise_slen (e : ErrCode) (s : State) : (raise e s).slen = s.slen := rfl
@[simp] theorem raise_klen (e : ErrCode) (s : State) : (raise e s).klen = s.klen := rfl
@[simp] theorem raise_declen (e : ErrCode) (s : State) : (raise e s).declen = s.declen := rfl
@[simp] theorem raise_remct (e : ErrCode) (s : State) : (raise e s).remct = s.remct := rfl
@[simp] theorem raise_rempt (e : ErrCode) (s : State) : (raise e s).rempt = s.rempt := rfl
@[simp] theorem raise_key (e : ErrCode) (s : State) : (raise e s).key = s.key := rfl
@[simp] theorem raise_chain (e : ErrCode) (s : State) : (raise e s).chain = s.chain := rfl
@[simp] theorem raise_rks (e : ErrCode) (s : State) : (raise e s).rks = s.rks := rfl
@[simp] theorem raise_obuf (e : ErrCode) (s : State) : (raise e s).obuf = s.obuf := rfl
@[simp] theorem raise_dbuf (e : ErrCode) (s : State) : (raise e s).dbuf = s.dbuf := rfl
@[simp] theorem raise_draw (e : ErrCode) (s : State) : (raise e s).draw = s.draw := rfl
@[simp] theorem raise_port (e : ErrCode) (s : State) : (raise e s).port = s.port := rfl
@[simp] theorem raise_rdata (e : ErrCode) (s : State) : (raise e s).rdata = s.rdata := rfl

/-! ### The return to IDLE (44_control.md R214) -/

@[simp] theorem clearCall_mode (s : State) : (clearCall s).mode = .idle := rfl
@[simp] theorem clearCall_errcode (s : State) : (clearCall s).errcode = none := rfl
@[simp] theorem clearCall_olen (s : State) : (clearCall s).olen = 0 := rfl
@[simp] theorem clearCall_last (s : State) : (clearCall s).last = false := rfl
@[simp] theorem clearCall_declen (s : State) : (clearCall s).declen = 0 := rfl
@[simp] theorem clearCall_remct (s : State) : (clearCall s).remct = 0 := rfl
@[simp] theorem clearCall_rempt (s : State) : (clearCall s).rempt = 0 := rfl
@[simp] theorem clearCall_chain (s : State) : (clearCall s).chain = Vector.replicate 16 0 := rfl
@[simp] theorem clearCall_sv (s : State) : (clearCall s).sv = s.sv := rfl
@[simp] theorem clearCall_nr (s : State) : (clearCall s).nr = s.nr := rfl
@[simp] theorem clearCall_dlen (s : State) : (clearCall s).dlen = s.dlen := rfl
@[simp] theorem clearCall_slen (s : State) : (clearCall s).slen = s.slen := rfl
@[simp] theorem clearCall_klen (s : State) : (clearCall s).klen = s.klen := rfl
@[simp] theorem clearCall_key (s : State) : (clearCall s).key = s.key := rfl
@[simp] theorem clearCall_rks (s : State) : (clearCall s).rks = s.rks := rfl
@[simp] theorem clearCall_obuf (s : State) : (clearCall s).obuf = s.obuf := rfl
@[simp] theorem clearCall_dbuf (s : State) : (clearCall s).dbuf = s.dbuf := rfl
@[simp] theorem clearCall_draw (s : State) : (clearCall s).draw = s.draw := rfl
@[simp] theorem clearCall_port (s : State) : (clearCall s).port = s.port := rfl
@[simp] theorem clearCall_rdata (s : State) : (clearCall s).rdata = s.rdata := rfl

/-! ### The flags of the stream commands (43_stream.md R190, R193) -/

/-- What the flags are after a stream command, as one update. -/
theorem streamFlags_eq (n : Word) (s : State) :
    streamFlags n s = { s with mode := if n = 0 then .idle else .stream, last := decide (n = 0) } := by
  unfold streamFlags
  split <;> simp_all

@[simp] theorem streamFlags_errcode (n : Word) (s : State) : (streamFlags n s).errcode = s.errcode := by
  rw [streamFlags_eq]
@[simp] theorem streamFlags_sv (n : Word) (s : State) : (streamFlags n s).sv = s.sv := by rw [streamFlags_eq]
@[simp] theorem streamFlags_nr (n : Word) (s : State) : (streamFlags n s).nr = s.nr := by rw [streamFlags_eq]
@[simp] theorem streamFlags_dlen (n : Word) (s : State) : (streamFlags n s).dlen = s.dlen := by rw [streamFlags_eq]
@[simp] theorem streamFlags_slen (n : Word) (s : State) : (streamFlags n s).slen = s.slen := by rw [streamFlags_eq]
@[simp] theorem streamFlags_klen (n : Word) (s : State) : (streamFlags n s).klen = s.klen := by rw [streamFlags_eq]
@[simp] theorem streamFlags_olen (n : Word) (s : State) : (streamFlags n s).olen = s.olen := by rw [streamFlags_eq]
@[simp] theorem streamFlags_declen (n : Word) (s : State) : (streamFlags n s).declen = s.declen := by
  rw [streamFlags_eq]
@[simp] theorem streamFlags_remct (n : Word) (s : State) : (streamFlags n s).remct = s.remct := by rw [streamFlags_eq]
@[simp] theorem streamFlags_rempt (n : Word) (s : State) : (streamFlags n s).rempt = s.rempt := by rw [streamFlags_eq]
@[simp] theorem streamFlags_key (n : Word) (s : State) : (streamFlags n s).key = s.key := by rw [streamFlags_eq]
@[simp] theorem streamFlags_chain (n : Word) (s : State) : (streamFlags n s).chain = s.chain := by rw [streamFlags_eq]
@[simp] theorem streamFlags_rks (n : Word) (s : State) : (streamFlags n s).rks = s.rks := by rw [streamFlags_eq]
@[simp] theorem streamFlags_obuf (n : Word) (s : State) : (streamFlags n s).obuf = s.obuf := by rw [streamFlags_eq]
@[simp] theorem streamFlags_dbuf (n : Word) (s : State) : (streamFlags n s).dbuf = s.dbuf := by rw [streamFlags_eq]
@[simp] theorem streamFlags_draw (n : Word) (s : State) : (streamFlags n s).draw = s.draw := by rw [streamFlags_eq]
@[simp] theorem streamFlags_port (n : Word) (s : State) : (streamFlags n s).port = s.port := by rw [streamFlags_eq]
@[simp] theorem streamFlags_rdata (n : Word) (s : State) : (streamFlags n s).rdata = s.rdata := by rw [streamFlags_eq]
@[simp] theorem streamFlags_mode (n : Word) (s : State) :
    (streamFlags n s).mode = if n = 0 then .idle else .stream := by rw [streamFlags_eq]
@[simp] theorem streamFlags_last (n : Word) (s : State) : (streamFlags n s).last = decide (n = 0) := by
  rw [streamFlags_eq]

/-! ### The acceptance check (30_encoding.md R111) -/

/-- Everything the acceptance check can answer. -/
theorem accepted_eq_next {m : Mode} {rule : State → State} {s t : State} (h : accepted m rule s = .next t) :
    (s.mode = .error ∧ t = s) ∨ (s.mode ≠ .error ∧ s.mode = m ∧ t = rule s)
      ∨ (s.mode ≠ .error ∧ s.mode ≠ m ∧ t = raise .sequence s) := by
  unfold accepted at h
  split at h
  · next he => exact .inl ⟨he, by simpa using h.symm⟩
  · next he =>
    split at h
    · next hm => exact .inr (.inl ⟨he, hm, by simpa using h.symm⟩)
    · next hm => exact .inr (.inr ⟨he, hm, by simpa using h.symm⟩)

theorem accepted_in_error (m : Mode) (rule : State → State) (s : State) (h : s.mode = .error) :
    accepted m rule s = .next s := by simp [accepted, h]

theorem accepted_in (m : Mode) (rule : State → State) (s : State) (hm : m ≠ .error) (h : s.mode = m) :
    accepted m rule s = .next (rule s) := by simp [accepted, h, hm]

theorem accepted_elsewhere (m : Mode) (rule : State → State) (s : State) (he : s.mode ≠ .error) (h : s.mode ≠ m) :
    accepted m rule s = .next (raise .sequence s) := by simp [accepted, h, he]

/-! ### Reading the buffers -/

/-- `OBUF` after its memory is replaced. -/
theorem obufByte_with_obuf (s : State) (m : Memory) (i : Nat) :
    State.obufByte { s with obuf := m } i = (Memory.get m i).getD (Config.obufAtReset s.draw i) := rfl

/-- `DBUF` after its memory is replaced. -/
theorem dbufByte_with_dbuf (s : State) (m : Memory) (i : Nat) :
    State.dbufByte { s with dbuf := m } i = (Memory.get m i).getD (Config.dbufAtReset s.draw i) := rfl

/-- Two states with the same `DBUF` and the same draw read the same bytes. -/
theorem dbufByte_congr (s t : State) (hm : t.dbuf = s.dbuf) (hd : t.draw = s.draw) (i : Nat) :
    t.dbufByte i = s.dbufByte i := by simp [State.dbufByte, hm, hd]

/-- Two states with the same `OBUF` and the same draw read the same bytes. -/
theorem obufByte_congr (s t : State) (hm : t.obuf = s.obuf) (hd : t.draw = s.draw) (i : Nat) :
    t.obufByte i = s.obufByte i := by simp [State.obufByte, hm, hd]

@[simp] theorem byteAt_dbufBlock (s : State) (j i : Nat) :
    byteAt (s.dbufBlock j) i = if i < 16 then s.dbufByte (16 * j + i) else 0 := by simp [State.dbufBlock]

end Sys2Proof.Machine
end

