-- ==== Sys2Proof/Laws/Port.lean ====
section
/-! SUPPORT. Laws of the port: the address of an offset, what each range of offsets names, and what an event can do. -/

namespace Sys2Proof.Machine

theorem dbufBytes_ge : 1024 ≤ Config.dbufBytes := by unfold Config.dbufBytes; omega
theorem dbufBytes_le : Config.dbufBytes ≤ 2 ^ 20 := by unfold Config.dbufBytes; omega
theorem dbufBytes_mod_four : Config.dbufBytes % 4 = 0 := by unfold Config.dbufBytes; omega

/-- An offset that is a multiple of 4 below `2^32` is the offset of its address. -/
theorem offsetOf_addrOf (off : Nat) (h4 : off % 4 = 0) (h : off < 2 ^ 32) : offsetOf (addrOf off) = off := by
  simp only [offsetOf, addrOf, BitVec.toNat_ofNat]
  omega

/-- Every offset of an address is a multiple of 4 below `2^32`. -/
theorem offsetOf_mod_four (a : BitVec 30) : offsetOf a % 4 = 0 := by simp [offsetOf]

theorem offsetOf_inj (a b : BitVec 30) (h : offsetOf a = offsetOf b) : a = b := by
  apply BitVec.eq_of_toNat_eq
  simp only [offsetOf] at h
  omega

theorem targetOf_key (k : Nat) (h : k < 8) : targetOf (0x040 + 4 * k) = .key k := by
  unfold targetOf
  repeat rw [if_neg (by omega)]
  rw [if_pos (by omega)]
  congr 1; omega

theorem targetOf_chain (k : Nat) (h : k < 4) : targetOf (0x060 + 4 * k) = .chain k := by
  unfold targetOf
  repeat rw [if_neg (by omega)]
  rw [if_pos (by omega)]
  congr 1; omega

theorem targetOf_rks (k : Nat) (h : k < 60) : targetOf (0x100 + 4 * k) = .rks k := by
  unfold targetOf
  repeat rw [if_neg (by omega)]
  rw [if_pos (by omega)]
  congr 1; omega

theorem targetOf_obuf (k : Nat) (h : k < 256) : targetOf (0x400 + 4 * k) = .obuf k := by
  unfold targetOf
  repeat rw [if_neg (by omega)]
  rw [if_pos (by omega)]
  congr 1; omega

theorem targetOf_dbuf (k : Nat) (h : 4 * k < Config.dbufBytes) : targetOf (0x1000 + 4 * k) = .dbuf k := by
  unfold targetOf
  repeat rw [if_neg (by omega)]
  rw [if_pos (by omega)]
  congr 1; omega

/-- The offsets that name nothing (10_state.md R47). -/
theorem targetOf_unmapped (off : Nat) (h4 : off % 4 = 0)
    (h : (0x02c ≤ off ∧ off < 0x040) ∨ (0x070 ≤ off ∧ off < 0x100) ∨ (0x1f0 ≤ off ∧ off < 0x400)
      ∨ (0x800 ≤ off ∧ off < 0x1000) ∨ 0x1000 + Config.dbufBytes ≤ off) : targetOf off = .unmapped := by
  have hd := dbufBytes_ge
  unfold targetOf
  repeat rw [if_neg (by omega)]

/-- Every offset falls under one row of the register map; what its row names says where it lies. -/
theorem targetOf_cases (off : Nat) (h4 : off % 4 = 0) :
    (off = 0x000 ∧ targetOf off = .cmd) ∨ (off = 0x004 ∧ targetOf off = .status)
    ∨ (off = 0x008 ∧ targetOf off = .dlen) ∨ (off = 0x00c ∧ targetOf off = .slen)
    ∨ (off = 0x010 ∧ targetOf off = .klen) ∨ (off = 0x014 ∧ targetOf off = .olen)
    ∨ (off = 0x018 ∧ targetOf off = .declen) ∨ (off = 0x01c ∧ targetOf off = .remct)
    ∨ (off = 0x020 ∧ targetOf off = .rempt) ∨ (off = 0x024 ∧ targetOf off = .id)
    ∨ (off = 0x028 ∧ targetOf off = .cap)
    ∨ (∃ k < 8, off = 0x040 + 4 * k ∧ targetOf off = .key k)
    ∨ (∃ k < 4, off = 0x060 + 4 * k ∧ targetOf off = .chain k)
    ∨ (∃ k < 60, off = 0x100 + 4 * k ∧ targetOf off = .rks k)
    ∨ (∃ k < 256, off = 0x400 + 4 * k ∧ targetOf off = .obuf k)
    ∨ (∃ k, 4 * k < Config.dbufBytes ∧ off = 0x1000 + 4 * k ∧ targetOf off = .dbuf k)
    ∨ (((0x02c ≤ off ∧ off < 0x040) ∨ (0x070 ≤ off ∧ off < 0x100) ∨ (0x1f0 ≤ off ∧ off < 0x400)
      ∨ (0x800 ≤ off ∧ off < 0x1000) ∨ 0x1000 + Config.dbufBytes ≤ off) ∧ targetOf off = .unmapped) := by
  have hd := dbufBytes_ge
  by_cases h0 : off < 0x02c
  · have : off = 0 ∨ off = 4 ∨ off = 8 ∨ off = 12 ∨ off = 16 ∨ off = 20 ∨ off = 24 ∨ off = 28 ∨ off = 32 ∨ off = 36
        ∨ off = 40 := by omega
    rcases this with h | h | h | h | h | h | h | h | h | h | h <;> subst h <;> simp [targetOf]
  iterate 11 right
  by_cases h1 : 0x040 ≤ off ∧ off < 0x060
  · refine .inl ⟨(off - 0x040) / 4, by omega, by omega, ?_⟩
    rw [← targetOf_key _ (by omega)]; congr 1; omega
  by_cases h2 : 0x060 ≤ off ∧ off < 0x070
  · refine .inr (.inl ⟨(off - 0x060) / 4, by omega, by omega, ?_⟩)
    rw [← targetOf_chain _ (by omega)]; congr 1; omega
  by_cases h3 : 0x100 ≤ off ∧ off < 0x1f0
  · refine .inr (.inr (.inl ⟨(off - 0x100) / 4, by omega, by omega, ?_⟩))
    rw [← targetOf_rks _ (by omega)]; congr 1; omega
  by_cases h5 : 0x400 ≤ off ∧ off < 0x800
  · refine .inr (.inr (.inr (.inl ⟨(off - 0x400) / 4, by omega, by omega, ?_⟩)))
    rw [← targetOf_obuf _ (by omega)]; congr 1; omega
  by_cases h6 : 0x1000 ≤ off ∧ off - 0x1000 < Config.dbufBytes
  · refine .inr (.inr (.inr (.inr (.inl ⟨(off - 0x1000) / 4, by omega, by omega, ?_⟩))))
    rw [← targetOf_dbuf _ (by omega)]; congr 1; omega
  · exact .inr (.inr (.inr (.inr (.inr ⟨by omega, targetOf_unmapped off h4 (by omega)⟩))))

/-- Only address 0 names CMD. -/
theorem targetOf_eq_cmd (a : BitVec 30) : targetOf (offsetOf a) = .cmd ↔ a = cmdAddr := by
  constructor
  · intro h
    have hc := targetOf_cases (offsetOf a) (offsetOf_mod_four a)
    rw [h] at hc
    have h0 : offsetOf a = 0 := by simpa using hc
    apply offsetOf_inj
    rw [h0]; rfl
  · rintro rfl; rfl

/-- A write of a word to CMD. -/
theorem portWrite_cmd (w : Word) (s : State) : portWrite cmdAddr w s = writeCmd w s := rfl

/-- A write to any other address. -/
theorem portWrite_data (a : BitVec 30) (v : Word) (s : State) (h : a ≠ cmdAddr) :
    portWrite a v s = .next (writeTarget (targetOf (offsetOf a)) v s) := by
  have : targetOf (offsetOf a) ≠ .cmd := fun hc => h ((targetOf_eq_cmd a).1 hc)
  unfold portWrite
  split
  · next hc => exact absurd hc this
  · rfl

/-- Everything a write to CMD can do. -/
theorem writeCmd_cases (w : Word) (s : State) :
    (∃ i, decode w = .ok i ∧ writeCmd w s = exec i s) ∨ ((∀ i, decode w ≠ .ok i) ∧ writeCmd w s = illegalCommand s) := by
  unfold writeCmd
  split
  · next i hi => exact .inl ⟨i, hi, rfl⟩
  · next e he =>
    refine .inr ⟨fun i hi => ?_, rfl⟩
    rw [he] at hi
    cases hi

/-- Everything a data write can change: the register or the bytes of its own target. -/
theorem writeTarget_frame (t : Target) (v : Word) (s : State) :
    (writeTarget t v s).mode = s.mode ∧ (writeTarget t v s).sv = s.sv ∧ (writeTarget t v s).last = s.last
    ∧ (writeTarget t v s).errcode = s.errcode ∧ (writeTarget t v s).nr = s.nr ∧ (writeTarget t v s).olen = s.olen
    ∧ (writeTarget t v s).declen = s.declen ∧ (writeTarget t v s).remct = s.remct ∧ (writeTarget t v s).rempt = s.rempt
    ∧ (writeTarget t v s).chain = s.chain ∧ (writeTarget t v s).rks = s.rks ∧ (writeTarget t v s).obuf = s.obuf
    ∧ (writeTarget t v s).draw = s.draw ∧ (writeTarget t v s).port = s.port ∧ (writeTarget t v s).rdata = s.rdata := by
  cases t <;> simp [writeTarget]

end Sys2Proof.Machine
end

