-- ==== Sys2Proof/Laws/HostSequences.lean ====
section
/-! SUPPORT. Laws of the host's sequences: what one event and a run of events leave, and what LOAD puts into `DBUF`. -/

namespace Sys2Proof.Machine

@[simp] theorem play_nil (s : State) : play [] s = s := rfl

@[simp] theorem play_cons (e : Event) (es : List Event) (s : State) : play (e :: es) s = play es (present s e) := rfl

@[simp] theorem play_append (es fs : List Event) (s : State) : play (es ++ fs) s = play fs (play es s) :=
  List.foldl_append

/-- A read leaves everything but the port's read data. -/
theorem present_rd (s : State) (off : Nat) :
    present s (rd off) = { s with rdata := some (portRead (addrOf off) { s with rdata := none }) } := rfl

/-- A command line runs the command. -/
theorem present_cmdLine (s t : State) (i : Instr) (hd : decode (encode i) = .ok i)
    (h : exec i { s with rdata := none } = .next t) : present s (cmdLine i) = t := by
  have : applyEvent (cmdLine i) { s with rdata := none } = .next t := by
    rw [← h]
    show writeCmd (encode i) { s with rdata := none } = _
    rw [writeCmd, hd]
  rw [present, this]

/-- A write to `SLEN`. -/
theorem present_wr_slen (s : State) (v : Word) : present s (wr 0x00c v) = { s with slen := v, rdata := none } := rfl

/-- A write to `DLEN`. -/
theorem present_wr_dlen (s : State) (v : Word) : present s (wr 0x008 v) = { s with dlen := v, rdata := none } := rfl

/-- A write to word `k` of `DBUF`. -/
theorem present_wr_dbuf (s : State) (k : Nat) (v : Word) (h : 4 * k < Config.dbufBytes) :
    present s (wr (0x1000 + 4 * k) v) = { s with dbuf := s.dbuf.setBytes (4 * k) (lanes v), rdata := none } := by
  have hle := dbufBytes_le
  have : applyEvent (wr (0x1000 + 4 * k) v) { s with rdata := none }
      = .next { s with dbuf := s.dbuf.setBytes (4 * k) (lanes v), rdata := none } := by
    simp only [applyEvent, wr, portWrite, offsetOf_addrOf (0x1000 + 4 * k) (by omega) (by omega), targetOf_dbuf k h]
    rfl
  rw [present, this]

/-- What a write to word `k` leaves at each index of a buffer. -/
theorem get_setBytes_lanes (m : Memory) (k : Nat) (v : Word) (i : Nat) :
    Memory.get (Memory.setBytes m (4 * k) (lanes v)) i = if i / 4 = k then some (lane v (i % 4)) else Memory.get m i := by
  rw [Memory.get_setBytes]
  by_cases h : i / 4 = k
  · rw [if_pos (by simp [lanes]; omega), if_pos h]
    have : i - 4 * k = i % 4 := by omega
    rw [this]
    have : i % 4 = 0 ∨ i % 4 = 1 ∨ i % 4 = 2 ∨ i % 4 = 3 := by omega
    rcases this with h | h | h | h <;> simp [h, lanes]
  · rw [if_neg (by simp [lanes]; omega), if_neg h]

/-- The first `n` words of a LOAD: only `DBUF` and the read data change, and each byte below the words is the sequence's. -/
theorem play_load_words (l : List Byte) (n : Nat) (s : State) (h : 4 * n ≤ Config.dbufBytes) :
    ∃ m r, play ((List.range n).map fun k => wr (0x1000 + 4 * k) (wordAt (fun i => l.getD i 0) k)) s
        = { s with dbuf := m, rdata := r }
      ∧ ∀ i, Memory.get m i = if i < 4 * n then some (l.getD i 0) else Memory.get s.dbuf i := by
  induction n with
  | zero => exact ⟨s.dbuf, s.rdata, rfl, fun i => by simp⟩
  | succ n ih =>
    obtain ⟨m, r, h1, h2⟩ := ih (by omega)
    refine ⟨m.setBytes (4 * n) (lanes (wordAt (fun i => l.getD i 0) n)), none, ?_, ?_⟩
    · rw [List.range_succ, List.map_append, play_append, h1]
      simp only [List.map_cons, List.map_nil, play_cons, play_nil]
      rw [present_wr_dbuf _ _ _ (by omega)]
    · intro i
      rw [get_setBytes_lanes, h2]
      by_cases hi : i / 4 = n
      · rw [if_pos hi, if_pos (by omega), lane_wordAt _ _ _ (by omega)]
        congr 2; omega
      · rw [if_neg hi]
        by_cases hl : i < 4 * n
        · rw [if_pos hl, if_pos (by omega)]
        · rw [if_neg hl, if_neg (by omega)]

/-- LOAD (R122): only `DBUF` and the port's read data change, and the sequence stands at `DBUF[0..]`. -/
theorem play_load (l : List Byte) (s : State) (h : l.length ≤ Config.dbufBytes) :
    ∃ m r, play (load l) s = { s with dbuf := m, rdata := r }
      ∧ ∀ i < l.length, State.dbufByte { s with dbuf := m } i = l.getD i 0 := by
  have h4 := dbufBytes_mod_four
  obtain ⟨m, r, h1, h2⟩ := play_load_words l (wordsFor l.length) s (by unfold wordsFor; omega)
  refine ⟨m, r, h1, fun i hi => ?_⟩
  rw [dbufByte_with_dbuf, h2, if_pos (by unfold wordsFor; omega)]
  rfl

/-! ### Reads -/

/-- A port read does not depend on the port's read data. -/
@[simp] theorem portRead_rdata (a : BitVec 30) (s : State) (r : Option Word) :
    portRead a { s with rdata := r } = portRead a s := by
  unfold portRead
  cases targetOf (offsetOf a) <;> rfl

/-- What a line `RD` answers, and that it changes nothing but the port's read data. -/
theorem ask_eq (off : Nat) (s : State) :
    ask off s = ({ s with rdata := some (portRead (addrOf off) s) }, portRead (addrOf off) s) := by
  simp [ask, present_rd]

/-- What a row of reads answers, and that it changes nothing but the port's read data. -/
theorem askWords_eq (base n : Nat) (s : State) :
    ∃ r, askWords base n s
      = ({ s with rdata := r }, (List.range n).map fun k => portRead (addrOf (base + 4 * k)) s) := by
  induction n with
  | zero => exact ⟨s.rdata, rfl⟩
  | succ n ih =>
    obtain ⟨r, h⟩ := ih
    exact ⟨_, by simp only [askWords, h, ask_eq, portRead_rdata, List.range_succ, List.map_append, List.map_cons,
      List.map_nil]; rfl⟩

/-- The bytes of words that pack an array are the array's (R81). -/
theorem bytesOfWords_wordAt (f : Nat → Byte) (n m : Nat) (h : n ≤ 4 * m) :
    bytesOfWords n ((List.range m).map (wordAt f)) = (List.range n).map f := by
  have lanes_wordAt : ∀ k, lanes (wordAt f k) = [f (4 * k), f (4 * k + 1), f (4 * k + 2), f (4 * k + 3)] := by
    intro k
    simp [lanes, lane_wordAt]
  have whole : ∀ m, ((List.range m).map (wordAt f)).flatMap lanes = (List.range (4 * m)).map f := by
    intro m
    induction m with
    | zero => rfl
    | succ m ih =>
      rw [List.range_succ, List.map_append, List.flatMap_append, ih, show 4 * (m + 1) = 4 * m + 1 + 1 + 1 + 1 by omega]
      simp [List.range_succ, lanes_wordAt]
  rw [bytesOfWords, whole, ← List.map_take, List.take_range, Nat.min_eq_left h]

/-- READOUT (R122): the host has the output bytes, and nothing but the port's read data changes. -/
theorem readOut_eq (s : State) (h : s.olen.toNat ≤ 1024) :
    ∃ r, readOut s = ({ s with rdata := r }, s.obufBytes s.olen.toNat) := by
  have hl : portRead (addrOf 0x014) s = s.olen := rfl
  obtain ⟨r, hw⟩ := askWords_eq 0x400 (wordsFor s.olen.toNat) { s with rdata := some s.olen }
  refine ⟨r, ?_⟩
  have hb : (List.range (wordsFor s.olen.toNat)).map (fun k => portRead (addrOf (0x400 + 4 * k)) s)
      = (List.range (wordsFor s.olen.toNat)).map (wordAt s.obufByte) := by
    apply List.map_congr_left
    intro k hk
    have hk : k < wordsFor s.olen.toNat := by simpa using hk
    have : k < 256 := by unfold wordsFor at hk; omega
    rw [portRead, offsetOf_addrOf _ (by omega) (by omega), targetOf_obuf _ this]; rfl
  simp only [readOut, ask_eq, hl, hw, portRead_rdata, hb]
  rw [bytesOfWords_wordAt _ _ _ (by unfold wordsFor; omega)]
  rfl

/-- READKEY (R122) changes nothing but the port's read data. -/
theorem readKey_state (s : State) : ∃ r l, readKey s = ({ s with rdata := r }, l) := by
  obtain ⟨r, hw⟩ := askWords_eq 0x040 8 (ask 0x010 s).1
  exact ⟨r, _, by simp only [readKey, hw]; rfl⟩

/-- READKEY (R122): the host has the RawKey. -/
theorem readKey_eq (s : State) (h : s.klen.toNat ≤ 32) : ∃ r, readKey s = ({ s with rdata := r }, s.rawKey) := by
  have hl : portRead (addrOf 0x010) s = s.klen := rfl
  obtain ⟨r, hw⟩ := askWords_eq 0x040 8 { s with rdata := some s.klen }
  refine ⟨r, ?_⟩
  have hb : (List.range 8).map (fun k => portRead (addrOf (0x040 + 4 * k)) s) = (List.range 8).map (wordAt (byteAt s.key)) := by
    apply List.map_congr_left
    intro k hk
    have hk : k < 8 := by simpa using hk
    rw [portRead, offsetOf_addrOf _ (by omega) (by omega), targetOf_key _ hk]; rfl
  simp only [readKey, ask_eq, hl, hw, portRead_rdata, hb]
  rw [bytesOfWords_wordAt _ _ _ (by omega)]
  rfl

/-- What the host sees of `STATE` in STATUS. -/
theorem statusState_status (s : State) : statusState s.status = s.mode.code := by
  apply BitVec.eq_of_getLsbD_eq
  intro i hi
  simp only [statusState, State.status, BitVec.getLsbD_extractLsb', BitVec.getLsbD_or, BitVec.getLsbD_shiftLeft,
    BitVec.getLsbD_setWidth]
  have : i = 0 ∨ i = 1 := by omega
  rcases this with rfl | rfl <;> simp

/-- What the host sees of `ERRCODE` in STATUS. -/
theorem statusErrcode_status (s : State) : statusErrcode s.status = errField s.errcode := by
  apply BitVec.eq_of_getLsbD_eq
  intro i hi
  simp only [statusErrcode, State.status, BitVec.getLsbD_extractLsb', BitVec.getLsbD_or, BitVec.getLsbD_shiftLeft,
    BitVec.getLsbD_setWidth]
  have : i = 0 ∨ i = 1 ∨ i = 2 ∨ i = 3 := by omega
  rcases this with rfl | rfl | rfl | rfl <;> simp

/-- `RD STATUS`, as the host uses its answer. -/
theorem ask_status (s : State) : ask 0x004 s = ({ s with rdata := some s.status }, s.status) := ask_eq 0x004 s

/-! ### SETKEY -/

/-- A write to word `k` of `KEY`. -/
theorem present_wr_key (s : State) (k : Nat) (v : Word) (h : k < 8) :
    present s (wr (0x040 + 4 * k) v) = { s with key := setWord s.key k v, rdata := none } := by
  have : applyEvent (wr (0x040 + 4 * k) v) { s with rdata := none }
      = .next { s with key := setWord s.key k v, rdata := none } := by
    simp only [applyEvent, wr, portWrite, offsetOf_addrOf (0x040 + 4 * k) (by omega) (by omega), targetOf_key k h]
    rfl
  rw [present, this]

/-- The first `n` words of a SETKEY: only `KEY` and the read data change, and each byte below the words is the key's. -/
theorem play_key_words (l : List Byte) (n : Nat) (s : State) (h : n ≤ 8) :
    ∃ key r, play ((List.range n).map fun k => wr (0x040 + 4 * k) (wordAt (fun i => l.getD i 0) k)) s
        = { s with key := key, rdata := r }
      ∧ ∀ i < 4 * n, byteAt key i = l.getD i 0 := by
  induction n with
  | zero => exact ⟨s.key, s.rdata, rfl, fun i hi => by omega⟩
  | succ n ih =>
    obtain ⟨key, r, h1, h2⟩ := ih (by omega)
    refine ⟨setWord key n (wordAt (fun i => l.getD i 0) n), none, ?_, ?_⟩
    · rw [List.range_succ, List.map_append, play_append, h1]
      simp only [List.map_cons, List.map_nil, play_cons, play_nil]
      rw [present_wr_key _ _ _ (by omega)]
    · intro i hi
      rw [setWord, byteAt_bytesOf, if_pos (by omega)]
      by_cases hn : i / 4 = n
      · rw [if_pos hn, lane_wordAt _ _ _ (by omega)]
        congr 1; omega
      · rw [if_neg hn]; exact h2 i (by omega)

/-- SETKEY (R122): only `KEY`, `KLEN` and the read data change, and a key of at most 32 bytes stands at `KEY[0..]`. -/
theorem play_setKey (l : List Byte) (s : State) :
    ∃ key, play (setKey l) s = { s with key := key, klen := BitVec.ofNat 32 l.length, rdata := none }
      ∧ (l.length ≤ 32 → ∀ i < l.length, byteAt key i = l.getD i 0) := by
  obtain ⟨key, r, h1, h2⟩ := play_key_words (l.take 32) (wordsFor (l.take 32).length) s (by simp [wordsFor]; omega)
  refine ⟨key, ?_, ?_⟩
  · rw [setKey, packWords, play_append, h1]; rfl
  · intro hl i hi
    rw [List.take_of_length_le hl] at h2
    exact h2 i (by unfold wordsFor; omega)

/-! ### A sequence of events is a run of the machine -/

/-- A step takes the first pending event exactly as `present` does. -/
theorem present_of_step (s t : State) (e : Event) (rest : List Event) (h : s.port = e :: rest) (hs : step s = .next t) :
    present { s with port := rest } e = t := by
  rw [step, h] at hs
  simp only at hs
  simp only [present, hs]

end Sys2Proof.Machine
end

