-- ==== Sys2Proof/Laws/PerInstr.lean ====
section
/-! SUPPORT. The families of statements made for every command, one lemma a constructor. The family `TableRow` says of a
command as syntax that its fields are legal and that its word is selected by its row of spec/opcode_table.json. -/

namespace Sys2Proof.Laws.TableRow

/-- The mask and the match of each command's row (30_encoding.md R113). -/
def rowOf : Instr → Word × Word
  | .extract => (0xffffffff, 0x00000001)
  | .expand => (0xffffffff, 0x00000002)
  | .decblk => (0xffffffff, 0x00000003)
  | .sbegin _ => (0xfffffeff, 0x00000004)
  | .snext => (0xffffffff, 0x00000005)
  | .clr => (0xffffffff, 0x00000006)

/-- The command's fields are legal (R115) and its word matches its row under the row's mask (R113). -/
def Statement (i : Instr) : Prop := i.wellFormed = true ∧ encode i &&& (rowOf i).1 = (rowOf i).2

theorem extract : Statement .extract := ⟨by decide, by decide⟩
theorem expand : Statement .expand := ⟨by decide, by decide⟩
theorem decblk : Statement .decblk := ⟨by decide, by decide⟩
theorem sbegin (x : Bool) : Statement (.sbegin x) := by cases x <;> exact ⟨by decide, by decide⟩
theorem snext : Statement .snext := ⟨by decide, by decide⟩
theorem clr : Statement .clr := ⟨by decide, by decide⟩

end Sys2Proof.Laws.TableRow
end

