-- ==== Sys2Proof/Laws/Step.lean ====
section
/-! SUPPORT. Laws of the step: everything one step can do, and everything each command can answer. Later proofs cite these and do
not unfold `step` or `exec`. -/

namespace Sys2Proof.Machine

/-- Everything a step can do. -/
theorem step_cases (s t : State) (h : step s = .next t) :
    (s.port = [] ∧ t = s)
    ∨ (∃ a rest, s.port = .read a :: rest
        ∧ t = { s with port := rest, rdata := some (portRead a { s with port := rest, rdata := none }) })
    ∨ (∃ a v rest, s.port = .write a v :: rest ∧ a ≠ cmdAddr
        ∧ t = writeTarget (targetOf (offsetOf a)) v { s with port := rest, rdata := none })
    ∨ (∃ w i rest, s.port = .write cmdAddr w :: rest ∧ decode w = .ok i
        ∧ exec i { s with port := rest, rdata := none } = .next t)
    ∨ (∃ w rest, s.port = .write cmdAddr w :: rest ∧ (∀ i, decode w ≠ .ok i)
        ∧ illegalCommand { s with port := rest, rdata := none } = .next t)
    ∨ (∃ rest, s.port = .reset :: rest ∧ t = { State.reset with draw := s.draw + 1, port := rest }) := by
  unfold step at h
  split at h
  · next hp => exact .inl ⟨hp, by simpa using h.symm⟩
  · next e rest hp =>
    right
    cases e with
    | read a => exact .inl ⟨a, rest, hp, by simpa [applyEvent] using h.symm⟩
    | write a v =>
      right
      by_cases ha : a = cmdAddr
      · subst ha
        right
        simp only [applyEvent, portWrite_cmd] at h
        rcases writeCmd_cases v { s with port := rest, rdata := none } with ⟨i, hi, hw⟩ | ⟨hi, hw⟩
        · exact .inl ⟨v, i, rest, hp, hi, hw ▸ h⟩
        · exact .inr (.inl ⟨v, rest, hp, hi, hw ▸ h⟩)
      · refine .inl ⟨a, v, rest, hp, ha, ?_⟩
        simp only [applyEvent, portWrite_data _ _ _ ha] at h
        simpa using h.symm
    | reset => exact .inr (.inr (.inr (.inr ⟨rest, hp, by simpa [applyEvent, resetEvent] using h.symm⟩)))

/-- Everything an illegal word can do. -/
theorem illegalCommand_cases (s t : State) (h : illegalCommand s = .next t) :
    (s.mode = .error ∧ t = s) ∨ (s.mode ≠ .error ∧ t = raise .illegalCommand s) := by
  unfold illegalCommand at h
  split at h
  · next he => exact .inl ⟨he, by simpa using h.symm⟩
  · next he => exact .inr ⟨he, by simpa using h.symm⟩

/-- The rule of a command after dispatch. -/
def ruleOf : Instr → State → State
  | .extract => extractRule
  | .expand => expandRule
  | .decblk => decblkRule
  | .sbegin x => sbeginRule x
  | .snext => snextRule
  | .clr => clearCall

/-- The state in which a command's rule runs; CLR runs in every state. -/
def homeOf : Instr → Mode
  | .snext => .stream
  | _ => .idle

/-- Everything a command other than CLR can answer: nothing in ERROR, its rule at home, error 8 elsewhere. -/
theorem exec_cases (i : Instr) (s t : State) (h : exec i s = .next t) (hi : i ≠ .clr) :
    (s.mode = .error ∧ t = s) ∨ (s.mode ≠ .error ∧ s.mode = homeOf i ∧ t = ruleOf i s)
      ∨ (s.mode ≠ .error ∧ s.mode ≠ homeOf i ∧ t = raise .sequence s) := by
  cases i with
  | clr => exact absurd rfl hi
  | extract => exact accepted_eq_next h
  | expand => exact accepted_eq_next h
  | decblk => exact accepted_eq_next h
  | sbegin x => exact accepted_eq_next h
  | snext => exact accepted_eq_next h

theorem exec_clr (s : State) : exec .clr s = .next (clearCall s) := rfl

/-- A command in the state that accepts it runs its rule. -/
theorem exec_at_home (i : Instr) (s : State) (h : s.mode = homeOf i) : exec i s = .next (ruleOf i s) := by
  cases i with
  | clr => rfl
  | extract => exact accepted_in _ _ _ (by decide) h
  | expand => exact accepted_in _ _ _ (by decide) h
  | decblk => exact accepted_in _ _ _ (by decide) h
  | sbegin x => exact accepted_in _ _ _ (by decide) h
  | snext => exact accepted_in _ _ _ (by decide) h

end Sys2Proof.Machine
end

