-- ==== Sys2Proof/Laws/Schedule.lean ====
section
/-! SUPPORT. Laws of the key schedule: how the array of words grows, what its words are, and what an expansion writes. -/

namespace Sys2Proof.Machine

theorem keyLengthOk_iff (n : Nat) : keyLengthOk n = true ↔ n = 16 ∨ n = 24 ∨ n = 32 := by
  simp [keyLengthOk, or_assoc]

@[simp] theorem expandWords_length (nk n : Nat) (w : List KWord) : (expandWords nk n w).length = w.length + n := by
  induction n generalizing w with
  | zero => rfl
  | succ n ih => simp [expandWords, ih]; omega

/-- The words already there stay. -/
theorem expandWords_prefix (nk n : Nat) (w : List KWord) : w <+: expandWords nk n w := by
  induction n generalizing w with
  | zero => exact List.prefix_refl w
  | succ n ih => exact (List.prefix_append w _).trans (ih _)

theorem getD_of_prefix {α : Type} (w l : List α) (d : α) (h : w <+: l) (j : Nat) (hj : j < w.length) :
    l.getD j d = w.getD j d := by
  obtain ⟨r, rfl⟩ := h
  simp [List.getD_eq_getElem?_getD, List.getElem?_append_left hj]

/-- Every word after the first ones obeys the recurrence of R153. -/
theorem expandWords_next (nk n : Nat) (w : List KWord) (hnk : 0 < nk) (hw : nk ≤ w.length) (i : Nat)
    (h1 : w.length ≤ i) (h2 : i < w.length + n) :
    (expandWords nk n w).getD i kwordZero =
      kwordXor ((expandWords nk n w).getD (i - nk) kwordZero)
        (expandTemp nk i ((expandWords nk n w).getD (i - 1) kwordZero)) := by
  induction n generalizing w with
  | zero => omega
  | succ n ih =>
    simp only [expandWords]
    by_cases hi : i = w.length
    · have hp := expandWords_prefix nk n (w ++ [nextWord nk w])
      rw [getD_of_prefix _ _ _ hp i (by simp [hi]), getD_of_prefix _ _ _ hp (i - nk) (by simp; omega),
        getD_of_prefix _ _ _ hp (i - 1) (by simp; omega)]
      subst hi
      have e1 : (w ++ [nextWord nk w]).getD w.length kwordZero = nextWord nk w := by
        simp [List.getD_eq_getElem?_getD]
      have e2 : (w ++ [nextWord nk w]).getD (w.length - nk) kwordZero = w.getD (w.length - nk) kwordZero := by
        rw [List.getD_eq_getElem?_getD, List.getElem?_append_left (by omega), ← List.getD_eq_getElem?_getD]
      have e3 : (w ++ [nextWord nk w]).getD (w.length - 1) kwordZero = w.getD (w.length - 1) kwordZero := by
        rw [List.getD_eq_getElem?_getD, List.getElem?_append_left (by omega), ← List.getD_eq_getElem?_getD]
      rw [e1, e2, e3]
      rfl
    · exact ih (w ++ [nextWord nk w]) (by simp; omega) (by simp; omega) (by simp; omega)

@[simp] theorem scheduleWords_length (nk : Nat) (key : List Byte) :
    (scheduleWords nk key).length = 4 * (nk + 7) := by
  simp [scheduleWords]; omega

@[simp] theorem kwordBytes_length (w : KWord) : (kwordBytes w).length = 4 := rfl

@[simp] theorem flatMap_kwordBytes_length (l : List KWord) : (l.flatMap kwordBytes).length = 4 * l.length := by
  induction l with
  | nil => rfl
  | cons w l ih => simp [ih]; omega

/-- The bytes of a list of words, read back a word at a time. -/
theorem keyWord_flatMap (l : List KWord) (j : Nat) : keyWord (l.flatMap kwordBytes) j = l.getD j kwordZero := by
  induction l generalizing j with
  | nil => simp [keyWord, kwordZero]
  | cons w l ih =>
    cases j with
    | zero => simp [keyWord, kwordBytes]
    | succ j =>
      have : keyWord ((w :: l).flatMap kwordBytes) (j + 1) = keyWord (l.flatMap kwordBytes) j := by
        have hk : ∀ k, (kwordBytes w ++ l.flatMap kwordBytes).getD (4 + k) 0 = (l.flatMap kwordBytes).getD k 0 := by
          intro k
          rw [List.getD_eq_getElem?_getD, List.getElem?_append_right (by simp), List.getD_eq_getElem?_getD]
          simp
        simp only [keyWord, List.flatMap_cons]
        have e0 := hk (4 * j); have e1 := hk (4 * j + 1); have e2 := hk (4 * j + 2); have e3 := hk (4 * j + 3)
        rw [← e0, ← e1, ← e2, ← e3]
        congr 2 <;> omega
      rw [this, ih]
      rfl

/-- What `Expand` gives, for the three key lengths (R150, R151, R154). -/
theorem expandKey_eq_some (key : List Byte) (nr : Nat) (sched : List Byte) :
    expandKey key = some (nr, sched) ↔
      keyLengthOk key.length = true ∧ nr = key.length / 4 + 6
        ∧ sched = (scheduleWords (key.length / 4) key).flatMap kwordBytes := by
  unfold expandKey
  split
  · next h =>
    simp only [Option.some.injEq, Prod.mk.injEq, h, true_and]
    exact ⟨fun ⟨a, b⟩ => ⟨a.symm, b.symm⟩, fun ⟨a, b⟩ => ⟨a.symm, b.symm⟩⟩
  · next h => simp [h]

theorem expandKey_eq_none (key : List Byte) : expandKey key = none ↔ keyLengthOk key.length = false := by
  unfold expandKey
  split
  · next h => simp [h]
  · next h => simpa using h

@[simp] theorem rawKey_length (s : State) : s.rawKey.length = s.klen.toNat := by simp [State.rawKey]

theorem expandKey_of_ok (key : List Byte) (h : keyLengthOk key.length = true) :
    expandKey key = some (key.length / 4 + 6, (scheduleWords (key.length / 4) key).flatMap kwordBytes) := by
  rw [expandKey, if_pos h]

/-- What an expansion writes, when `KLEN` is a key's length (R155). -/
theorem expansion_eq (s : State) (nr : Nat) (sched : List Byte) (h : expandKey s.rawKey = some (nr, sched)) :
    expansion s = { s with rks := padTo 240 sched, nr := BitVec.ofNat 4 nr, sv := true } := by
  simp [expansion, h]

/-- The schedule a core reads is the sequence that was written to `RKS` (R41, R155). -/
theorem schedule_of_padTo (u : State) (nr : Nat) (sched : List Byte) (h : u.nr.toNat = nr) (hr : u.rks = padTo 240 sched)
    (hl : sched.length = 16 * nr + 16) (h240 : sched.length ≤ 240) : u.schedule = sched := by
  apply List.ext_getElem
  · simp [State.schedule, h, hl]
  · intro i h1 h2
    simp only [State.schedule, List.getElem_map, List.getElem_range, hr, byteAt_padTo]
    rw [if_pos (by omega), List.getD_eq_getElem?_getD, List.getElem?_eq_getElem h2]
    rfl

/-- Everything an expansion leaves alone. -/
theorem expansion_frame (s : State) :
    expansion s = { s with rks := (expansion s).rks, nr := (expansion s).nr, sv := (expansion s).sv } := by
  unfold expansion
  split <;> rfl

@[simp] theorem expansion_mode (s : State) : (expansion s).mode = s.mode := by rw [expansion_frame]
@[simp] theorem expansion_last (s : State) : (expansion s).last = s.last := by rw [expansion_frame]
@[simp] theorem expansion_errcode (s : State) : (expansion s).errcode = s.errcode := by rw [expansion_frame]
@[simp] theorem expansion_dlen (s : State) : (expansion s).dlen = s.dlen := by rw [expansion_frame]
@[simp] theorem expansion_slen (s : State) : (expansion s).slen = s.slen := by rw [expansion_frame]
@[simp] theorem expansion_klen (s : State) : (expansion s).klen = s.klen := by rw [expansion_frame]
@[simp] theorem expansion_olen (s : State) : (expansion s).olen = s.olen := by rw [expansion_frame]
@[simp] theorem expansion_declen (s : State) : (expansion s).declen = s.declen := by rw [expansion_frame]
@[simp] theorem expansion_remct (s : State) : (expansion s).remct = s.remct := by rw [expansion_frame]
@[simp] theorem expansion_rempt (s : State) : (expansion s).rempt = s.rempt := by rw [expansion_frame]
@[simp] theorem expansion_key (s : State) : (expansion s).key = s.key := by rw [expansion_frame]
@[simp] theorem expansion_chain (s : State) : (expansion s).chain = s.chain := by rw [expansion_frame]
@[simp] theorem expansion_obuf (s : State) : (expansion s).obuf = s.obuf := by rw [expansion_frame]
@[simp] theorem expansion_dbuf (s : State) : (expansion s).dbuf = s.dbuf := by rw [expansion_frame]
@[simp] theorem expansion_draw (s : State) : (expansion s).draw = s.draw := by rw [expansion_frame]
@[simp] theorem expansion_port (s : State) : (expansion s).port = s.port := by rw [expansion_frame]
@[simp] theorem expansion_rdata (s : State) : (expansion s).rdata = s.rdata := by rw [expansion_frame]

/-- An expansion reads neither buffer's writes nor changes them. -/
@[simp] theorem expansion_dbufByte (s : State) (i : Nat) : (expansion s).dbufByte i = s.dbufByte i :=
  dbufByte_congr s (expansion s) (expansion_dbuf s) (expansion_draw s) i

end Sys2Proof.Machine
end

