-- ==== Sys2Proof/Laws/Stream.lean ====
section
/-! SUPPORT. Laws of the stream: what a window's blocks leave in `OBUF` and `CHAIN`, and what the two commands write. -/

namespace Sys2Proof.Machine

/-- The chain value before block `j` of the window: `CHAIN` for the first, else the ciphertext block before (R192). -/
def State.prevRaw (s : State) (j : Nat) : Block := if j = 0 then s.chain else s.dbufBlock (j - 1)

/-- The chain value after `n` blocks of the window. -/
theorem windowBlocks_chain (s : State) (n : Nat) : (s.windowBlocks n).2 = s.prevRaw n := by
  cases n with
  | zero => rfl
  | succ n => simp [State.windowBlocks, State.prevRaw]

/-- Every byte of `OBUF` after `n` blocks of the window: byte `i` of block `j` is the decrypted byte XORed with the chain value
before the block, and every byte past the blocks is as it was. -/
theorem windowBlocks_get (s : State) (n a : Nat) :
    Memory.get (s.windowBlocks n).1 a =
      if a < 16 * n then some (byteAt (s.chainedBlock (s.dbufBlock (a / 16)) (s.prevRaw (a / 16))) (a % 16))
      else Memory.get s.obuf a := by
  induction n with
  | zero => simp [State.windowBlocks]
  | succ n ih =>
    simp only [State.windowBlocks, Memory.get_setBytes, toList_length, windowBlocks_chain]
    by_cases h1 : 16 * n ≤ a ∧ a < 16 * n + 16
    · have hq : a / 16 = n := by omega
      have hr : a - 16 * n = a % 16 := by omega
      rw [if_pos h1, if_pos (by omega), hq, hr]
      have hlt : a % 16 < 16 := by omega
      rw [byteAt_eq_getElem _ _ hlt]
      simp [hlt]
    · rw [if_neg h1, ih]
      by_cases h2 : a < 16 * n
      · rw [if_pos h2, if_pos (by omega)]
      · rw [if_neg h2, if_neg (by omega)]

theorem windowBlocks_wf (s : State) (n : Nat) (h : s.obuf.wf = true) : Memory.wf (s.windowBlocks n).1 = true := by
  induction n with
  | zero => exact h
  | succ n ih => exact Memory.wf_setBytes _ _ _ ih

theorem windowBlocks_within (s : State) (n m : Nat) (hn : 16 * n ≤ m) (h : s.obuf.within m = true) :
    Memory.within (s.windowBlocks n).1 m = true := by
  induction n with
  | zero => exact h
  | succ n ih => exact Memory.within_setBytes _ _ _ _ (by rw [toList_length]; omega) (ih (by omega))

/-- What `beginStream` writes, as one update (R190). -/
theorem beginStream_eq (n : Word) (s : State) :
    beginStream n s =
      { s with
        chain := s.dbufBlock 0, declen := s.declaredLength, remct := n, rempt := s.declaredLength, olen := 0
        mode := if n = 0 then .idle else .stream, last := decide (n = 0) } := by
  simp only [beginStream, streamFlags_eq]

/-- What SNEXT's rule writes, as one update (R193). -/
theorem snextRule_eq (s : State) :
    snextRule s =
      { s with
        obuf := (s.windowBlocks (s.windowBytes / 16)).1, chain := (s.windowBlocks (s.windowBytes / 16)).2
        olen := BitVec.ofNat 32 (min s.rempt.toNat s.windowBytes)
        rempt := s.rempt - BitVec.ofNat 32 (min s.rempt.toNat s.windowBytes)
        remct := s.remct - BitVec.ofNat 32 s.windowBytes
        mode := if s.remct - BitVec.ofNat 32 s.windowBytes = 0 then .idle else .stream
        last := decide (s.remct - BitVec.ofNat 32 s.windowBytes = 0) } := by
  simp only [snextRule, streamFlags_eq]

/-- Subtracting a number no greater than a word's value. -/
theorem sub_ofNat_toNat (w : Word) (n : Nat) (h : n ≤ w.toNat) : (w - BitVec.ofNat 32 n).toNat = w.toNat - n := by
  have := w.isLt
  rw [BitVec.toNat_sub, BitVec.toNat_ofNat, Nat.mod_eq_of_lt (by omega : n < 2 ^ 32)]
  omega

/-- When the checks of SBEGIN pass (R190). -/
theorem sbeginCheck_eq_none (x : Bool) (s : State) :
    sbeginCheck x s = none ↔
      (x = true → keyLengthOk s.klen.toNat = true) ∧ (x = false → s.sv = true) ∧ 20 ≤ s.slen.toNat
        ∧ (s.slen.toNat - 20) % 16 = 0 ∧ s.declaredLength.toNat ≤ s.slen.toNat - 20 := by
  unfold sbeginCheck State.ciphertextLength Config.headerBytes
  constructor
  · intro h
    repeat' split at h
    all_goals cases h
    next h1 h2 h3 h4 h5 =>
      refine ⟨?_, ?_, by omega, by omega, by omega⟩
      · rintro rfl; simpa using h1
      · rintro rfl; simpa using h2
  · rintro ⟨h1, h2, h3, h4, h5⟩
    rw [if_neg (by cases x <;> simp_all), if_neg (by cases x <;> simp_all), if_neg (by omega), if_neg (by omega),
      if_neg (by omega)]

end Sys2Proof.Machine
end

