-- ==== Sys2Proof/Laws/Rules.lean ====
section
/-! SUPPORT. Everything the rule of each command can do, said once per command: the error it raises, or the one update it
makes. -/

namespace Sys2Proof.Machine

/-- Everything EXTRACT's rule can do (R138). -/
theorem extractRule_cases (s : State) :
    (∃ e ∈ [ErrCode.length, .carrierFormat, .invalidKeyMaterial, .tokenIndex], extractRule s = raise e s)
    ∨ ∃ r, s.dlen.toNat ≤ Config.dbufBytes ∧ extractKey s.carrier = .ok r ∧ extractRule s = storeKey r s := by
  unfold extractRule
  split
  · exact .inl ⟨.length, by simp, rfl⟩
  · next h =>
    split
    · next e he =>
      refine .inl ⟨e, ?_, rfl⟩
      unfold extractKey at he
      split at he
      · cases he; simp
      · split at he
        · cases he; simp
        · split at he
          · cases he; simp
          · cases he
    · next r hr => exact .inr ⟨r, by omega, hr, rfl⟩

/-- Everything EXPAND's rule can do (R155). -/
theorem expandRule_cases (s : State) :
    (keyLengthOk s.klen.toNat = false ∧ expandRule s = raise .invalidKeyLength s)
    ∨ (keyLengthOk s.klen.toNat = true ∧ expandRule s = { expansion s with olen := 0, last := false }) := by
  unfold expandRule
  cases h : keyLengthOk s.klen.toNat <;> simp

/-- Everything DECBLK's rule can do (R170). -/
theorem decblkRule_cases (s : State) :
    (s.sv = false ∧ decblkRule s = raise .noSchedule s)
    ∨ (s.sv = true ∧ decblkRule s =
        { s with obuf := s.obuf.setBytes 0 (s.decBlock (s.dbufBlock 0)).toList, olen := 16, last := false }) := by
  unfold decblkRule
  cases h : s.sv <;> simp

/-- Everything the rule of SBEGIN can do (R190). -/
theorem sbeginRule_cases (x : Bool) (s : State) :
    (∃ e, sbeginCheck x s = some e ∧ sbeginRule x s = raise e s)
    ∨ (sbeginCheck x s = none ∧ sbeginRule x s = beginStream (s.slen - 20) (if x then expansion s else s)) := by
  unfold sbeginRule
  cases h : sbeginCheck x s <;> simp

/-- Which errors SBEGIN's checks can raise (R226, R233). -/
theorem sbeginCheck_mem (x : Bool) (s : State) (e : ErrCode) (h : sbeginCheck x s = some e) :
    (x = true ∧ e = .invalidKeyLength) ∨ (x = false ∧ e = .noSchedule)
      ∨ e ∈ [ErrCode.streamTooShort, .invalidStreamLength, .declaredLengthExceedsCiphertext] := by
  unfold sbeginCheck at h
  repeat' split at h
  all_goals cases h
  · next h1 => cases x <;> simp_all
  · next h1 => cases x <;> simp_all
  · simp
  · simp
  · simp

/-- Everything a command can answer: nothing in ERROR, an error, or the one update of a command that completes. -/
theorem exec_next_cases (i : Instr) (s t : State) (h : exec i s = .next t) :
    (s.mode = .error ∧ i ≠ .clr ∧ t = s)
    ∨ (i = .clr ∧ t = clearCall s)
    ∨ (s.mode ≠ .error ∧ i ≠ .clr ∧ ∃ e, t = raise e s
        ∧ ((e = .sequence ∧ s.mode ≠ homeOf i) ∨ (e ∈ errorsOf i ∧ s.mode = homeOf i)))
    ∨ (s.mode = .idle ∧ i = .extract ∧ ∃ r, s.dlen.toNat ≤ Config.dbufBytes ∧ extractKey s.carrier = .ok r ∧ t = storeKey r s)
    ∨ (s.mode = .idle ∧ i = .expand ∧ keyLengthOk s.klen.toNat = true ∧ t = { expansion s with olen := 0, last := false })
    ∨ (s.mode = .idle ∧ i = .decblk ∧ s.sv = true ∧ t =
        { s with obuf := s.obuf.setBytes 0 (s.decBlock (s.dbufBlock 0)).toList, olen := 16, last := false })
    ∨ (s.mode = .idle ∧ ∃ x, i = .sbegin x ∧ sbeginCheck x s = none
        ∧ t = beginStream (s.slen - 20) (if x then expansion s else s))
    ∨ (s.mode = .stream ∧ i = .snext ∧ t = snextRule s) := by
  by_cases hi : i = .clr
  · subst hi
    exact .inr (.inl ⟨rfl, by simpa [exec_clr] using h.symm⟩)
  rcases exec_cases i s t h hi with ⟨he, ht⟩ | ⟨he, hm, ht⟩ | ⟨he, _, ht⟩
  · exact .inl ⟨he, hi, ht⟩
  · cases i with
    | clr => exact absurd rfl hi
    | extract =>
      rcases extractRule_cases s with ⟨e, hm', hr⟩ | ⟨r, h1, h2, hr⟩ <;> rw [ruleOf, hr] at ht
      · exact .inr (.inr (.inl ⟨he, hi, e, ht, .inr ⟨hm', hm⟩⟩))
      · exact .inr (.inr (.inr (.inl ⟨hm, rfl, r, h1, h2, ht⟩)))
    | expand =>
      rcases expandRule_cases s with ⟨_, hr⟩ | ⟨hk, hr⟩ <;> rw [ruleOf, hr] at ht
      · exact .inr (.inr (.inl ⟨he, hi, _, ht, .inr ⟨by simp [errorsOf], hm⟩⟩))
      · exact .inr (.inr (.inr (.inr (.inl ⟨hm, rfl, hk, ht⟩))))
    | decblk =>
      rcases decblkRule_cases s with ⟨_, hr⟩ | ⟨hk, hr⟩ <;> rw [ruleOf, hr] at ht
      · exact .inr (.inr (.inl ⟨he, hi, _, ht, .inr ⟨by simp [errorsOf], hm⟩⟩))
      · exact .inr (.inr (.inr (.inr (.inr (.inl ⟨hm, rfl, hk, ht⟩)))))
    | sbegin x =>
      rcases sbeginRule_cases x s with ⟨e, hc, hr⟩ | ⟨hc, hr⟩ <;> rw [ruleOf, hr] at ht
      · refine .inr (.inr (.inl ⟨he, hi, _, ht, .inr ⟨?_, hm⟩⟩))
        rcases sbeginCheck_mem x s e hc with ⟨rfl, rfl⟩ | ⟨rfl, rfl⟩ | hc
        · simp [errorsOf]
        · simp [errorsOf]
        · simp at hc
          rcases hc with rfl | rfl | rfl <;> cases x <;> simp [errorsOf]
      · exact .inr (.inr (.inr (.inr (.inr (.inr (.inl ⟨hm, x, rfl, hc, ht⟩))))))
    | snext => exact .inr (.inr (.inr (.inr (.inr (.inr (.inr ⟨hm, rfl, ht⟩))))))
  · exact .inr (.inr (.inl ⟨he, hi, _, ht, .inl ⟨rfl, by assumption⟩⟩))

end Sys2Proof.Machine
end

