-- ==== Sys2Proof/Tests/Slice0.lean ====
section
/-! SUPPORT. The model's own tests: the decoding of words written out from the spec's encodings, the checks of WellFormed,
one or two steps per command with the values of spec/95_test_vectors.md, and, for every statement that has hypotheses, a
concrete input that meets them (the theorems named `witness_…`). -/

namespace Sys2Proof.Tests

open Sys2Proof.Machine

/-! ### Helpers -/

/-- The `n` bytes written as one hexadecimal number, the first byte the most significant digits. -/
def num (n v : Nat) : List Byte := (List.range n).map fun i => BitVec.ofNat 8 (v >>> (8 * (n - 1 - i)))

/-- The bytes of an ASCII string. -/
def ascii (s : String) : List Byte := s.toList.map fun c => BitVec.ofNat 8 c.toNat

/-- A buffer that holds a sequence from index `a` on. -/
def cellsFrom (a : Nat) : List Byte → Memory
  | [] => []
  | b :: rest => (a, b) :: cellsFrom (a + 1) rest

/-- The next state of an answer. -/
def next? : Result → Option State
  | .next t => some t
  | .fault _ => none
  | .refused _ => none

/-- The schedule of V10. -/
def v10 : List Byte := num 176
  0x000102030405060708090a0b0c0d0e0fd6aa74fdd2af72fadaa678f1d6ab76feb692cf0b643dbdf1be9bc5006830b3feb6ff744ed2c2c9bf6c590cbf0469bf4147f7f7bc95353e03f96c32bcfd058dfd3caaa3e8a99f9deb50f3af57adf622aa5e390f7df7a69296a7553dc10aa31f6b14f9701ae35fe28c440adf4d4ea9c02647438735a41c65b9e016baf4aebf7ad2549932d1f08557681093ed9cbe2c974e13111d7fe3944a17f307a78b4d2b30c5

/-- The key of V1 and V10. -/
def keyV1 : List Byte := num 16 0x000102030405060708090a0b0c0d0e0f

/-- IDLE with the key of V10 in `KEY` and no schedule. -/
def keyed : State := { State.reset with key := padTo 32 keyV1, klen := 16 }

/-- IDLE with the schedule of V10. -/
def ready : State := { State.reset with sv := true, nr := 10, rks := padTo 240 v10 }

/-- `ready` with a stream active and `n` bytes to come, `p` of them to be delivered. -/
def streaming (n p : Word) : State := { ready with mode := .stream, remct := n, rempt := p }

/-- `ready` in ERROR. -/
def failed : State := raise .sequence ready

/-- `ready` with a carrier of `c` in `DBUF`. -/
def carrying (c : List Byte) : State := { ready with dbuf := cellsFrom 0 c, dlen := BitVec.ofNat 32 c.length }

/-- `ready` with a stream's header in `DBUF`: 16 zero bytes, then the declared length. -/
def headed (slen : Word) (declared : List Byte) : State :=
  { ready with slen := slen, dbuf := cellsFrom 0 (List.replicate 16 0 ++ declared) }

/-- The pending events of a state replaced. -/
def withPort (s : State) (es : List Event) : State := { s with port := es }

/-- A text repeated. -/
def rep (n : Nat) (s : List Byte) : List Byte := (List.replicate n s).flatten

/-- The carrier of V7: 128 tokens `ab0`. -/
def carrierV7 : List Byte := rep 128 (ascii "YWIw")

/-! ### Decoding (30_encoding.md R113, R115): bits 31:9, then `X`, then `op` -/

theorem test_decode_extract : decode (0b00000000000000000000000_0_00000001 : Word) = .ok .extract := by decide
theorem test_decode_expand : decode (0b00000000000000000000000_0_00000010 : Word) = .ok .expand := by decide
theorem test_decode_decblk : decode (0b00000000000000000000000_0_00000011 : Word) = .ok .decblk := by decide
theorem test_decode_sbegin : decode (0b00000000000000000000000_0_00000100 : Word) = .ok (.sbegin false) := by decide
theorem test_decode_sbegin_x : decode (0b00000000000000000000000_1_00000100 : Word) = .ok (.sbegin true) := by decide
theorem test_decode_snext : decode (0b00000000000000000000000_0_00000101 : Word) = .ok .snext := by decide
theorem test_decode_clr : decode (0b00000000000000000000000_0_00000110 : Word) = .ok .clr := by decide

/-- The illegal words of V40 to V44: each is rejected, by name. -/
theorem test_decode_rejects :
    decode 0x00000000 = .error .noSuchOpcode ∧ decode 0x00000007 = .error .noSuchOpcode
    ∧ decode 0x000000ff = .error .noSuchOpcode ∧ decode 0x00000101 = .error .flagNotAllowed
    ∧ decode 0x00000106 = .error .flagNotAllowed ∧ decode 0x00000204 = .error .reservedBits
    ∧ decode 0x80000006 = .error .reservedBits ∧ decode 0x00010002 = .error .reservedBits := by decide

/-- A word of more bits than a command has is no command (R116). -/
theorem test_table_word_width :
    decodeTableWord 32 0x00000104 = some (.sbegin true) ∧ decodeTableWord 64 0x00000104 = none
    ∧ decodeTableWord 8 0x06 = some .clr := by decide

/-! ### WellFormed: an ill-formed term for each check -/

theorem test_wellFormed_opcode :
    CmdFields.wellFormed ⟨0x00, false, 0⟩ = false ∧ CmdFields.wellFormed ⟨0x07, false, 0⟩ = false
    ∧ CmdFields.wellFormed ⟨0xff, false, 0⟩ = false ∧ CmdFields.wellFormed ⟨0x06, false, 0⟩ = true := by decide
theorem test_wellFormed_flag :
    CmdFields.wellFormed ⟨0x01, true, 0⟩ = false ∧ CmdFields.wellFormed ⟨0x06, true, 0⟩ = false
    ∧ CmdFields.wellFormed ⟨0x04, true, 0⟩ = true := by decide
theorem test_wellFormed_reserved :
    CmdFields.wellFormed ⟨0x01, false, 1⟩ = false ∧ CmdFields.wellFormed ⟨0x06, false, 0x400000⟩ = false := by decide

/-! ### Steps from reset: each table word runs as the first command -/

theorem test_step_words_from_reset :
    ([0x00000001, 0x00000002, 0x00000003, 0x00000004, 0x00000104, 0x00000005, 0x00000006].all fun w =>
      (next? (step (State.reset.withFetchWord 32 w))).isSome) = true := by decide +kernel

/-- V15, V4c: EXPAND from reset is error 2, STATUS `0x00000022`. -/
theorem test_expand_from_reset :
    (next? (step (State.reset.withFetchWord 32 0x00000002))).map State.status = some 0x00000022 := by decide +kernel

/-! ### EXTRACT -/

/-- V7: the carrier of 128 tokens `ab0` gives the key of 16 zero bytes. -/
theorem test_extract_v7 : extractKey carrierV7 = .ok (Vector.replicate 16 0) := by decide +kernel

/-- V4b: 129 tokens fail with error 1. -/
theorem test_extract_129_tokens : extractKey (rep 129 (ascii "YWIw")) = .error .invalidKeyMaterial := by decide +kernel

/-! ### EXPAND -/

/-- V10: the schedule of the key `00 .. 0f`. -/
theorem test_expand_v10 : expandKey keyV1 = some (10, v10) := by decide +kernel

/-- V14: the last block of the schedule of 32 bytes of zero, which takes the branch of `nk > 6`. -/
theorem test_expand_v14 :
    (expandKey (List.replicate 32 0)).map (fun p => (p.1, p.2.drop 224))
      = some (14, num 16 0x10f80a1753bf729c45c979e7cb706385) := by decide +kernel

/-! ### DECBLK -/

/-- V1: the FIPS-197 block. -/
theorem test_decblk_v1 :
    (next? (exec .decblk { ready with dbuf := cellsFrom 0 (num 16 0x69c4e0d86a7b0430d8cdb78070b4c55a) })).map
      (fun t => (t.obufBytes 16, t.olen, t.status))
      = some (num 16 0x00112233445566778899aabbccddeeff, 16, 0x00000a04) := by decide +kernel

/-- R170: error 9 without a schedule. -/
theorem test_decblk_no_schedule : (next? (exec .decblk State.reset)).map State.status = some 0x00000092 := by decide +kernel

/-! ### SBEGIN -/

/-- The worked example of R190: `SLEN = 52`, declared length 20. -/
theorem test_sbegin_worked_example :
    (next? (exec (.sbegin false) (headed 52 [0x14, 0, 0, 0]))).map
      (fun t => (t.chain, t.declen, t.remct, t.rempt, t.status))
      = some (Vector.replicate 16 0, 20, 32, 20, 0x00000a05) := by decide +kernel

/-- V8: SBEGIN.X with the key of 16 zero bytes. -/
theorem test_sbegin_x_v8 :
    (next? (exec (.sbegin true)
      { headed 36 [0x10, 0, 0, 0] with sv := false, nr := 0, rks := Vector.replicate 240 0, klen := 16 })).map
      (fun t => (t.remct, t.rempt, t.status, t.schedule.drop 160))
      = some (16, 16, 0x00000a05, num 16 0xb4ef5bcb3e92e21123e951cf6f8f188e) := by decide +kernel

/-! ### SNEXT -/

/-- The worked example of R193: the position and the flags after the last window. -/
theorem test_snext_worked_example :
    (next? (exec .snext { streaming 32 20 with dbuf := cellsFrom 0 (num 32 0xff) })).map
      (fun t => (t.chain, t.olen, t.remct, t.rempt, t.status))
      = some (padTo 16 (num 16 0xff), 20, 0, 0, 0x00000a0c) := by decide +kernel

/-- V1's block as a stream of one block with a chain value: the plaintext is XORed with it (R192). -/
theorem test_snext_chains :
    (next? (exec .snext
      { streaming 16 16 with
        chain := Vector.replicate 16 0xff, dbuf := cellsFrom 0 (num 16 0x69c4e0d86a7b0430d8cdb78070b4c55a) })).map
      (fun t => t.obufBytes 16) = some (num 16 0xffeeddccbbaa99887766554433221100) := by decide +kernel

/-! ### CLR -/

/-- R214: from ERROR; the schedule stays. -/
theorem test_clr_from_error :
    (next? (exec .clr failed)).map (fun t => (t.status, t.nr)) = some (0x00000a04, 10) := by decide +kernel

/-- R214: from STREAM; the position is cleared. -/
theorem test_clr_from_stream :
    (next? (exec .clr { streaming 32 20 with chain := Vector.replicate 16 1 })).map
      (fun t => (t.status, t.remct, t.rempt, t.chain)) = some (0x00000a04, 0, 0, Vector.replicate 16 0) := by decide +kernel

/-! ### The host's sequences -/

/-- The STATUS word of R214 as the host reads it: `STATE` 2 and `ERRCODE` 8. -/
theorem test_status_fields :
    statusState 0x00000a86 = 2 ∧ statusErrcode 0x00000a86 = 8 ∧ statusState 0x00000a04 = 0 ∧ failed.status = 0x00000a86 := by
  decide +kernel

/-- SETKEY and READKEY (R122): a key of 24 bytes goes through the port and comes back. -/
theorem test_setkey_readkey :
    (readKey (play (setKey ((List.range 24).map (BitVec.ofNat 8))) State.reset)).2 = (List.range 24).map (BitVec.ofNat 8) := by
  decide +kernel

/-! ### Witnesses: the invariants in concrete states -/

theorem witness_ready_inv : ready.Inv where
  error_iff := by decide
  sv_iff := by decide
  no_schedule := by decide
  schedule_tail := fun _ => by decide +kernel
  in_stream := by decide
  in_idle := by decide
  olen_le := by decide
  last_idle := by decide
  obuf_wf := by decide
  dbuf_wf := by decide
  obuf_within := by decide
  dbuf_within := by decide

/-- A stream at its last block, and one with more than a window to come. -/
theorem witness_streaming_inv : (streaming 16 16).Inv ∧ (streaming 2064 2050).Inv := by
  obtain ⟨_, a2, a3, a4, _, _, a7, _, a9, a10, a11, a12⟩ := witness_ready_inv
  exact ⟨⟨by decide, a2, a3, a4, by decide, by decide, a7, by decide, a9, a10, a11, a12⟩,
    ⟨by decide, a2, a3, a4, by decide, by decide, a7, by decide, a9, a10, a11, a12⟩⟩

theorem witness_keyed_inv : keyed.Inv where
  error_iff := by decide
  sv_iff := by decide
  no_schedule := fun _ => ⟨rfl, by decide +kernel⟩
  schedule_tail := by decide
  in_stream := by decide
  in_idle := by decide
  olen_le := by decide
  last_idle := by decide
  obuf_wf := rfl
  dbuf_wf := rfl
  obuf_within := rfl
  dbuf_within := rfl

theorem witness_failed_inv : failed.Inv := by
  obtain ⟨_, a2, a3, a4, _, _, a7, _, a9, a10, a11, a12⟩ := witness_ready_inv
  exact ⟨by decide, a2, a3, a4, by decide, by decide, a7, by decide, a9, a10, a11, a12⟩

/-- ResetEventGivesTheResetState. -/
theorem witness_reset_event : (withPort failed [.reset, .read 0]).port = .reset :: [.read 0] := rfl

/-- EveryStepKeepsTheInvariants: a state that meets them and a step from it. -/
theorem witness_step_inv :
    (withPort (streaming 16 16) [cmdLine .snext]).Inv
    ∧ ∃ t, step (withPort (streaming 16 16) [cmdLine .snext]) = .next t := by
  obtain ⟨a1, a2, a3, a4, a5, a6, a7, a8, a9, a10, a11, a12⟩ := witness_streaming_inv.1
  exact ⟨⟨a1, a2, a3, a4, a5, a6, a7, a8, a9, a10, a11, a12⟩, _, rfl⟩

/-- ReachableStatesMeetTheInvariants: a reachable state other than reset. -/
theorem witness_reachable : State.Reachable { State.reset with dlen := 5 } := ⟨[wr 0x008 5], 1, rfl⟩

/-- EveryStepKeepsTheScheduleExpanded: a state with a valid schedule that `Expand` made. -/
theorem witness_schedule_expanded :
    ready.sv = true ∧ ready.ScheduleExpanded ∧ step ready = .next ready :=
  ⟨rfl, fun _ => ⟨keyV1, 10, v10, test_expand_v10, by decide, rfl⟩, rfl⟩

/-- DecodeAndEncodeAgree. -/
theorem witness_decode_encode : (Instr.sbegin true).wellFormed = true ∧ decode 0x00000104 = .ok (.sbegin true) := by decide

/-- No word that the decoder rejects is a command. -/
theorem not_ok_of_error {w : Word} {r : DecodeReject} (h : decode w = .error r) (i : Instr) : decode w ≠ .ok i := by
  rw [h]; intro h'; cases h'

/-- IllegalWordsRaiseErrorTen, CommandWordsAreDispatchedInOrder, StepRunsTheDecodedCommand: illegal words of each kind, with
a state outside ERROR and one in it. -/
theorem witness_illegal_words :
    (∀ i, decode 0x00000000 ≠ .ok i) ∧ (∀ i, decode 0x00000007 ≠ .ok i) ∧ (∀ i, decode 0x00000106 ≠ .ok i)
    ∧ (∀ i, decode 0x00000206 ≠ .ok i) ∧ ready.mode ≠ .error ∧ failed.mode = .error :=
  ⟨not_ok_of_error (r := .noSuchOpcode) (by decide), not_ok_of_error (r := .noSuchOpcode) (by decide),
    not_ok_of_error (r := .flagNotAllowed) (by decide), not_ok_of_error (r := .reservedBits) (by decide), by decide, rfl⟩

/-- StepRunsTheDecodedCommand: each of its clauses. -/
theorem witness_step_runs :
    ready.port = []
    ∧ ((withPort ready [.write cmdAddr 0x00000003]).port = .write cmdAddr 0x00000003 :: [] ∧ decode 0x00000003 = .ok .decblk)
    ∧ ((withPort ready [.write cmdAddr 0x00000007]).port = .write cmdAddr 0x00000007 :: []
        ∧ ∀ i, decode 0x00000007 ≠ .ok i)
    ∧ ((withPort ready [.write (addrOf 0x008) 7]).port = .write (addrOf 0x008) 7 :: [] ∧ addrOf 0x008 ≠ cmdAddr)
    ∧ (withPort ready [.read (addrOf 0x004)]).port = .read (addrOf 0x004) :: []
    ∧ decodeTableWord 32 0x00000003 = some .decblk :=
  ⟨rfl, ⟨rfl, by decide⟩, ⟨rfl, not_ok_of_error (r := .noSuchOpcode) (by decide)⟩, ⟨rfl, by decide⟩, rfl, by decide⟩

/-- CommandWordsAreDispatchedInOrder: a command that is accepted and one that is not, outside ERROR; both cases in it. -/
theorem witness_dispatch :
    ready.mode ≠ .error ∧ decode 0x00000003 = .ok .decblk ∧ acceptedIn .decblk ready.mode = true
    ∧ decode 0x00000005 = .ok .snext ∧ acceptedIn .snext ready.mode = false
    ∧ failed.mode = .error ∧ (0x00000005 : Word) ≠ 0x00000006 := by decide

/-- ErrorsArePrecise: a command that ends in ERROR from another state. -/
theorem witness_precise :
    ready.mode ≠ .error ∧ exec .snext ready = .next (raise .sequence ready) ∧ (raise .sequence ready).mode = .error :=
  ⟨by decide, rfl, rfl⟩

/-- ErrorStateIgnoresEveryWordButClr: a core in ERROR with a command other than CLR pending, and an address of each kind. -/
theorem witness_error_ignores :
    failed.mode = .error
    ∧ (withPort failed [.write cmdAddr 0x00000005]).port = .write cmdAddr 0x00000005 :: []
    ∧ (0x00000005 : Word) ≠ 0x00000006 ∧ addrOf 0x008 ≠ addrOf 0x004 ∧ addrOf 0x008 ≠ cmdAddr :=
  ⟨rfl, rfl, by decide, by decide, by decide⟩

/-- EachErrorHasItsCommandAndItsState: an error of a command's own and an error of dispatch. -/
theorem witness_each_error :
    State.reset.mode ≠ .error
    ∧ exec .decblk State.reset = .next (raise .noSchedule State.reset)
    ∧ (raise .noSchedule State.reset).errcode = some .noSchedule
    ∧ exec .snext State.reset = .next (raise .sequence State.reset)
    ∧ (raise .sequence State.reset).errcode = some .sequence := ⟨by decide, rfl, rfl, rfl, rfl⟩

/-- PortReadsAnswerTheirRegisters and PortWritesChangeOnlyWhatTheyName: the ends of the ranges of words and of the gaps. -/
theorem witness_port_ranges :
    (7 < 8 ∧ 3 < 4 ∧ 59 < 60 ∧ 255 < 256) ∧ 4 * 255 < Config.dbufBytes
    ∧ (4 * (addrOf 0x02c).toNat = 0x02c ∧ 4 * (addrOf 0x03c).toNat = 0x03c ∧ 4 * (addrOf 0x070).toNat = 0x070
      ∧ 4 * (addrOf 0x0fc).toNat = 0x0fc ∧ 4 * (addrOf 0x1f0).toNat = 0x1f0 ∧ 4 * (addrOf 0x3fc).toNat = 0x3fc
      ∧ 4 * (addrOf 0x800).toNat = 0x800 ∧ 4 * (addrOf 0xffc).toNat = 0xffc ∧ 4 * (addrOf 0x014).toNat = 0x014
      ∧ 4 * (addrOf 0x004).toNat = 0x004 ∧ 4 * (addrOf 0x060).toNat = 0x060)
    ∧ 0x1000 + Config.dbufBytes ≤ 4 * (addrOf 0x102000).toNat := by
  have h := dbufBytes_ge
  have h' := dbufBytes_le
  exact ⟨by decide, by omega, by decide, by rw [show 4 * (addrOf 0x102000).toNat = 0x102000 by decide]; omega⟩

/-- PortWordsHoldTheirByteLanes: the last byte of each array. -/
theorem witness_lanes : 31 < 32 ∧ 15 < 16 ∧ 239 < 240 ∧ 1023 < 1024 ∧ Config.dbufBytes - 1 < Config.dbufBytes := by
  have h := dbufBytes_ge
  exact ⟨by decide, by decide, by decide, by decide, by omega⟩

/-- ReadsGiveTheLatestWrite and DataWritesAreIdempotentAndCommandsAreNot: writes to a register, to `KEY` and to `DBUF`, at the
ends of their ranges, and another address. -/
theorem witness_data_writes :
    addrOf 0x010 ≠ cmdAddr ∧ portWrite (addrOf 0x010) 5 ready = .next { ready with klen := 5 }
    ∧ addrOf 0x05c ≠ addrOf 0x010
    ∧ (0x008 ≤ 4 * (addrOf 0x008).toNat ∧ 4 * (addrOf 0x010).toNat < 0x014)
    ∧ (0x040 ≤ 4 * (addrOf 0x040).toNat ∧ 4 * (addrOf 0x05c).toNat < 0x060)
    ∧ (0x1000 ≤ 4 * (addrOf 0x1000).toNat ∧ 4 * (addrOf 0x13fc).toNat < 0x1000 + Config.dbufBytes)
    ∧ applyEvent (.read (addrOf 0x010)) ready = .next { ready with rdata := some 0 } := by
  have h := dbufBytes_ge
  exact ⟨by decide, rfl, by decide, by decide, by decide,
    ⟨by decide, by rw [show 4 * (addrOf 0x13fc).toNat = 0x13fc by decide]; omega⟩, rfl⟩

/-- TheRoundConstantsAreTheDoublingRecurrence: both ends, and the first constant of the second form. -/
theorem witness_rcon : (1 ≤ 1 ∧ 1 ≤ 10) ∧ (1 ≤ 10 ∧ 10 ≤ 10) ∧ rcon 9 = 0x1b := by decide

/-! ### Witnesses: EXTRACT -/

/-- What `cellsFrom` holds at each index. -/
theorem cellsFrom_get (l : List Byte) (a i : Nat) (h : a ≤ i) : Memory.get (cellsFrom a l) i = l[i - a]? := by
  induction l generalizing a with
  | nil => simp [cellsFrom, Memory.get]
  | cons b l ih =>
    simp only [cellsFrom, Memory.get]
    by_cases hi : a = i
    · subst hi; simp
    · rw [if_neg hi, ih (a + 1) (by omega)]
      have : i - a = (i - (a + 1)) + 1 := by omega
      rw [this, List.getElem?_cons_succ]

/-- The carrier of a state built by `carrying`. -/
theorem carrying_carrier (c : List Byte) (h : c.length < 2 ^ 32) : (carrying c).carrier = c := by
  have hl : (carrying c).dlen.toNat = c.length := by
    show (BitVec.ofNat 32 c.length).toNat = _
    rw [BitVec.toNat_ofNat, Nat.mod_eq_of_lt h]
  apply List.ext_getElem
  · simp [State.carrier, State.dbufBytes, hl]
  · intro i h1 h2
    simp only [State.carrier, State.dbufBytes, List.getElem_map, List.getElem_range, State.dbufByte]
    rw [show (carrying c).dbuf = cellsFrom 0 c from rfl, cellsFrom_get c 0 i (by omega)]
    simp [h2]

/-- ExtractCommandStoresTheKey: `DLEN` just above `DBUF_BYTES` and at it, a carrier that gives a key and one that fails. -/
theorem witness_extract :
    ready.mode = .idle
    ∧ Config.dbufBytes < (BitVec.ofNat 32 (Config.dbufBytes + 1) : Word).toNat
    ∧ (BitVec.ofNat 32 Config.dbufBytes : Word).toNat ≤ Config.dbufBytes
    ∧ ((carrying carrierV7).mode = .idle ∧ (carrying carrierV7).dlen.toNat ≤ Config.dbufBytes
      ∧ extractKey (carrying carrierV7).carrier = .ok (Vector.replicate 16 0))
    ∧ extractKey (carrying (ascii "YWIwY")).carrier = .error .carrierFormat := by
  have h := dbufBytes_ge
  have h' := dbufBytes_le
  refine ⟨rfl, by rw [BitVec.toNat_ofNat]; omega, by rw [BitVec.toNat_ofNat]; omega, ⟨rfl, ?_, ?_⟩, by decide +kernel⟩
  rotate_left
  · rw [carrying_carrier _ (by decide +kernel)]; exact test_extract_v7
  have : (carrying carrierV7).dlen.toNat = 512 := by decide +kernel
  omega

/-- ExtractChecksItsStagesInOrder: a carrier for each stage. -/
theorem witness_extract_stages :
    base64Decode (ascii "YW-w") = none
    ∧ (∃ d, base64Decode [] = some d ∧ (tokens d).length ≠ 128)
    ∧ (∃ d, base64Decode (rep 127 (ascii "YWIw") ++ ascii "YWI1") = some d ∧ (tokens d).length = 128
        ∧ ∃ t ∈ tokens d, tokenBit t = none)
    ∧ ∃ d, base64Decode carrierV7 = some d ∧ (tokens d).length = 128 ∧ ∀ t ∈ tokens d, tokenBit t ≠ none := by
  refine ⟨by decide +kernel, ⟨[], rfl, by decide⟩, ⟨rep 127 (ascii "ab0") ++ ascii "ab5", ?_, ?_, ?_⟩,
    ⟨rep 128 (ascii "ab0"), ?_, ?_, ?_⟩⟩ <;> decide +kernel

/-- MalformedCarriersFail: a length of 1 above a multiple of 4, a foreign byte, and a carrier that decodes; `=` in a group that
is not the last, in position 0 and 1, and in position 2 before a character. -/
theorem witness_malformed :
    (ascii "YWIwY").length % 4 = 1
    ∧ (∃ x ∈ ascii "YW-w", base64Value x = none ∧ x ≠ padChar)
    ∧ base64Decode (ascii "YTA") = some (ascii "a0")
    ∧ (ascii "YWIw").length % 4 = 0 ∧ (0x3d : Byte) ∈ ascii "YTA=" ∧ ascii "YWIw" ≠ []
    ∧ ascii "=TA=" = [0x3d, 0x54, 0x41, 0x3d] ∧ ascii "Y===" = [0x59, 0x3d, 0x3d, 0x3d]
    ∧ (ascii "YT=A" = [0x59, 0x54, 0x3d, 0x41] ∧ (0x41 : Byte) ≠ 0x3d) := by decide

/-- CarrierGroupsDecodeByTheTable: the characters of one group have values, and the examples of R132, with discarded low bits that are not 0. -/
theorem witness_groups :
    base64Value 0x59 = some 24 ∧ base64Value 0x57 = some 22 ∧ base64Value 0x49 = some 8 ∧ base64Value 0x77 = some 48
    ∧ base64Decode (ascii "YWIw") = some (ascii "ab0") ∧ base64Decode (ascii "YTB=") = some (ascii "a0")
    ∧ base64Decode (ascii "YX==") = some (ascii "a") := by decide

/-- TokensAreRunsEndedByOneDigit and TokenBitComparesTheIndexedByte: a run, a digit, and each range of the digit's value. -/
theorem witness_tokens :
    isDigit 0x39 = true ∧ ascii "ab" ≠ [] ∧ (∀ x ∈ ascii "ab", isDigit x = false)
    ∧ ascii "cd3" ∈ tokens (ascii "ab12cd3e")
    ∧ (isDigit 0x33 = true ∧ (ascii "ab").length + 1 ≤ digitValue 0x33)
    ∧ (isDigit 0x32 = true ∧ digitValue 0x32 < (ascii "ab").length + 1 ∧ digitValue 0x32 = (ascii "ab").length)
    ∧ (isDigit 0x31 = true ∧ digitValue 0x31 = (ascii "ab").length - 1) := by decide

/-- KeyBitsComeFromTheirTokens. -/
theorem witness_key_bits : (List.replicate 128 true).length = 128 := List.length_replicate

/-- HostExtractKeyComputesTheFunction: an idle core and carriers that the buffer holds, one with a key and one that fails. -/
theorem witness_host_extract :
    ready.Inv ∧ ready.mode = .idle ∧ carrierV7.length ≤ Config.dbufBytes ∧ extractKey carrierV7 = .ok (Vector.replicate 16 0)
    ∧ (ascii "YWIwY").length ≤ Config.dbufBytes ∧ extractKey (ascii "YWIwY") = .error .carrierFormat := by
  have h := dbufBytes_ge
  have : carrierV7.length = 512 := by decide +kernel
  have : (ascii "YWIwY").length = 5 := by decide
  exact ⟨witness_ready_inv, rfl, by omega, test_extract_v7, by omega, by decide +kernel⟩

/-! ### Witnesses: EXPAND -/

/-- ExpandCommandWritesTheSchedule: the lengths on both sides of each legal one, and a key. -/
theorem witness_expand :
    keyed.mode = .idle ∧ keyed.klen.toNat = 16
    ∧ (∀ n ∈ [0, 15, 17, 23, 25, 31, 33], n ≠ 16 ∧ n ≠ 24 ∧ n ≠ 32)
    ∧ expandKey keyed.rawKey = some (10, v10) := by
  refine ⟨rfl, by decide, by decide, by decide +kernel⟩

/-- ScheduleSizesFollowTheKeyLength and ScheduleWordsObeyTheRecurrence: a schedule, and word indices of the three kinds, the
middle one only for a 32-byte key. -/
theorem witness_schedule :
    expandKey keyV1 = some (10, v10)
    ∧ (4 ≤ 4 ∧ 4 < 4 * (10 + 1) ∧ 4 % 4 = 0) ∧ (43 < 4 * (10 + 1) ∧ 43 % 4 ≠ 0 ∧ ¬ (6 < 4 ∧ 43 % 4 = 4))
    ∧ ∃ sched, expandKey (List.replicate 32 0) = some (14, sched) ∧ 12 % 8 ≠ 0 ∧ 6 < 8 ∧ 12 % 8 = 4 :=
  ⟨test_expand_v10, by decide, by decide, _, rfl, by decide, by decide, by decide⟩

/-- ScheduleDependsOnTheRawKeyAlone: two cores that agree on the key and differ in the rest of `KEY`. -/
theorem witness_same_raw_key :
    keyed.mode = .idle ∧ State.mode { keyed with key := padTo 32 (keyV1 ++ [1]) } = .idle
    ∧ keyLengthOk keyed.klen.toNat = true
    ∧ (∀ i < keyed.klen.toNat, byteAt keyed.key i = byteAt (padTo 32 (keyV1 ++ [1])) i)
    ∧ byteAt keyed.key 16 ≠ byteAt (padTo 32 (keyV1 ++ [1])) 16 := by
  refine ⟨rfl, rfl, by decide, by decide +kernel, by decide +kernel⟩

/-! ### Witnesses: DECBLK and the block engine -/

/-- DecblkCommandDecryptsOneBlock: with a schedule and without. -/
theorem witness_decblk :
    ready.mode = .idle ∧ ready.sv = true ∧ State.reset.mode = .idle ∧ State.reset.sv = false := ⟨rfl, rfl, rfl, rfl⟩

/-- DecBlockRunsItsRoundsInOrder and DecBlockInvertsTheForwardCipher: the smallest round count, and a schedule. -/
theorem witness_block : (1 : Nat) ≤ 1 ∧ expandKey keyV1 = some (10, v10) := ⟨by decide, test_expand_v10⟩

/-- The forward cipher on V1's plaintext gives V1's ciphertext. -/
theorem test_forward_cipher_v1 :
    encBlock (padTo 16 (num 16 0x00112233445566778899aabbccddeeff)) 10 v10
      = padTo 16 (num 16 0x69c4e0d86a7b0430d8cdb78070b4c55a) := by decide +kernel

/-! ### Witnesses: SBEGIN, SNEXT and the stream function -/

/-- SbeginCommandBeginsTheStream: an idle core for each outcome, in the order of the checks. -/
theorem witness_sbegin :
    (next? (exec (.sbegin true) { headed 37 [0x64, 0, 0, 0] with klen := 17 })).map State.errcode
      = some (some .invalidKeyLength)
    ∧ (next? (exec (.sbegin false) State.reset)).map State.errcode = some (some .noSchedule)
    ∧ (next? (exec (.sbegin false) (headed 19 [0, 0, 0, 0]))).map State.errcode = some (some .streamTooShort)
    ∧ (next? (exec (.sbegin false) (headed 37 [0x64, 0, 0, 0]))).map State.errcode = some (some .invalidStreamLength)
    ∧ (next? (exec (.sbegin false) (headed 36 [0x11, 0, 0, 0]))).map State.errcode
      = some (some .declaredLengthExceedsCiphertext)
    ∧ (next? (exec (.sbegin false) (headed 36 [0x10, 0, 0, 0]))).map State.mode = some .stream
    ∧ (next? (exec (.sbegin false) (headed 20 [0, 0, 0, 0]))).map (fun t => (t.mode, t.last)) = some (.idle, true) := by
  refine ⟨?_, ?_, ?_, ?_, ?_, ?_, ?_⟩ <;> decide +kernel

/-- SnextCommandDecryptsOneWindow: the last block of a stream, and a full window of a longer one. -/
theorem witness_snext :
    ((streaming 16 16).Inv ∧ (streaming 16 16).mode = .stream ∧ min 1024 (streaming 16 16).remct.toNat = 16)
    ∧ (streaming 2064 2050).Inv ∧ (streaming 2064 2050).mode = .stream
    ∧ min 1024 (streaming 2064 2050).remct.toNat = 1024 :=
  ⟨⟨witness_streaming_inv.1, rfl, by decide⟩, witness_streaming_inv.2, rfl, by decide⟩

/-- The stream of V8 and its plaintext. -/
def streamV8 : List Byte := List.replicate 16 0 ++ [0x10, 0, 0, 0] ++ num 16 0xc8a331ff8edd3db175e1545dbefb760b

/-- StreamOutputHasTheDeclaredLength, HostDecryptStreamComputesTheFunction: the stream of V8 under the key of zeros, an empty
stream, and streams that fail. -/
theorem witness_decrypt_stream :
    20 ≤ streamV8.length ∧ streamV8.length < 2 ^ 32
    ∧ (expandKey (List.replicate 16 0)).map (fun p => (decryptStream streamV8 p.1 p.2).toOption)
      = some (some (num 16 0x00112233445566778899aabbccddeeff))
    ∧ (decryptStream (List.replicate 20 0) 10 v10).toOption = some []
    ∧ (decryptStream (List.replicate 37 0) 10 v10).toOption = none
    ∧ (decryptStream (List.replicate 16 0 ++ [1, 0, 0, 0]) 10 v10).toOption = none := by
  refine ⟨by decide, by decide, ?_, ?_, ?_, ?_⟩ <;> decide +kernel

/-- ChangesReachOnlyTheirOwnBlocks: two IVs before one stream that decrypts, and a block list with a block to change. -/
theorem witness_changes :
    (List.replicate 16 (0 : Byte)).length = 16 ∧ (List.replicate 16 (1 : Byte)).length = 16
    ∧ ((decryptStream (List.replicate 16 0 ++ ([0x10, 0, 0, 0] ++ List.replicate 16 0)) 10 v10).toOption).isSome = true
    ∧ 0 < [(Vector.replicate 16 0 : Block), Vector.replicate 16 1].length
    ∧ ((cbcBlocks 10 v10 (Vector.replicate 16 0) [Vector.replicate 16 0, Vector.replicate 16 1])[1]?).isSome = true := by
  refine ⟨by decide, by decide, by decide +kernel, by decide, by decide +kernel⟩

/-- HostDecryptStreamComputesTheFunction: idle cores that meet the invariants, with a schedule and without; keys that expand
and do not, given and in place; a stream shorter than its header. -/
theorem witness_host_stream :
    (ready.Inv ∧ ready.mode = .idle ∧ ready.sv = true)
    ∧ (keyed.Inv ∧ keyed.mode = .idle ∧ keyed.sv = false)
    ∧ ((List.replicate 17 (0 : Byte)).length < 2 ^ 32 ∧ expandKey (List.replicate 17 0) = none)
    ∧ (keyV1.length < 2 ^ 32 ∧ expandKey keyV1 = some (10, v10))
    ∧ expandKey ready.rawKey = none ∧ expandKey keyed.rawKey = some (10, v10)
    ∧ (List.replicate 19 (0 : Byte)).length < Config.headerBytes ∧ Config.headerBytes ≤ streamV8.length :=
  ⟨⟨witness_ready_inv, rfl, rfl⟩, ⟨witness_keyed_inv, rfl, rfl⟩, by decide +kernel, by decide +kernel, by decide +kernel,
    by decide +kernel, by decide, by decide⟩

/-! ### Witnesses: the whole machine -/

/-- OnlyAnExpansionChangesTheSchedule: a step that changes the schedule, by EXPAND and by reset. -/
theorem witness_schedule_changes :
    (next? (step (withPort keyed [cmdLine .expand]))).map (fun t => (t.sv, t.nr)) = some (true, 10)
    ∧ (next? (step (withPort ready [.reset]))).map (fun t => (t.sv, t.nr)) = some (false, 0) := by
  refine ⟨by decide +kernel, by decide +kernel⟩

/-- CommandsChangeOnlyTheirOwnState, EveryCommandWritesLastAndOlen: a command with a next state, outside ERROR and, for CLR,
in it. -/
theorem witness_commands :
    ready.mode ≠ .error ∧ (∃ t, exec .decblk ready = .next t) ∧ exec .clr failed = .next (clearCall failed) :=
  ⟨by decide, ⟨_, rfl⟩, rfl⟩

/-- StateChangesOnlyAsTheTableSays: the states and commands of its clauses. -/
theorem witness_transitions :
    (headed 20 [0, 0, 0, 0]).mode = .idle ∧ (headed 20 [0, 0, 0, 0]).slen.toNat = 20
    ∧ (headed 36 [0x10, 0, 0, 0]).slen.toNat ≠ 20
    ∧ (next? (exec .snext (streaming 2064 2050))).map (fun t => (t.remct, t.mode)) = some (1040, .stream)
    ∧ (next? (exec .snext (streaming 16 16))).map (fun t => (t.remct, t.mode)) = some (0, .idle)
    ∧ (step (withPort ready [.reset]) = .next { State.reset with draw := 1 } ∧ (withPort failed [.reset]).mode ≠ .idle) := by
  refine ⟨rfl, by decide, by decide, by decide +kernel, by decide +kernel, rfl, by decide⟩

end Sys2Proof.Tests
end

section
/-! PROOFS. What every command that is not ignored leaves in `LAST` and `OLEN` (10_state.md R27, R33). -/

namespace Sys2Proof.Machine

/-! ### What the completed commands leave in `STATE`, `LAST`, `OLEN` and `REMCT` -/

@[simp] theorem storeKey_mode (r : Block) (s : State) : (storeKey r s).mode = s.mode := rfl
@[simp] theorem storeKey_last (r : Block) (s : State) : (storeKey r s).last = false := rfl
@[simp] theorem storeKey_olen (r : Block) (s : State) : (storeKey r s).olen = 0 := rfl

/-- A stream command that does not fail leaves `STATE` IDLE or STREAM. -/
theorem streamFlags_mode_ne_error (n : Word) (s : State) : (streamFlags n s).mode ≠ .error := by
  rw [streamFlags_mode]
  split <;> decide

@[simp] theorem beginStream_mode_ne_error (n : Word) (s : State) : (beginStream n s).mode ≠ .error :=
  streamFlags_mode_ne_error n _
@[simp] theorem beginStream_remct (n : Word) (s : State) : (beginStream n s).remct = n := by rw [beginStream_eq]
@[simp] theorem beginStream_last (n : Word) (s : State) : (beginStream n s).last = decide (n = 0) := by
  rw [beginStream_eq]
@[simp] theorem beginStream_olen (n : Word) (s : State) : (beginStream n s).olen = 0 := by rw [beginStream_eq]

@[simp] theorem snextRule_mode_ne_error (s : State) : (snextRule s).mode ≠ .error := streamFlags_mode_ne_error _ _
@[simp] theorem snextRule_last (s : State) : (snextRule s).last = decide ((snextRule s).remct = 0) := by
  rw [snextRule_eq]
@[simp] theorem snextRule_olen (s : State) :
    (snextRule s).olen = BitVec.ofNat 32 (min s.rempt.toNat (min 1024 s.remct.toNat)) := by
  rw [snextRule_eq]
  rfl

/-! ### Every command that is not ignored -/

/-- Settles O52: error entry, CLR and the commands outside the stream write constants; SBEGIN and SNEXT set `LAST` by the
`REMCT` they leave. -/
theorem everyCommandWritesLastAndOlen : Obligations.EveryCommandWritesLastAndOlen := by
  intro i s t hs h
  rcases exec_next_cases i s t h with ⟨he, hi, -⟩ | ⟨rfl, rfl⟩ | ⟨-, -, e, rfl, -⟩ | ⟨hm, rfl, r, -, -, rfl⟩
    | ⟨hm, rfl, -, rfl⟩ | ⟨hm, rfl, -, rfl⟩ | ⟨-, x, rfl, -, rfl⟩ | ⟨-, rfl, rfl⟩
  · exact absurd hs (by simp [he, hi]) -- ignored in ERROR
  · simp -- CLR
  · simp -- an error
  · simp [hm] -- EXTRACT
  · simp [hm] -- EXPAND
  · simp [hm] -- DECBLK
  · simp -- SBEGIN: `beginStream_last`, `beginStream_remct`
  · simp -- SNEXT: `snextRule_last`, `snextRule_olen`

end Sys2Proof.Machine
end

section
/-! PROOFS. The digit bytes and their values (11_constants.md R70). -/

namespace Sys2Proof.Machine

/-- Being a digit is a range of the byte's number (R70). -/
theorem isDigit_iff (b : Byte) : isDigit b = true ↔ 0x30 ≤ b.toNat ∧ b.toNat ≤ 0x39 := by
  simp [isDigit]

theorem digitValue_ofNat {n : Nat} (h : n < 10) : digitValue (BitVec.ofNat 8 (0x30 + n)) = n := by
  have hlt : 0x30 + n < 2 ^ 8 := by omega
  rw [digitValue, BitVec.toNat_ofNat, Nat.mod_eq_of_lt hlt, Nat.add_sub_cancel_left]

/-- Settles O57: a byte lies in the digits' range exactly when it is one of the ten; adding 0x30 to a value below ten does
not wrap. -/
theorem digitBytesAreTheTenCharacters : Obligations.DigitBytesAreTheTenCharacters := by
  refine ⟨fun b => ?_, fun n => digitValue_ofNat⟩
  rw [isDigit_iff]
  simp only [List.mem_cons, List.not_mem_nil, or_false]
  bv_omega

end Sys2Proof.Machine
end

section
/-! PROOFS. The port's arrays byte by byte, and what a write to each offset does (20_memory.md R81, R87, R88). -/

namespace Sys2Proof.Machine

/-! ### The port at an offset -/

/-- A read at an offset answers what the target of that offset reads as. -/
theorem portRead_addrOf {off : Nat} {t : Target} (s : State) (h4 : off % 4 = 0) (h : off < 2 ^ 32)
    (ht : targetOf off = t) : portRead (addrOf off) s = readTarget t s := by
  rw [portRead, offsetOf_addrOf off h4 h, ht]

/-- A write at an offset whose target is not CMD is the write of that target. -/
theorem portWrite_addrOf {off : Nat} {t : Target} (v : Word) (s : State) (h4 : off % 4 = 0) (h : off < 2 ^ 32)
    (ht : targetOf off = t) (hc : t ≠ .cmd) : portWrite (addrOf off) v s = .next (writeTarget t v s) := by
  have hne : addrOf off ≠ cmdAddr := by
    rw [ne_eq, ← targetOf_eq_cmd, offsetOf_addrOf off h4 h, ht]
    exact hc
  rw [portWrite_data _ v s hne, offsetOf_addrOf off h4 h, ht]

/-! ### Byte lanes -/

/-- Byte `i` is lane `i mod 4` of word `i / 4`, written as the bits it is (R81). -/
theorem extractLsb'_wordAt (f : Nat → Byte) (i : Nat) :
    (wordAt f (i / 4)).extractLsb' (8 * (i % 4)) 8 = f i := by
  have h := lane_wordAt f (i / 4) (i % 4) (by omega)
  rwa [Nat.div_add_mod] at h

/-- Where the word a read answers at `base + 4 * (i / 4)` is word `i / 4` of an array, its lane `i mod 4` is byte `i`. -/
theorem extractLsb'_portRead {base i : Nat} {t : Target} {f : Nat → Byte} (s : State) (h4 : base % 4 = 0)
    (h : base + 4 * (i / 4) < 2 ^ 32) (ht : targetOf (base + 4 * (i / 4)) = t)
    (hw : readTarget t s = wordAt f (i / 4)) :
    (portRead (addrOf (base + 4 * (i / 4))) s).extractLsb' (8 * (i % 4)) 8 = f i := by
  rw [portRead_addrOf s (by omega) h ht, hw]
  exact extractLsb'_wordAt f i

/-- Settles O20: at each array's base the target of `base + 4 * (i / 4)` is the array's word `i / 4`. -/
theorem portWordsHoldTheirByteLanes : Obligations.PortWordsHoldTheirByteLanes := by
  intro s i
  have hle := dbufBytes_le
  refine ⟨fun hi => ?key, fun hi => ?chain, fun hi => ?rks, fun hi => ?obuf, fun hi => ?dbuf⟩
  case key => exact extractLsb'_portRead s rfl (by omega) (targetOf_key _ (by omega)) rfl
  case chain => exact extractLsb'_portRead s rfl (by omega) (targetOf_chain _ (by omega)) rfl
  case rks => exact extractLsb'_portRead s rfl (by omega) (targetOf_rks _ (by omega)) rfl
  case obuf => exact extractLsb'_portRead s rfl (by omega) (targetOf_obuf _ (by omega)) rfl
  case dbuf => exact extractLsb'_portRead s rfl (by omega) (targetOf_dbuf _ (by omega)) rfl

/-! ### Writes -/

/-- `DBUF` after a word is written to it (R88). -/
theorem dbufByte_setBytes_lanes (s : State) (k : Nat) (v : Word) (i : Nat) :
    State.dbufByte { s with dbuf := s.dbuf.setBytes (4 * k) (lanes v) } i
      = if i / 4 = k then lane v (i % 4) else s.dbufByte i := by
  rw [dbufByte_with_dbuf, get_setBytes_lanes]
  split
  · rfl
  · rfl

/-- A write outside the ranges of DLEN, SLEN, KLEN, `KEY` and `DBUF` leaves the state as it is (R88). -/
theorem writeTarget_outside_writable {off : Nat} (v : Word) (s : State) (h4 : off % 4 = 0)
    (h : ¬ ((0x008 ≤ off ∧ off < 0x014) ∨ (0x040 ≤ off ∧ off < 0x060)
      ∨ (0x1000 ≤ off ∧ off < 0x1000 + Config.dbufBytes))) : writeTarget (targetOf off) v s = s := by
  have hrow := targetOf_cases off h4
  cases ht : targetOf off
  -- the row of a writable target places the offset in one of the three ranges
  case dlen | slen | klen =>
    simp only [ht, reduceCtorEq, and_false, exists_false, false_or, or_false, and_true] at hrow
    omega
  case key | dbuf =>
    simp only [ht, reduceCtorEq, and_false, exists_false, false_or, or_false] at hrow
    obtain ⟨k, hk, ho, -⟩ := hrow
    omega
  all_goals rfl -- `writeTarget` answers `s` for a read-only or unmapped target

/-- Settles O19: each writable offset has its target, whose write is `writeTarget`'s record update; the other offsets lie
outside the writable ranges. -/
theorem portWritesChangeOnlyWhatTheyName : Obligations.PortWritesChangeOnlyWhatTheyName := by
  intro s v
  have hle := dbufBytes_le
  refine ⟨rfl, rfl, rfl, fun k hk => ?key, fun k hk => ?dbuf, rfl, fun a ha => ?ignored⟩
  case key =>
    refine ⟨setWord s.key k v,
      portWrite_addrOf v s (by omega) (by omega) (targetOf_key k hk) nofun, fun i hi => ?_⟩
    rw [byteAt_setWord, if_pos hi, lane]
  case dbuf =>
    exact ⟨s.dbuf.setBytes (4 * k) (lanes v),
      portWrite_addrOf v s (by omega) (by omega) (targetOf_dbuf k hk) nofun, dbufByte_setBytes_lanes s k v⟩
  case ignored =>
    have hne : a ≠ cmdAddr := by
      rintro rfl
      have h0 : cmdAddr.toNat = 0 := rfl
      omega
    rw [portWrite_data a v s hne, writeTarget_outside_writable v s (offsetOf_mod_four a) (by rw [offsetOf]; omega)]

end Sys2Proof.Machine
end

section
/-! PROOFS. The decoder's equation with the encoder, and the legal words of the table (30_encoding.md R113). -/

namespace Sys2Proof

/-! ### The decoder and the encoder -/

theorem decode_encode (i : Instr) : decode (encode i) = .ok i := by
  cases i with
  | extract | expand | decblk | snext | clr => rfl
  | sbegin x => cases x <;> rfl

/-- A word decodes to a command exactly when it is the command's word. -/
theorem decode_eq_ok_iff (w : Word) (i : Instr) : decode w = .ok i ↔ w = encode i := by
  constructor
  · intro h
    rw [encode, ← fieldsOf_of_decode w i h, wordOf_fieldsOf]
  · rintro rfl
    exact decode_encode i

/-! ### The rows of the table -/

/-- The seven commands, in the order of the table's words (R113). -/
def commands : List Instr := [.extract, .expand, .decblk, .sbegin false, .sbegin true, .snext, .clr]

@[simp] theorem mem_commands (i : Instr) : i ∈ commands := by
  cases i with
  | extract | expand | decblk | snext | clr => decide
  | sbegin x => cases x <;> decide

theorem exists_decode_eq_ok_iff (w : Word) : (∃ i, decode w = .ok i) ↔ w ∈ commands.map encode := by
  simp only [decode_eq_ok_iff, List.mem_map, mem_commands, true_and, eq_comm (a := w)]

/-- The match of a row whose mask has every bit set. -/
theorem decode_eq_ok_iff_full_mask (w : Word) (i : Instr) : decode w = .ok i ↔ w &&& 0xffffffff = encode i := by
  have hmask : w &&& 0xffffffff = w := BitVec.and_allOnes
  rw [decode_eq_ok_iff, hmask]

/-- A word is its bits under SBEGIN's mask and the bit `X`. -/
theorem and_sbegin_mask_or_x (w : Word) : w &&& 0xfffffeff ||| w &&& BitVec.twoPow 32 8 = w := by
  have hmasks : (0xfffffeff : Word) ||| BitVec.twoPow 32 8 = BitVec.allOnes 32 := by decide
  rw [← BitVec.and_or_distrib_left, hmasks, BitVec.and_allOnes]

/-- The match of SBEGIN's row, whose mask leaves the bit `X` free. -/
theorem exists_decode_eq_sbegin_iff (w : Word) :
    (∃ x, decode w = .ok (.sbegin x)) ↔ w &&& 0xfffffeff = 0x00000004 := by
  simp only [decode_eq_ok_iff]
  constructor
  · rintro ⟨x, rfl⟩
    exact (Laws.TableRow.sbegin x).2
  · intro h
    refine ⟨w.getLsbD 8, ?_⟩
    have hw := and_sbegin_mask_or_x w
    rw [h, BitVec.and_twoPow] at hw
    cases hx : w.getLsbD 8 with
    | false => rw [← hw, hx]; rfl
    | true => rw [← hw, hx]; rfl

/-- Settles O9: the seven words are those of the seven commands, and a word decodes to a command exactly when it is its
word. -/
theorem theLegalWordsAreTheSevenOfTheTable : Obligations.TheLegalWordsAreTheSevenOfTheTable := by
  refine ⟨rfl, rfl, rfl, rfl, rfl, rfl, rfl, fun w => ⟨exists_decode_eq_ok_iff w, ?_⟩⟩
  have hfull := decode_eq_ok_iff_full_mask w
  exact ⟨hfull .extract, hfull .expand, hfull .decblk, exists_decode_eq_sbegin_iff w, hfull .snext, hfull .clr⟩

end Sys2Proof
end

section
/-! PROOFS. The four reasons for which a word is no command (30_encoding.md R115). -/

namespace Sys2Proof

/-! ### The fields of a word as its bits -/

theorem fieldsOf_op_toNat (w : Word) : (fieldsOf w).op.toNat = (w &&& 0xff).toNat := by
  have hmask : (w &&& 0xff).toNat = w.toNat % 2 ^ 8 := Nat.and_two_pow_sub_one_eq_mod w.toNat 8
  rw [hmask]
  simp [fieldsOf]

theorem fieldsOf_rsv_eq_zero_iff (w : Word) : (fieldsOf w).rsv = 0 ↔ w >>> 9 = 0 := by
  have hlt : w.toNat >>> 9 < 2 ^ 23 := by
    rw [Nat.shiftRight_eq_div_pow]
    have := w.isLt
    omega
  rw [← BitVec.toNat_inj, ← BitVec.toNat_inj, BitVec.toNat_ushiftRight, fieldsOf, BitVec.extractLsb'_toNat,
    Nat.mod_eq_of_lt hlt]
  rfl

/-! ### The legal words -/

/-- The three checks on the fields of a word. -/
theorem CmdFields.wellFormed_iff (f : CmdFields) :
    f.wellFormed = true ↔ (1 ≤ f.op.toNat ∧ f.op.toNat ≤ 6) ∧ (f.x = true → f.op = 0x04) ∧ f.rsv = 0 := by
  cases hx : f.x <;> simp [wellFormed, opLegal, xLegal, rsvLegal, hx, and_assoc]

theorem Instr.wellFormed_eq_true (i : Instr) : i.wellFormed = true := by
  cases i with
  | extract | expand | decblk | snext | clr => rfl
  | sbegin x => cases x <;> rfl

theorem instrOf_isSome {op : BitVec 8} (x : Bool) (h1 : 1 ≤ op.toNat) (h6 : op.toNat ≤ 6) : (instrOf op x).isSome := by
  have hop : op.toNat = 1 ∨ op.toNat = 2 ∨ op.toNat = 3 ∨ op.toNat = 4 ∨ op.toNat = 5 ∨ op.toNat = 6 := by omega
  rcases hop with h | h | h | h | h | h <;> simp [instrOf, h]

/-- A word is a command exactly when its fields are legal. -/
theorem exists_decode_eq_ok_iff_wellFormed (w : Word) :
    (∃ i, decode w = .ok i) ↔ (fieldsOf w).wellFormed = true := by
  constructor
  · rintro ⟨i, h⟩
    rw [fieldsOf_of_decode w i h]
    exact i.wellFormed_eq_true
  · intro h
    simp only [CmdFields.wellFormed, CmdFields.opLegal, Bool.and_eq_true, decide_eq_true_eq] at h
    obtain ⟨⟨⟨h1, h6⟩, hx⟩, hr⟩ := h
    obtain ⟨i, hi⟩ := Option.isSome_iff_exists.1 (instrOf_isSome (fieldsOf w).x h1 h6)
    exact ⟨i, by simp [decode, hx, hr, hi]⟩

/-- The four reasons of R115: each is the failure of a check on the word's fields. -/
theorem forall_decode_ne_ok_iff (w : Word) :
    (∀ i, decode w ≠ .ok i) ↔
      (w &&& 0xff = 0 ∨ 7 ≤ (w &&& 0xff).toNat ∨ w >>> 9 ≠ 0 ∨ (w.getLsbD 8 = true ∧ w &&& 0xff ≠ 0x04)) := by
  have hop0 : w &&& 0xff = 0 ↔ (fieldsOf w).op.toNat = 0 := by rw [fieldsOf_op_toNat, ← BitVec.toNat_inj]; rfl
  have hop4 : w &&& 0xff = 0x04 ↔ (fieldsOf w).op = 0x04 := by
    rw [← BitVec.toNat_inj, ← BitVec.toNat_inj, fieldsOf_op_toNat]; rfl
  have hx : w.getLsbD 8 = (fieldsOf w).x := rfl
  rw [← not_exists, exists_decode_eq_ok_iff_wellFormed, CmdFields.wellFormed_iff, hop0, ← fieldsOf_op_toNat, ne_eq,
    ← fieldsOf_rsv_eq_zero_iff, ne_eq, hop4, hx]
  grind -- both sides are the three checks of `wellFormed_iff`, negated

end Sys2Proof

namespace Sys2Proof.Machine

/-! ### A write to CMD -/

theorem writeCmd_of_decode {w : Word} {i : Instr} (s : State) (h : decode w = .ok i) : writeCmd w s = exec i s := by
  rw [writeCmd, h]

theorem writeCmd_of_illegal {w : Word} (s : State) (h : ∀ i, decode w ≠ .ok i) : writeCmd w s = illegalCommand s := by
  rcases writeCmd_cases w s with ⟨i, hi, -⟩ | ⟨-, hw⟩
  · exact absurd hi (h i)
  · exact hw

theorem illegalCommand_in_error {s : State} (h : s.mode = .error) : illegalCommand s = .next s := if_pos h

theorem illegalCommand_outside_error {s : State} (h : s.mode ≠ .error) :
    illegalCommand s = .next (raise .illegalCommand s) := if_neg h

/-- Settles O10: the reasons are the checks on the word's fields, negated; the rest is what an illegal word does. -/
theorem illegalWordsRaiseErrorTen : Obligations.IllegalWordsRaiseErrorTen := by
  refine fun w => ⟨forall_decode_ne_ok_iff w, fun s hill => ⟨fun he => ?outside, fun he => ?inError⟩⟩
  case outside => rw [writeCmd_of_illegal s hill, illegalCommand_outside_error he]
  case inError => rw [writeCmd_of_illegal s hill, illegalCommand_in_error he]

end Sys2Proof.Machine
end

section
/-! PROOFS. The dispatch of a command word: a command by the state it is given in, and the cases of a write to CMD
(30_encoding.md R111). -/

namespace Sys2Proof.Machine

/-! ### Acceptance -/

/-- The table of R111: CLR in every state, any other command where its rule runs. -/
theorem acceptedIn_iff (i : Instr) (m : Mode) : acceptedIn i m = true ↔ i = .clr ∨ m = homeOf i := by
  cases i with
  | clr => simp [acceptedIn]
  | extract | expand | decblk | sbegin x | snext => cases m <;> simp [acceptedIn, homeOf]

theorem exec_eq_accepted {i : Instr} (hi : i ≠ .clr) (s : State) : exec i s = accepted (homeOf i) (ruleOf i) s := by
  cases i with
  | clr => exact absurd rfl hi
  | extract | expand | decblk | sbegin x | snext => rfl

theorem exec_in_error {i : Instr} {s : State} (hi : i ≠ .clr) (he : s.mode = .error) : exec i s = .next s := by
  rw [exec_eq_accepted hi, accepted_in_error _ _ _ he]

theorem exec_of_acceptedIn {i : Instr} {s : State} (h : acceptedIn i s.mode = true) :
    exec i s = .next (ruleOf i s) := by
  rcases (acceptedIn_iff i s.mode).1 h with rfl | hm
  · exact exec_clr s
  · exact exec_at_home i s hm

theorem exec_of_not_acceptedIn {i : Instr} {s : State} (he : s.mode ≠ .error) (h : acceptedIn i s.mode = false) :
    exec i s = .next (raise .sequence s) := by
  rw [← Bool.not_eq_true, acceptedIn_iff, not_or] at h
  obtain ⟨hi, hm⟩ := h
  rw [exec_eq_accepted hi, accepted_elsewhere _ _ _ he hm]

/-! ### The cases of a write to CMD -/

/-- In ERROR a word other than CLR's is either another command or illegal, and both are ignored. -/
theorem writeCmd_in_error {w : Word} {s : State} (he : s.mode = .error) (hw : w ≠ encode .clr) :
    writeCmd w s = .next s := by
  rcases writeCmd_cases w s with ⟨i, hi, hrun⟩ | ⟨-, hrun⟩
  · have hne : i ≠ .clr := by
      rintro rfl
      exact hw ((decode_eq_ok_iff w .clr).1 hi)
    rw [hrun, exec_in_error hne he]
  · rw [hrun, illegalCommand_in_error he]

/-- Settles O13: each case of the dispatch has its lemma; `ruleOf` is the list of the commands' rules. -/
theorem commandWordsAreDispatchedInOrder : Obligations.CommandWordsAreDispatchedInOrder := by
  intro s w
  refine ⟨fun _ hw => ?clr, fun he hw => writeCmd_in_error he hw, fun he hill => ?illegal,
    fun i he hi => ⟨fun ha => ?sequence, fun ha => ?rule⟩⟩
  case clr =>
    subst hw
    exact writeCmd_of_decode s (decode_encode .clr)
  case illegal => rw [writeCmd_of_illegal s hill, illegalCommand_outside_error he]
  case sequence => rw [writeCmd_of_decode s hi, exec_of_not_acceptedIn he ha]
  case rule =>
    rw [writeCmd_of_decode s hi, exec_of_acceptedIn ha]
    cases i <;> rfl

end Sys2Proof.Machine
end

section
/-! PROOFS. The scan for tokens: what each byte does to the run read so far, and the shape of every token
(40_extract.md R133). -/

namespace Sys2Proof.Machine

/-! ### The scan, byte by byte -/

theorem tokensFrom_nil_digit {b : Byte} (d : List Byte) (hb : isDigit b = true) :
    tokensFrom [] (b :: d) = tokens d := by
  simp [tokensFrom, tokens, hb]

theorem tokensFrom_digit {run : List Byte} {b : Byte} (d : List Byte) (hr : run ≠ []) (hb : isDigit b = true) :
    tokensFrom run (b :: d) = (run ++ [b]) :: tokens d := by
  simp [tokensFrom, tokens, hr, hb]

theorem tokensFrom_nondigit {b : Byte} (run d : List Byte) (hb : isDigit b = false) :
    tokensFrom run (b :: d) = tokensFrom (run ++ [b]) d := by
  simp [tokensFrom, hb]

/-- A run of non-digits before the bytes `d` is the run read when the scan reaches `d`. -/
theorem tokens_run_append {run : List Byte} (d : List Byte) (h : ∀ x ∈ run, isDigit x = false) :
    tokens (run ++ d) = tokensFrom run d := tokensFrom_append run [] d h

/-! ### The shape of a token -/

/-- What the scan makes a token of is a non-empty run of non-digits and one digit, whatever run of non-digits it starts
with. -/
theorem exists_run_of_mem_tokensFrom {run d t : List Byte} (hr : ∀ x ∈ run, isDigit x = false)
    (ht : t ∈ tokensFrom run d) :
    ∃ r b, r ≠ [] ∧ t = r ++ [b] ∧ isDigit b = true ∧ ∀ x ∈ r, isDigit x = false := by
  induction d generalizing run with
  | nil => simp [tokensFrom] at ht
  | cons b d ih =>
    cases hb : isDigit b with
    | false =>
      have hr' : ∀ x ∈ run ++ [b], isDigit x = false :=
        List.forall_mem_append.2 ⟨hr, List.forall_mem_singleton.2 hb⟩
      rw [tokensFrom_nondigit run d hb] at ht
      exact ih hr' ht
    | true =>
      by_cases hnil : run = []
      · subst hnil
        rw [tokensFrom_nil_digit d hb] at ht
        exact ih hr ht
      · rw [tokensFrom_digit d hnil hb, List.mem_cons] at ht
        rcases ht with rfl | ht
        · exact ⟨run, b, hnil, rfl, hb, hr⟩
        · exact ih (List.forall_mem_nil _) ht

/-- Settles O30: the first three clauses run the scan over a digit, a run with its digit, and a trailing run; the shape is
kept by every byte the scan reads. -/
theorem tokensAreRunsEndedByOneDigit : Obligations.TokensAreRunsEndedByOneDigit := by
  refine ⟨fun b d hb => tokensFrom_nil_digit d hb, fun run b d hne hr hb => ?token, fun run hr => ?trailing,
    fun d t ht => ?shape⟩
  case token => rw [tokens_run_append _ hr, tokensFrom_digit d hne hb]
  case trailing =>
    have h := tokens_run_append [] hr
    rwa [List.append_nil] at h
  case shape =>
    obtain ⟨run, b, hne, rfl, hb, hr⟩ := exists_run_of_mem_tokensFrom (List.forall_mem_nil _) ht
    have hpos : 0 < run.length := List.length_pos_iff.2 hne
    have hlen : (run ++ [b]).length = run.length + 1 := List.length_append
    exact ⟨by omega, run, b, rfl, hb, hr⟩

end Sys2Proof.Machine
end

section
/-! PROOFS. The stages of `Extract`, each with its failure, and the command EXTRACT (40_extract.md R130, R134, R138). -/

namespace Sys2Proof.Machine

/-! ### The stages of `Extract` -/

theorem extractKey_of_malformed {c : List Byte} (h : base64Decode c = none) :
    extractKey c = .error .carrierFormat := by
  simp [extractKey, h]

theorem extractKey_of_count_ne {c d : List Byte} (hd : base64Decode c = some d)
    (hn : (tokens d).length ≠ Config.tokenCount) : extractKey c = .error .invalidKeyMaterial := by
  simp [extractKey, hd, hn]

theorem extractKey_of_tokenBits_none {c d : List Byte} (hd : base64Decode c = some d)
    (hn : (tokens d).length = Config.tokenCount) (hb : tokenBits (tokens d) = none) :
    extractKey c = .error .tokenIndex := by
  simp [extractKey, hd, hn, hb]

theorem extractKey_of_tokenBits_some {c d : List Byte} {b : List Bool} (hd : base64Decode c = some d)
    (hn : (tokens d).length = Config.tokenCount) (hb : tokenBits (tokens d) = some b) :
    extractKey c = .ok (assembleKey b) := by
  simp [extractKey, hd, hn, hb]

/-- The only failures of `Extract` are those of its three checks. -/
theorem eq_of_extractKey_eq_error {c : List Byte} {e : ErrCode} (h : extractKey c = .error e) :
    e = .carrierFormat ∨ e = .invalidKeyMaterial ∨ e = .tokenIndex := by
  cases hd : base64Decode c with
  | none =>
    rw [extractKey_of_malformed hd, Except.error.injEq] at h
    exact .inl h.symm
  | some d =>
    by_cases hn : (tokens d).length = Config.tokenCount
    · cases hb : tokenBits (tokens d) with
      | none =>
        rw [extractKey_of_tokenBits_none hd hn hb, Except.error.injEq] at h
        exact .inr (.inr h.symm)
      | some b =>
        rw [extractKey_of_tokenBits_some hd hn hb] at h
        cases h
    · rw [extractKey_of_count_ne hd hn, Except.error.injEq] at h
      exact .inr (.inl h.symm)

/-- Settles O28: each stage has its equation, and the tokens' bits are all there exactly when each token has one. -/
theorem extractChecksItsStagesInOrder : Obligations.ExtractChecksItsStagesInOrder := by
  refine fun c => ⟨extractKey_of_malformed, fun d hd => ⟨extractKey_of_count_ne hd,
    fun hn hbad => extractKey_of_tokenBits_none hd hn (tokenBits_of_none _ hbad), fun hn hall => ?key⟩⟩
  case key =>
    obtain ⟨b, hb, hlen, hbits⟩ := tokenBits_of_some _ hall
    rw [hn] at hlen hbits
    exact ⟨b, hlen, hbits, extractKey_of_tokenBits_some hd hn hb⟩

/-! ### The carrier in `DBUF` -/

@[simp] theorem carrier_length (s : State) : s.carrier.length = s.dlen.toNat := by
  simp [State.carrier, State.dbufBytes]

theorem carrier_getD (s : State) {i : Nat} (h : i < s.dlen.toNat) : s.carrier.getD i 0 = s.dbufByte i := by
  simp [State.carrier, State.dbufBytes, List.getD_eq_getElem?_getD, h]

/-! ### The rule of EXTRACT -/

theorem extractRule_of_long {s : State} (h : Config.dbufBytes < s.dlen.toNat) :
    extractRule s = raise .length s := if_pos h

theorem extractRule_of_error {s : State} {e : ErrCode} (hlen : s.dlen.toNat ≤ Config.dbufBytes)
    (h : extractKey s.carrier = .error e) : extractRule s = raise e s := by
  rw [extractRule, if_neg (Nat.not_lt.2 hlen), h]

theorem extractRule_of_ok {s : State} {r : Block} (hlen : s.dlen.toNat ≤ Config.dbufBytes)
    (h : extractKey s.carrier = .ok r) : extractRule s = storeKey r s := by
  rw [extractRule, if_neg (Nat.not_lt.2 hlen), h]

theorem byteAt_storeKey_key (r : Block) (s : State) {i : Nat} (h : i < 32) :
    byteAt (storeKey r s).key i = if i < 16 then byteAt r i else byteAt s.key i := by
  rw [storeKey, byteAt_bytesOf, if_pos h]

/-- Settles O27: outside IDLE it is the acceptance check; in IDLE the command is its rule, whose three ends are the length
check, a failure of `Extract` and the writes of `storeKey`. -/
theorem extractCommandStoresTheKey : Obligations.ExtractCommandStoresTheKey := by
  refine ⟨decode_encode .extract, fun s => ⟨fun hm => ?stream, fun hm => exec_in_error nofun hm⟩, fun s hm => ?idle⟩
  case stream => exact exec_of_not_acceptedIn (by simp [hm]) (by simp [hm, acceptedIn])
  case idle =>
    rw [exec_at_home .extract s hm, ruleOf]
    refine ⟨fun hlong => ?length, fun hlen => ⟨carrier_length s, fun i hi => carrier_getD s hi,
      fun e he => ⟨eq_of_extractKey_eq_error he, ?failure⟩, fun r hr => ⟨(storeKey r s).key, ?writes, fun i hi => ?low,
        fun i hlo hhi => ?high⟩⟩⟩
    case length => rw [extractRule_of_long hlong]
    case failure => rw [extractRule_of_error hlen he]
    case writes => rw [extractRule_of_ok hlen hr]; rfl
    case low => rw [byteAt_storeKey_key r s (by omega), if_pos hi]
    case high => rw [byteAt_storeKey_key r s hhi, if_neg (by omega)]

end Sys2Proof.Machine
end

section
/-! PROOFS. The key schedule: its sizes, the recurrence of its words, and the command EXPAND (41_expand.md R150 to R155). -/

namespace Sys2Proof.Machine

/-! ### The key lengths -/

theorem keyLengthOk_eq_false_iff (n : Nat) : keyLengthOk n = false ↔ n ≠ 16 ∧ n ≠ 24 ∧ n ≠ 32 := by
  rw [← Bool.not_eq_true, keyLengthOk_iff, not_or, not_or]

/-- A key that has a schedule has its length from the round count (R151). -/
theorem length_of_expandKey {key sched : List Byte} {nr : Nat} (h : expandKey key = some (nr, sched)) :
    key.length = 4 * (nr - 6) ∧ (nr = 10 ∨ nr = 12 ∨ nr = 14) := by
  obtain ⟨hok, hnr, -⟩ := (expandKey_eq_some key nr sched).1 h
  rw [keyLengthOk_iff] at hok
  omega

/-- The schedule is one block for each round and one for the whitening (R151). -/
theorem schedule_length_of_expandKey {key sched : List Byte} {nr : Nat} (h : expandKey key = some (nr, sched)) :
    sched.length = 16 * (nr + 1) := by
  obtain ⟨-, hnr, rfl⟩ := (expandKey_eq_some key nr sched).1 h
  rw [flatMap_kwordBytes_length, scheduleWords_length]
  omega

/-- Settles O35: `Expand` fails by its length check alone, and each legal length gives the round count and the number of
words. -/
theorem scheduleSizesFollowTheKeyLength : Obligations.ScheduleSizesFollowTheKeyLength := by
  intro key
  refine ⟨?fails, fun nr sched h => ?sizes⟩
  case fails => rw [expandKey_eq_none, keyLengthOk_eq_false_iff]
  case sizes =>
    obtain ⟨hkey, hnr⟩ := length_of_expandKey h
    have hsched := schedule_length_of_expandKey h
    omega

/-! ### The words of the schedule -/

/-- The schedule begins with the words of the key (R153). -/
theorem scheduleWords_getD_of_lt {nk : Nat} (key : List Byte) {j : Nat} (hj : j < nk) :
    (scheduleWords nk key).getD j kwordZero = keyWord key j := by
  rw [scheduleWords, getD_of_prefix _ _ kwordZero (expandWords_prefix nk _ _) j (by simpa using hj)]
  simp [List.getD_eq_getElem?_getD, hj]

/-- Every later word is the XOR of the word `nk` before it and `temp` (R153). -/
theorem scheduleWords_getD_of_ge {nk : Nat} (key : List Byte) {i : Nat} (hnk : 0 < nk) (h1 : nk ≤ i)
    (h2 : i < 4 * (nk + 7)) :
    (scheduleWords nk key).getD i kwordZero =
      kwordXor ((scheduleWords nk key).getD (i - nk) kwordZero)
        (expandTemp nk i ((scheduleWords nk key).getD (i - 1) kwordZero)) := by
  have hlen : ((List.range nk).map (keyWord key)).length = nk := by simp
  exact expandWords_next nk _ _ hnk hlen.ge i (by omega) (by omega)

/-! ### The three cases of `temp` -/

theorem expandTemp_of_multiple {nk i : Nat} (prev : KWord) (h : i % nk = 0) :
    expandTemp nk i prev = xorRcon (i / nk) (subWord (rotWord prev)) := if_pos h

theorem expandTemp_of_middle {nk i : Nat} (prev : KWord) (h : i % nk ≠ 0) (hmid : 6 < nk ∧ i % nk = 4) :
    expandTemp nk i prev = subWord prev := (if_neg h).trans (if_pos hmid)

theorem expandTemp_of_other {nk i : Nat} (prev : KWord) (h : i % nk ≠ 0) (hmid : ¬ (6 < nk ∧ i % nk = 4)) :
    expandTemp nk i prev = prev := (if_neg h).trans (if_neg hmid)

/-- Settles O36: the bytes of the schedule read back as its words, whose recurrence has one case for each case of
`temp`. -/
theorem scheduleWordsObeyTheRecurrence : Obligations.ScheduleWordsObeyTheRecurrence := by
  intro key nr sched h
  obtain ⟨hkey, hrounds⟩ := length_of_expandKey h
  obtain ⟨-, hnr, rfl⟩ := (expandKey_eq_some key nr sched).1 h
  simp only [keyWord_flatMap]
  refine ⟨fun j hj => scheduleWords_getD_of_lt key hj, fun i h1 h2 => ?_⟩
  rw [scheduleWords_getD_of_ge key (by omega) h1 (by omega)]
  refine ⟨fun hi => ?multiple, fun hi h6 h4 => ?middle, fun hi hother => ?other⟩
  case multiple => rw [expandTemp_of_multiple _ hi]; rfl
  case middle => rw [expandTemp_of_middle _ hi ⟨h6, h4⟩]; rfl
  case other => rw [expandTemp_of_other _ hi hother]

/-! ### The command EXPAND -/

theorem expandRule_of_bad_length {s : State} (h : keyLengthOk s.klen.toNat = false) :
    expandRule s = raise .invalidKeyLength s := by
  rw [expandRule, h]
  rfl

/-- EXPAND with a schedule writes `RKS`, `NR`, `SV`, `OLEN` and `LAST` (R155). -/
theorem expandRule_of_some {s : State} {nr : Nat} {sched : List Byte} (h : expandKey s.rawKey = some (nr, sched)) :
    expandRule s =
      { s with rks := padTo 240 sched, nr := BitVec.ofNat 4 nr, sv := true, olen := 0, last := false } := by
  obtain ⟨hok, -, -⟩ := (expandKey_eq_some _ nr sched).1 h
  rw [rawKey_length] at hok
  rw [expandRule, hok, expansion_eq s nr sched h]
  rfl

/-- Settles O34: outside IDLE it is the acceptance check; in IDLE the command is its rule, which either refuses the length or
pads the schedule to the 240 bytes of `RKS`. -/
theorem expandCommandWritesTheSchedule : Obligations.ExpandCommandWritesTheSchedule := by
  refine ⟨decode_encode .expand, fun s => ⟨fun hm => ?stream, fun hm => exec_in_error nofun hm⟩, fun s hm => ?idle⟩
  case stream => exact exec_of_not_acceptedIn (by simp [hm]) (by simp [hm, acceptedIn])
  case idle =>
    rw [exec_at_home .expand s hm, ruleOf]
    refine ⟨fun hbad => ?length, fun hok => ?writes⟩
    case length => rw [expandRule_of_bad_length ((keyLengthOk_eq_false_iff _).2 hbad)]
    case writes =>
      rw [← keyLengthOk_iff, ← rawKey_length] at hok
      obtain ⟨nr, sched, h⟩ : ∃ nr sched, expandKey s.rawKey = some (nr, sched) := ⟨_, _, expandKey_of_ok _ hok⟩
      obtain ⟨-, hrounds⟩ := length_of_expandKey h
      have hsched := schedule_length_of_expandKey h
      have hnr : (BitVec.ofNat 4 nr).toNat = nr := by
        rw [BitVec.toNat_ofNat]
        omega
      refine ⟨padTo 240 sched, BitVec.ofNat 4 nr, sched, by rw [expandRule_of_some h], ?_⟩
      rw [hnr]
      refine ⟨h, hsched, fun i hi => ?low, fun i hlo hhi => ?high⟩
      case low => rw [byteAt_padTo, if_pos (by omega)]
      case high => rw [byteAt_padTo, if_pos hhi, List.getD_eq_default _ _ (by omega)]

end Sys2Proof.Machine
end

section
/-! PROOFS. What can change `RKS`, `NR` and `SV`: an expansion in IDLE and reset (41_expand.md R157). -/

namespace Sys2Proof.Machine

/-! ### The schedule under each update -/

/-- `RKS`, `NR` and `SV` are in `t` what they are in `s`. -/
def SameSchedule (s t : State) : Prop := t.rks = s.rks ∧ t.nr = s.nr ∧ t.sv = s.sv

theorem SameSchedule.refl (s : State) : SameSchedule s s := ⟨rfl, rfl, rfl⟩

theorem sameSchedule_raise (e : ErrCode) (s : State) : SameSchedule s (raise e s) := ⟨rfl, rfl, rfl⟩

theorem sameSchedule_beginStream (n : Word) (s : State) : SameSchedule s (beginStream n s) := by
  rw [beginStream_eq]
  exact .refl s

theorem sameSchedule_snextRule (s : State) : SameSchedule s (snextRule s) := by
  rw [snextRule_eq]
  exact .refl s

theorem sameSchedule_writeTarget (a : Target) (v : Word) (s : State) : SameSchedule s (writeTarget a v s) := by
  obtain ⟨-, hsv, -, -, hnr, -, -, -, -, -, hrks, -⟩ := writeTarget_frame a v s
  exact ⟨hrks, hnr, hsv⟩

/-- An expansion of a legal key length leaves a valid schedule (R155). -/
theorem expansion_sv {s : State} (h : keyLengthOk s.klen.toNat = true) : (expansion s).sv = true := by
  rw [← rawKey_length] at h
  rw [expansion_eq s _ _ (expandKey_of_ok _ h)]

/-! ### The schedule under a command and a step -/

/-- A command leaves the schedule as it is, or is EXPAND or SBEGIN.X in IDLE and leaves a valid one. -/
theorem exec_schedule_cases {i : Instr} {s t : State} (h : exec i s = .next t) :
    SameSchedule s t ∨ (s.mode = .idle ∧ t.sv = true ∧ (i = .expand ∨ i = .sbegin true)) := by
  rcases exec_next_cases i s t h with ⟨-, -, rfl⟩ | ⟨-, rfl⟩ | ⟨-, -, e, rfl, -⟩ | ⟨-, -, r, -, -, rfl⟩
    | ⟨hm, rfl, hk, rfl⟩ | ⟨-, -, -, rfl⟩ | ⟨hm, x, rfl, hc, rfl⟩ | ⟨-, -, rfl⟩
  · exact .inl (.refl _) -- ignored in ERROR
  · exact .inl (.refl s) -- CLR
  · exact .inl (sameSchedule_raise e s)
  · exact .inl (.refl s) -- EXTRACT
  · exact .inr ⟨hm, expansion_sv hk, .inl rfl⟩
  · exact .inl (.refl s) -- DECBLK
  · cases x with
    | false => exact .inl (sameSchedule_beginStream _ s)
    | true =>
      have hk := ((sbeginCheck_eq_none true s).1 hc).1 rfl
      obtain ⟨-, -, hsv⟩ := sameSchedule_beginStream (s.slen - 20) (expansion s)
      exact .inr ⟨hm, hsv.trans (expansion_sv hk), .inr rfl⟩
  · exact .inl (sameSchedule_snextRule s)

/-- Settles O50: every kind of step but reset and the two commands of `exec_schedule_cases` leaves the schedule as it is. -/
theorem onlyAnExpansionChangesTheSchedule : Obligations.OnlyAnExpansionChangesTheSchedule := by
  intro s t h hchange
  have hdiff : ¬ SameSchedule s t := by
    rintro ⟨hrks, hnr, hsv⟩
    simp [hrks, hnr, hsv] at hchange
  rcases step_cases s t h with ⟨-, rfl⟩ | ⟨a, rest, -, rfl⟩ | ⟨a, v, rest, -, -, rfl⟩ | ⟨w, i, rest, hp, hi, hexec⟩
    | ⟨w, rest, -, -, hill⟩ | ⟨rest, hp, -⟩
  · exact absurd (.refl _) hdiff -- no event
  · exact absurd (.refl s) hdiff -- a read
  · exact absurd (sameSchedule_writeTarget _ v { s with port := rest, rdata := none }) hdiff
  · rw [decode_eq_ok_iff] at hi
    subst hi
    rcases exec_schedule_cases hexec with hsame | ⟨hm, hsv, rfl | rfl⟩
    · exact absurd hsame hdiff
    · exact .inr ⟨hm, hsv, rest, .inl hp⟩
    · exact .inr ⟨hm, hsv, rest, .inr hp⟩
  · rcases illegalCommand_cases _ t hill with ⟨-, rfl⟩ | ⟨-, rfl⟩ -- an illegal word
    · exact absurd (.refl s) hdiff
    · exact absurd (sameSchedule_raise _ { s with port := rest, rdata := none }) hdiff
  · exact .inl ⟨rest, hp⟩

end Sys2Proof.Machine
end

section
/-! PROOFS. The rounds of `DecBlock` as a fold over the round numbers, and the command DECBLK (42_decblk.md R167, R170). -/

namespace Sys2Proof.Machine

/-! ### The rounds of `DecBlock` -/

/-- The rounds run over the round numbers from `n` down to 1 (R167 step 3). -/
theorem invRounds_eq_foldl (rk : List Byte) (n : Nat) (b : Block) :
    invRounds rk n b = (List.range' 1 n).reverse.foldl (fun b r => invRound rk r b) b := by
  induction n generalizing b with
  | zero => rfl
  | succ n ih =>
    have hlast : (List.range' 1 (n + 1)).reverse = (n + 1) :: (List.range' 1 n).reverse := by
      rw [List.range'_1_concat, List.reverse_concat, Nat.add_comm]
    rw [invRounds, ih, hlast, List.foldl_cons]

/-- Settles O39: `DecBlock` with its rounds as the fold. -/
theorem decBlockRunsItsRoundsInOrder : Obligations.DecBlockRunsItsRoundsInOrder := by
  intro c nr rk _
  rw [decBlock, invRounds_eq_foldl, finalRound]
  rfl

/-! ### What DECBLK reads and writes -/

theorem schedule_getD (s : State) {i : Nat} (h : i < 16 * s.nr.toNat + 16) : s.schedule.getD i 0 = byteAt s.rks i := by
  simp [State.schedule, List.getD_eq_getElem?_getD, h]

/-- `OBUF` after a block is written at index `a`. -/
theorem obufByte_setBytes_block (s : State) (a : Nat) (b : Block) (i : Nat) :
    State.obufByte { s with obuf := s.obuf.setBytes a b.toList } i
      = if a ≤ i ∧ i < a + 16 then byteAt b (i - a) else s.obufByte i := by
  rw [obufByte_with_obuf, Memory.get_setBytes, toList_length]
  split
  · rw [byteAt, List.getD_eq_getElem?_getD, List.getElem?_eq_getElem (by simp; omega)]
    rfl
  · rfl

/-! ### The rule of DECBLK -/

theorem decblkRule_of_no_schedule {s : State} (h : s.sv = false) : decblkRule s = raise .noSchedule s := by
  rw [decblkRule, h, if_neg Bool.false_ne_true]

theorem decblkRule_of_schedule {s : State} (h : s.sv = true) :
    decblkRule s = { s with
      obuf := s.obuf.setBytes 0 (s.decBlock (s.dbufBlock 0)).toList, olen := 16, last := false } := if_pos h

/-- Settles O38: outside IDLE it is the acceptance check; in IDLE the command is its rule, whose one write to `OBUF` is the
block at index 0. -/
theorem decblkCommandDecryptsOneBlock : Obligations.DecblkCommandDecryptsOneBlock := by
  refine ⟨decode_encode .decblk, fun s => ⟨fun hm => ?stream, fun hm => exec_in_error nofun hm⟩, fun s hm => ?idle⟩
  case stream => exact exec_of_not_acceptedIn (by simp [hm]) (by simp [hm, acceptedIn])
  case idle =>
    rw [exec_at_home .decblk s hm, ruleOf]
    refine ⟨fun hsv => ?error, fun hsv => ⟨s.obuf.setBytes 0 (s.decBlock (s.dbufBlock 0)).toList, ?writes,
      fun i hi => ?input, fun i hi => schedule_getD s hi, fun i => ?output⟩⟩
    case error => rw [decblkRule_of_no_schedule hsv]
    case writes => rw [decblkRule_of_schedule hsv]
    case input => rw [byteAt_dbufBlock, if_pos hi, Nat.mul_zero, Nat.zero_add]
    case output => simpa [State.decBlock] using obufByte_setBytes_block s 0 (s.decBlock (s.dbufBlock 0)) i

end Sys2Proof.Machine
end

section
/-! PROOFS. The streams: what SBEGIN checks and writes, and what SNEXT does with a window (43_stream.md R190 to R193). -/

namespace Sys2Proof.Machine

/-! ### Words counted down -/

/-- Subtracting a number no greater than a word's value does not wrap. -/
theorem sub_ofNat_eq_ofNat_sub {w : Word} {n : Nat} (h : n ≤ w.toNat) :
    w - BitVec.ofNat 32 n = BitVec.ofNat 32 (w.toNat - n) := by
  rw [← sub_ofNat_toNat w n h, BitVec.ofNat_toNat, BitVec.setWidth_eq]

theorem sub_ofNat_eq_zero_iff {w : Word} {n : Nat} (h : n ≤ w.toNat) : w - BitVec.ofNat 32 n = 0 ↔ w.toNat = n := by
  have hsub := sub_ofNat_toNat w n h
  have hzero : (0 : Word).toNat = 0 := rfl
  rw [← BitVec.toNat_inj, hsub, hzero]
  omega

/-! ### The rule of SBEGIN -/

/-- The checks of SBEGIN with their conditions in the spec's words (R190). -/
theorem sbeginCheck_eq (x : Bool) (s : State) :
    sbeginCheck x s =
      if x = true ∧ ¬ (s.klen.toNat = 16 ∨ s.klen.toNat = 24 ∨ s.klen.toNat = 32) then some .invalidKeyLength
      else if x = false ∧ s.sv = false then some .noSchedule
      else if s.slen.toNat < 20 then some .streamTooShort
      else if (s.slen.toNat - 20) % 16 ≠ 0 then some .invalidStreamLength
      else if s.slen.toNat - 20 < s.declaredLength.toNat then some .declaredLengthExceedsCiphertext
      else none := by
  have hkey : (x && !keyLengthOk s.klen.toNat) = true
      ↔ x = true ∧ ¬ (s.klen.toNat = 16 ∨ s.klen.toNat = 24 ∨ s.klen.toNat = 32) := by
    simp [← keyLengthOk_iff]
  have hsched : (!x && !s.sv) = true ↔ x = false ∧ s.sv = false := by simp
  exact if_congr hkey rfl (if_congr hsched rfl rfl)

theorem sbeginRule_of_fail {x : Bool} {s : State} {e : ErrCode} (h : sbeginCheck x s = some e) :
    sbeginRule x s = raise e s := by
  rw [sbeginRule, h]

theorem sbeginRule_of_pass {x : Bool} {s : State} (h : sbeginCheck x s = none) :
    sbeginRule x s = beginStream (s.slen - 20) (if x then expansion s else s) := by
  rw [sbeginRule, h]

/-- An expansion leaves the header in `DBUF` as it is. -/
@[simp] theorem expansion_dbufBlock (s : State) (j : Nat) : (expansion s).dbufBlock j = s.dbufBlock j := by
  simp only [State.dbufBlock, expansion_dbufByte]

@[simp] theorem expansion_declaredLength (s : State) : (expansion s).declaredLength = s.declaredLength := by
  simp only [State.declaredLength, expansion_dbufByte]

/-- What `beginStream` writes when `SLEN` covers the header, by the number in `SLEN`; the schedule in `u` may be new (R190). -/
theorem beginStream_of_header {s u : State} (h : 20 ≤ s.slen.toNat) (hblock : u.dbufBlock 0 = s.dbufBlock 0)
    (hdeclared : u.declaredLength = s.declaredLength) :
    beginStream (s.slen - 20) u =
      { u with
        chain := s.dbufBlock 0, declen := s.declaredLength, remct := BitVec.ofNat 32 (s.slen.toNat - 20)
        rempt := s.declaredLength, olen := 0
        mode := if s.slen.toNat = 20 then .idle else .stream, last := decide (s.slen.toNat = 20) } := by
  have hsub : s.slen - 20 = BitVec.ofNat 32 (s.slen.toNat - 20) := sub_ofNat_eq_ofNat_sub h
  have hzero : s.slen - 20 = 0 ↔ s.slen.toNat = 20 := sub_ofNat_eq_zero_iff h
  rw [beginStream_eq, hblock, hdeclared]
  simp only [hzero]
  rw [hsub]

/-- Settles O43: outside IDLE it is the acceptance check; in IDLE the command is its rule, an error for the first check that
fails and `beginStream` when none does, after the expansion for SBEGIN.X. -/
theorem sbeginCommandBeginsTheStream : Obligations.SbeginCommandBeginsTheStream := by
  refine ⟨⟨decode_encode (.sbegin false), decode_encode (.sbegin true)⟩,
    fun s x => ⟨fun hm => ?stream, fun hm => exec_in_error nofun hm⟩,
    fun s hm => ⟨fun x => ?idle, fun i hi => ?header, le32_toNat _ _ _ _, fun hk => ?expansion⟩⟩
  case stream => exact exec_of_not_acceptedIn (by simp [hm]) (by simp [hm, acceptedIn])
  case idle =>
    have hcheck := sbeginCheck_eq x s
    rw [exec_at_home (.sbegin x) s hm, ruleOf]
    split_ifs at hcheck with hkey hsv hlen halign hdecl
    · rw [if_pos hkey, sbeginRule_of_fail hcheck]
    · rw [if_neg hkey, if_pos hsv, sbeginRule_of_fail hcheck]
    · rw [if_neg hkey, if_neg hsv, if_pos hlen, sbeginRule_of_fail hcheck]
    · rw [if_neg hkey, if_neg hsv, if_neg hlen, if_pos halign, sbeginRule_of_fail hcheck]
    · rw [if_neg hkey, if_neg hsv, if_neg hlen, if_neg halign, if_pos hdecl, sbeginRule_of_fail hcheck]
    · rw [if_neg hkey, if_neg hsv, if_neg hlen, if_neg halign, if_neg hdecl, sbeginRule_of_pass hcheck]
      have hheader : 20 ≤ s.slen.toNat := Nat.not_lt.1 hlen
      cases x with
      | false => exact congrArg _ (beginStream_of_header hheader rfl rfl)
      | true =>
        exact congrArg _ (beginStream_of_header hheader (expansion_dbufBlock s 0) (expansion_declaredLength s))
  case header => rw [byteAt_dbufBlock, if_pos hi, Nat.mul_zero, Nat.zero_add]
  case expansion =>
    rw [← keyLengthOk_iff, ← rawKey_length] at hk
    have hkey := expandKey_of_ok _ hk
    exact ⟨_, _, hkey, expansion_eq s _ _ hkey⟩

/-! ### The window of SNEXT -/

/-- The window of a stream in progress is a whole number of blocks, and at least one (R193, R45). -/
theorem windowBytes_whole_blocks {s : State} (hinv : s.Inv) (hm : s.mode = .stream) :
    s.windowBytes % 16 = 0 ∧ 16 ≤ s.windowBytes := by
  obtain ⟨-, hpos, hmod, -⟩ := hinv.in_stream hm
  simp only [State.windowBytes, Config.window]
  omega

/-- Byte `i` of block `j` of `OBUF` after the window's blocks: the decrypted byte XORed with the chain value's (R192). -/
theorem obufByte_windowBlocks_block (s : State) {n j i : Nat} (hj : j < n) (hi : i < 16) :
    State.obufByte { s with obuf := (s.windowBlocks n).1 } (16 * j + i)
      = byteAt (s.decBlock (s.dbufBlock j)) i ^^^ byteAt (s.prevRaw j) i := by
  have hdiv : (16 * j + i) / 16 = j := by omega
  have hmod : (16 * j + i) % 16 = i := by omega
  rw [obufByte_with_obuf, windowBlocks_get, if_pos (by omega), hdiv, hmod, Option.getD_some, State.chainedBlock,
    byteAt_xorBlock]

/-- `OBUF` past the window's blocks is as it was. -/
theorem obufByte_windowBlocks_past (s : State) {n i : Nat} (h : 16 * n ≤ i) :
    State.obufByte { s with obuf := (s.windowBlocks n).1 } i = s.obufByte i := by
  rw [obufByte_with_obuf, windowBlocks_get, if_neg (by omega), State.obufByte]

/-- What SNEXT's rule writes for a window of at least one block, its subtractions as those of numbers (R193). -/
theorem snextRule_of_block {s : State} (h : 16 ≤ s.windowBytes) :
    snextRule s =
      { s with
        obuf := (s.windowBlocks (s.windowBytes / 16)).1, chain := s.dbufBlock (s.windowBytes / 16 - 1)
        olen := BitVec.ofNat 32 (min s.rempt.toNat s.windowBytes)
        rempt := BitVec.ofNat 32 (s.rempt.toNat - min s.rempt.toNat s.windowBytes)
        remct := BitVec.ofNat 32 (s.remct.toNat - s.windowBytes)
        mode := if s.remct.toNat = s.windowBytes then .idle else .stream
        last := decide (s.remct.toNat = s.windowBytes) } := by
  have hw : s.windowBytes ≤ s.remct.toNat := Nat.min_le_right _ _
  have hp : min s.rempt.toNat s.windowBytes ≤ s.rempt.toNat := Nat.min_le_left _ _
  have hn : s.windowBytes / 16 ≠ 0 := by omega
  have hchain : (s.windowBlocks (s.windowBytes / 16)).2 = s.dbufBlock (s.windowBytes / 16 - 1) := by
    rw [windowBlocks_chain, State.prevRaw, if_neg hn]
  rw [snextRule_eq]
  simp only [hchain, sub_ofNat_eq_zero_iff hw]
  rw [sub_ofNat_eq_ofNat_sub hw, sub_ofNat_eq_ofNat_sub hp]

/-- Settles O44: outside STREAM it is the acceptance check; in STREAM the command is its rule, whose `OBUF` is that of
`windowBlocks`. -/
theorem snextCommandDecryptsOneWindow : Obligations.SnextCommandDecryptsOneWindow := by
  refine ⟨decode_encode .snext, fun s => ⟨fun hm => ?idle, fun hm => exec_in_error nofun hm⟩, fun s hinv hm => ?stream⟩
  case idle => exact exec_of_not_acceptedIn (by simp [hm]) (by simp [hm, acceptedIn])
  case stream =>
    obtain ⟨hmod, hpos⟩ := windowBytes_whole_blocks hinv hm
    refine ⟨hmod, hpos, (s.windowBlocks (s.windowBytes / 16)).1, ?writes,
      fun j hj i hi => obufByte_windowBlocks_block s hj hi, fun j i hi => ?input, fun i hi => ?past⟩
    case writes =>
      rw [exec_at_home .snext s hm, ruleOf, snextRule_of_block hpos]
      rfl
    case input => rw [byteAt_dbufBlock, if_pos hi]
    case past =>
      have hi : s.windowBytes ≤ i := hi
      exact obufByte_windowBlocks_past s (by omega)

end Sys2Proof.Machine
end

section
/-! PROOFS. The transitions of `STATE`: what each command makes of it, and which steps change it (43_stream.md R186). -/

namespace Sys2Proof.Machine

/-! ### What a command makes of `STATE` -/

/-- The rows of the table of R186 for a command `i` that takes the core from `s` to `t`. -/
inductive Transition (s : State) : Instr → State → Prop where
  /-- ERROR ignores every command but CLR. -/
  | ignored {i : Instr} (hm : s.mode = .error) (hi : i ≠ .clr) : Transition s i s
  /-- CLR. -/
  | cleared : Transition s .clr (clearCall s)
  /-- A command fails; SNEXT in STREAM does not. -/
  | raised {i : Instr} (e : ErrCode) (hm : s.mode ≠ .error) (hi : i ≠ .clr) (hsnext : s.mode = .stream → i ≠ .snext) :
      Transition s i (raise e s)
  /-- EXTRACT, EXPAND or DECBLK completes. -/
  | completed {i : Instr} {t : State} (hi : i = .extract ∨ i = .expand ∨ i = .decblk) (hm : s.mode = .idle)
      (ht : t.mode = .idle) (herr : t.errcode = s.errcode) : Transition s i t
  /-- SBEGIN begins a stream, which ends at once when it has no ciphertext. -/
  | begun {x : Bool} {t : State} (hm : s.mode = .idle) (hlen : 20 ≤ s.slen.toNat)
      (ht : t.mode = if s.slen.toNat = 20 then .idle else .stream) (hlast : t.last = decide (s.slen.toNat = 20))
      (herr : t.errcode = s.errcode) : Transition s (.sbegin x) t
  /-- SNEXT decrypts a window, and ends the stream when no ciphertext is left. -/
  | window {t : State} (hm : s.mode = .stream) (ht : t.mode = if t.remct = 0 then .idle else .stream)
      (hlast : t.last = decide (t.remct = 0)) (herr : t.errcode = s.errcode) : Transition s .snext t

theorem transition_beginStream {x : Bool} {s u : State} (hm : s.mode = .idle) (hcheck : sbeginCheck x s = none)
    (herr : u.errcode = s.errcode) : Transition s (.sbegin x) (beginStream (s.slen - 20) u) := by
  obtain ⟨-, -, hlen, -, -⟩ := (sbeginCheck_eq_none x s).1 hcheck
  have hzero : s.slen - 20 = 0 ↔ s.slen.toNat = 20 := sub_ofNat_eq_zero_iff hlen
  rw [beginStream_eq]
  exact .begun hm hlen (by simp only [hzero]) (by simp only [hzero]) herr

theorem transition_snextRule {s : State} (hm : s.mode = .stream) : Transition s .snext (snextRule s) := by
  rw [snextRule_eq]
  exact .window hm rfl rfl rfl

/-- Every command makes a transition of the table. -/
theorem exec_transition {i : Instr} {s t : State} (h : exec i s = .next t) : Transition s i t := by
  rcases exec_next_cases i s t h with ⟨hm, hi, rfl⟩ | ⟨rfl, rfl⟩ | ⟨hm, hi, e, rfl, herr⟩ | ⟨hm, rfl, r, -, -, rfl⟩
    | ⟨hm, rfl, -, rfl⟩ | ⟨hm, rfl, -, rfl⟩ | ⟨hm, x, rfl, hcheck, rfl⟩ | ⟨hm, rfl, rfl⟩
  · exact .ignored hm hi
  · exact .cleared
  · refine .raised e hm hi ?_
    rintro hstream rfl
    rcases herr with ⟨-, hhome⟩ | ⟨hmem, -⟩
    · exact hhome hstream
    · simp [errorsOf] at hmem
  · exact .completed (.inl rfl) hm hm rfl -- EXTRACT
  · exact .completed (.inr (.inl rfl)) hm (by simp [hm]) (by simp) -- EXPAND
  · exact .completed (.inr (.inr rfl)) hm hm rfl -- DECBLK
  · cases x with
    | false => exact transition_beginStream hm hcheck rfl
    | true => exact transition_beginStream hm hcheck (expansion_errcode s)
  · exact transition_snextRule hm

/-! ### Which steps change `STATE` -/

/-- A command that changes `STATE` fails, is CLR, ends the stream or begins one. -/
theorem Transition.of_mode_ne {i : Instr} {s t : State} (h : Transition s i t) (hne : t.mode ≠ s.mode) :
    (t.mode = .error ∧ s.mode ≠ .error) ∨ (t.mode = .idle ∧ i = .clr)
      ∨ (t.mode = .idle ∧ s.mode = .stream ∧ i = .snext)
      ∨ (t.mode = .stream ∧ s.mode = .idle ∧ ∃ x, i = .sbegin x) := by
  cases h with
  | ignored => exact absurd rfl hne
  | cleared => exact .inr (.inl ⟨rfl, rfl⟩)
  | raised e hm => exact .inl ⟨rfl, hm⟩
  | completed hi hm ht => exact absurd (ht.trans hm.symm) hne
  | begun hm _ ht =>
    split at ht
    · exact absurd (ht.trans hm.symm) hne
    · exact .inr (.inr (.inr ⟨ht, hm, _, rfl⟩))
  | window hm ht =>
    split at ht
    · exact .inr (.inr (.inl ⟨ht, hm, rfl⟩))
    · exact absurd (ht.trans hm.symm) hne

/-- Settles O53: each clause about a command is read off its row of `Transition`; of the other steps only reset and an
illegal word outside ERROR change `STATE`. -/
theorem stateChangesOnlyAsTheTableSays : Obligations.StateChangesOnlyAsTheTableSays := by
  refine ⟨fun s t i hinv h => ?table, fun s w hm hill => ?illegal, fun s t rest hp h => ?reset, fun s t h hne => ?only⟩
  case table =>
    have hnone : s.mode ≠ .error → s.errcode = none := fun hm => not_not.1 (mt hinv.error_iff.2 hm)
    cases exec_transition h with
    | ignored hm hi => simp [hm, hi]
    | cleared => simp
    | raised e hm hi hsnext => simp +contextual [hm, hi, hsnext]
    | completed hi hm ht herr => rcases hi with rfl | rfl | rfl <;> simp [hm, ht, herr, hnone]
    | begun hm hlen ht hlast herr =>
      by_cases hempty : s.slen.toNat = 20
      · simp [hm, ht, hlast, herr, hnone, hempty]
      · have hlong : 20 < s.slen.toNat := by omega
        simp [hm, ht, herr, hnone, hempty, hlong]
    | window hm ht hlast herr =>
      by_cases hend : t.remct = 0#32
      · simp [hm, ht, hlast, herr, hnone, hend]
      · simp [hm, ht, herr, hnone, hend]
  case illegal => rw [writeCmd_of_illegal s hill, illegalCommand_in_error hm]
  case reset =>
    simp only [step, hp, applyEvent, Host.Outcome.next.injEq] at h
    rw [← h]
    rfl
  case only =>
    rcases step_cases s t h with ⟨-, rfl⟩ | ⟨a, rest, -, rfl⟩ | ⟨a, v, rest, -, -, rfl⟩ | ⟨w, i, rest, hp, hi, hexec⟩
      | ⟨w, rest, hp, -, hill⟩ | ⟨rest, hp, rfl⟩
    · exact absurd rfl hne -- no event
    · exact absurd rfl hne -- a read
    · obtain ⟨hmode, -⟩ := writeTarget_frame (targetOf (offsetOf a)) v { s with port := rest, rdata := none }
      exact absurd hmode hne
    · refine .inr ⟨w, rest, hp, ?_⟩
      rw [hi]
      simpa only [Except.ok.injEq] using (exec_transition hexec).of_mode_ne hne
    · rcases illegalCommand_cases _ t hill with ⟨-, rfl⟩ | ⟨hm, rfl⟩ -- an illegal word
      · exact absurd rfl hne
      · exact .inr ⟨w, rest, hp, .inl ⟨rfl, hm⟩⟩
    · exact .inl ⟨rfl, rest, hp⟩

end Sys2Proof.Machine
end

section
/-! PROOFS. The control family: the command CLR (44_control.md R214). -/

namespace Sys2Proof.Machine

/-- Settles O49: CLR's word is its encoding; the other word has the bit `X` set beside an opcode that has no `X`
(R115); and in every state the command is `clearCall`, whose writes are the listed ones. -/
theorem clrReturnsToIdle : Obligations.ClrReturnsToIdle := by
  refine ⟨decode_encode .clr, ?extraBit, exec_clr⟩
  case extraBit =>
    have hx : (0x00000106 : Word).getLsbD 8 = true ∧ (0x00000106 : Word) &&& 0xff ≠ 0x04 := by decide
    exact (forall_decode_ne_ok_iff _).2 (.inr (.inr (.inr hx)))

end Sys2Proof.Machine
end

section
/-! PROOFS. Decoding and encoding of command words are inverse to each other (30_encoding.md R113 to R116). -/

namespace Sys2Proof

/-- Settles O8: both directions are `decode_eq_ok_iff`, a word decodes to a command exactly when it is the command's word. -/
theorem decodeAndEncodeAgree : Obligations.DecodeAndEncodeAgree := by
  refine ⟨fun i _ => decode_encode i, fun w i h => ?_⟩
  exact ((decode_eq_ok_iff w i).1 h).symm

/-- Settles O11: six closed words, each read by the decoder. -/
theorem tableWordsDecode : Obligations.TableWordsDecode := by
  unfold Obligations.TableWordsDecode
  decide

end Sys2Proof
end

section
/-! PROOFS. The step of the machine: a next state for every event, and what it is (20_memory.md R91, 30_encoding.md R112,
70_reset_and_hazards.md R260, R275). -/

namespace Sys2Proof.Machine

/-! ### Every step has a next state -/

theorem exists_exec_eq_next (i : Instr) (s : State) : ∃ t, exec i s = .next t := by
  cases ha : acceptedIn i s.mode with
  | true => exact ⟨_, exec_of_acceptedIn ha⟩
  | false =>
    by_cases he : s.mode = .error
    · have hi : i ≠ .clr := by rintro rfl; simp [acceptedIn] at ha
      exact ⟨_, exec_in_error hi he⟩
    · exact ⟨_, exec_of_not_acceptedIn he ha⟩

theorem exists_illegalCommand_eq_next (s : State) : ∃ t, illegalCommand s = .next t := by
  by_cases he : s.mode = .error
  · exact ⟨_, illegalCommand_in_error he⟩
  · exact ⟨_, illegalCommand_outside_error he⟩

theorem exists_writeCmd_eq_next (w : Word) (s : State) : ∃ t, writeCmd w s = .next t := by
  rcases writeCmd_cases w s with ⟨i, -, h⟩ | ⟨-, h⟩
  · rw [h]; exact exists_exec_eq_next i s
  · rw [h]; exact exists_illegalCommand_eq_next s

theorem exists_portWrite_eq_next (a : BitVec 30) (v : Word) (s : State) : ∃ t, portWrite a v s = .next t := by
  by_cases ha : a = cmdAddr
  · subst ha
    exact exists_writeCmd_eq_next v s
  · exact ⟨_, portWrite_data a v s ha⟩

/-! ### The step by its event -/

theorem step_of_no_event {s : State} (h : s.port = []) : step s = .next s := by
  simp only [step, h]

theorem step_of_event {s : State} {e : Event} {rest : List Event} (h : s.port = e :: rest) :
    step s = applyEvent e { s with port := rest, rdata := none } := by
  simp only [step, h]

theorem step_of_cmd {s : State} {w : Word} {rest : List Event} (h : s.port = .write cmdAddr w :: rest) :
    step s = writeCmd w { s with port := rest, rdata := none } := step_of_event h

/-- Settles O7: an event is a read, a port write or reset, and each has a next state. -/
theorem everyStepYieldsANextState : Obligations.EveryStepYieldsANextState := by
  refine ⟨fun s => ?step, exists_exec_eq_next⟩
  case step =>
    cases hp : s.port with
    | nil => exact ⟨s, step_of_no_event hp⟩
    | cons e rest =>
      rw [step_of_event hp]
      cases e with
      | read a => exact ⟨_, rfl⟩
      | write a v => exact exists_portWrite_eq_next a v _
      | reset => exact ⟨_, rfl⟩

/-- A table word that the decoder reads as a command is that command's word. -/
theorem decode_of_decodeTableWord {nbits w : Nat} {i : Instr} (h : decodeTableWord nbits w = some i) :
    decode (BitVec.ofNat 32 (w % 2 ^ nbits)) = .ok i := by
  unfold decodeTableWord at h
  split at h
  · split at h
    · next j hj => rw [hj, Option.some.inj h]
    · cases h
  · cases h

/-- Settles O12: each clause is the step of its event, and the placed word is the next event. -/
theorem stepRunsTheDecodedCommand : Obligations.StepRunsTheDecodedCommand := by
  refine fun s => ⟨step_of_no_event, fun w i rest hp hi => ?command, fun w rest hp hill => ?illegal,
    fun a v rest hp ha => ?write, fun a rest hp => step_of_event hp, fun nbits w i h => ?placed⟩
  case command => rw [step_of_cmd hp, writeCmd_of_decode _ hi]
  case illegal => rw [step_of_cmd hp, writeCmd_of_illegal _ hill]
  case write => rw [step_of_event hp, applyEvent, portWrite_data a v _ ha]
  case placed =>
    have hp : (s.withFetchWord nbits w).port = .write cmdAddr (BitVec.ofNat 32 (w % 2 ^ nbits)) :: s.port := rfl
    rw [step_of_cmd hp, writeCmd_of_decode _ (decode_of_decodeTableWord h)]
    rfl

/-- Settles O2: the event is taken off and `resetEvent` keeps the draw's count and the later events. -/
theorem resetEventGivesTheResetState : Obligations.ResetEventGivesTheResetState := by
  intro s rest hp
  rw [step_of_event hp]
  rfl

/-- Settles O1: the registers are constants, the arrays are zero by `byteAt_replicate`, no byte of a buffer is written, and no
event is pending. -/
theorem resetLeavesTheSpecsValues : Obligations.ResetLeavesTheSpecsValues := by
  refine ⟨rfl, rfl, rfl, rfl, rfl, rfl, rfl, rfl, rfl, rfl, rfl, rfl, fun i _ => ?key, fun i _ => ?chain, fun i _ => ?rks,
    fun _ => rfl, fun _ => rfl, rfl, rfl, step_of_no_event rfl⟩
  case key => simp [State.reset]
  case chain => simp [State.reset]
  case rks => simp [State.reset]

end Sys2Proof.Machine
end

section
/-! PROOFS. The invariants of 10_state.md R45: the reset state meets them and every event keeps them; and a valid schedule comes
from an expansion (R26, R158). -/

namespace Sys2Proof.Machine

/-! ### The invariants under each update -/

/-- The invariants do not speak of the pending events and of the read data. -/
theorem State.Inv.with_port_rdata {s : State} (h : s.Inv) (p : List Event) (r : Option Word) :
    State.Inv { s with port := p, rdata := r } := { h with }

/-- Outside ERROR there is no error code. -/
theorem State.Inv.errcode_eq_none {s : State} (h : s.Inv) (hm : s.mode ≠ .error) : s.errcode = none :=
  not_not.1 (mt h.error_iff.2 hm)

theorem inv_reset_with (n : Nat) (p : List Event) : State.Inv { State.reset with draw := n, port := p } where
  error_iff := by simp [State.reset]
  sv_iff := by simp [State.reset]
  no_schedule _ := ⟨rfl, fun i _ => by simp [State.reset]⟩
  schedule_tail := nofun
  in_stream := nofun
  in_idle _ := ⟨rfl, rfl⟩
  olen_le := by simp [State.reset]
  last_idle := nofun
  obuf_wf := rfl
  dbuf_wf := rfl
  obuf_within := rfl
  dbuf_within := rfl

theorem State.Inv.raise {s : State} (h : s.Inv) (e : ErrCode) : (raise e s).Inv :=
  { h with
    error_iff := by simp
    in_stream := nofun
    in_idle := nofun
    olen_le := by simp
    last_idle := nofun }

theorem State.Inv.clearCall {s : State} (h : s.Inv) : (clearCall s).Inv :=
  { h with
    error_iff := by simp
    in_stream := nofun
    in_idle := fun _ => ⟨rfl, rfl⟩
    olen_le := by simp
    last_idle := fun _ => rfl }

theorem State.Inv.storeKey {s : State} (h : s.Inv) (r : Block) : (storeKey r s).Inv :=
  { h with
    olen_le := by simp
    last_idle := nofun }

/-- A completed command outside the stream: `OLEN` is set to a small number and `LAST` to 0. -/
theorem State.Inv.with_olen {s : State} (h : s.Inv) {n : Word} (hn : n.toNat ≤ 1024) :
    State.Inv { s with olen := n, last := false } :=
  { h with
    olen_le := hn
    last_idle := nofun }

/-- A write of bytes inside `OBUF`. -/
theorem State.Inv.with_obuf {s : State} (h : s.Inv) {m : Memory} (hwf : m.wf = true)
    (hwithin : m.within Config.obufBytes = true) : State.Inv { s with obuf := m } :=
  { h with
    obuf_wf := hwf
    obuf_within := hwithin }

/-- A port write to `DBUF` stays inside it: its words fill it exactly. -/
theorem State.Inv.writeTarget {s : State} (h : s.Inv) {off : Nat} (h4 : off % 4 = 0) (v : Word) :
    (writeTarget (targetOf off) v s).Inv := by
  have hrow := targetOf_cases off h4
  cases ht : targetOf off
  case dbuf k =>
    simp only [ht, reduceCtorEq, and_false, exists_false, false_or, or_false, Target.dbuf.injEq] at hrow
    obtain ⟨j, hj, -, rfl⟩ := hrow
    have hmod := dbufBytes_mod_four
    have hfit : 4 * k + (lanes v).length ≤ Config.dbufBytes := by simp only [lanes, List.length_cons, List.length_nil]; omega
    exact { h with
      dbuf_wf := Memory.wf_setBytes _ _ _ h.dbuf_wf
      dbuf_within := Memory.within_setBytes _ _ _ _ hfit h.dbuf_within }
  all_goals exact { h with }

/-- An expansion writes a schedule of the sizes of R151 and zeros above it. -/
theorem State.Inv.expansion {s : State} (h : s.Inv) (hk : keyLengthOk s.klen.toNat = true) : (expansion s).Inv := by
  rw [← rawKey_length] at hk
  obtain ⟨nr, sched, hkey⟩ : ∃ nr sched, expandKey s.rawKey = some (nr, sched) := ⟨_, _, expandKey_of_ok _ hk⟩
  have hlen := schedule_length_of_expandKey hkey
  obtain ⟨-, hnr⟩ := length_of_expandKey hkey
  rw [expansion_eq s nr sched hkey]
  refine { h with sv_iff := ?_, no_schedule := nofun, schedule_tail := fun _ i hi htail => ?_, in_stream := fun hm => ?_ }
  · rcases hnr with rfl | rfl | rfl <;> simp
  · have hback : (BitVec.ofNat 4 nr).toNat = nr := by rw [BitVec.toNat_ofNat]; omega
    simp only [hback] at htail
    rw [byteAt_padTo, if_pos hi, List.getD_eq_default _ _ (by omega)]
  · exact ⟨rfl, (h.in_stream hm).2⟩

/-- SBEGIN begins a stream of whole blocks that holds the declared length. -/
theorem State.Inv.beginStream {s : State} (h : s.Inv) (hm : s.mode = .idle) (hsv : s.sv = true) {n : Word}
    (hmod : n.toNat % 16 = 0) (hdecl : s.declaredLength.toNat ≤ n.toNat) : (beginStream n s).Inv := by
  have herr := h.errcode_eq_none (by simp [hm])
  rw [beginStream_eq]
  by_cases hn : n = 0
  · subst hn
    have hzero : s.declaredLength = 0 := by
      apply BitVec.eq_of_toNat_eq
      simpa using hdecl
    exact { h with
      error_iff := by simp [herr]
      in_stream := nofun
      in_idle := fun _ => ⟨rfl, hzero⟩
      olen_le := by simp
      last_idle := fun _ => rfl }
  · have hpos : 0 < n.toNat := by
      rw [Nat.pos_iff_ne_zero, ← BitVec.toNat_zero, ne_eq, BitVec.toNat_inj]
      exact hn
    simp only [hn]
    exact { h with
      error_iff := by simp [herr]
      in_stream := fun _ => ⟨hsv, hpos, hmod, hdecl⟩
      in_idle := nofun
      olen_le := by simp
      last_idle := nofun }

/-- SNEXT takes a whole number of blocks off `REMCT`, and no more off `REMPT` than there is. -/
theorem State.Inv.snextRule {s : State} (h : s.Inv) (hm : s.mode = .stream) : (snextRule s).Inv := by
  obtain ⟨hsv, hpos, hmod, hle⟩ := h.in_stream hm
  obtain ⟨hw16, hw⟩ := windowBytes_whole_blocks h hm
  have herr := h.errcode_eq_none (by simp [hm])
  have hwdef : s.windowBytes = min 1024 s.remct.toNat := rfl
  have hfit : 16 * (s.windowBytes / 16) ≤ Config.obufBytes := by simp only [Config.obufBytes]; omega
  have hr := s.remct.isLt
  have hp := s.rempt.isLt
  rw [snextRule_of_block hw]
  have hout := h.with_obuf (windowBlocks_wf s (s.windowBytes / 16) h.obuf_wf)
    (windowBlocks_within s (s.windowBytes / 16) _ hfit h.obuf_within)
  have holen : (BitVec.ofNat 32 (min s.rempt.toNat s.windowBytes)).toNat ≤ 1024 := by
    rw [BitVec.toNat_ofNat]; omega
  by_cases hend : s.remct.toNat = s.windowBytes
  · have hpt : s.rempt.toNat - min s.rempt.toNat s.windowBytes = 0 := by omega
    exact { hout with
      error_iff := by simp [hend, herr]
      in_stream := by simp [hend]
      in_idle := fun _ => ⟨by simp [hend], by simp [hpt]⟩
      olen_le := holen
      last_idle := by simp [hend] }
  · have hct : (BitVec.ofNat 32 (s.remct.toNat - s.windowBytes)).toNat = s.remct.toNat - s.windowBytes := by
      rw [BitVec.toNat_ofNat]; omega
    have hpt : (BitVec.ofNat 32 (s.rempt.toNat - min s.rempt.toNat s.windowBytes)).toNat
        = s.rempt.toNat - min s.rempt.toNat s.windowBytes := by
      rw [BitVec.toNat_ofNat]; omega
    exact { hout with
      error_iff := by simp [hend, herr]
      in_stream := fun _ => ⟨hsv, by simp only [hct]; omega, by simp only [hct]; omega, by simp only [hct, hpt]; omega⟩
      in_idle := by simp [hend]
      olen_le := holen
      last_idle := by simp [hend] }

/-! ### The invariants under a command and a step -/

theorem State.Inv.exec {i : Instr} {s t : State} (h : s.Inv) (ht : exec i s = .next t) : t.Inv := by
  rcases exec_next_cases i s t ht with ⟨-, -, rfl⟩ | ⟨-, rfl⟩ | ⟨-, -, e, rfl, -⟩ | ⟨-, -, r, -, -, rfl⟩
    | ⟨-, -, hk, rfl⟩ | ⟨-, -, -, rfl⟩ | ⟨hm, x, -, hc, rfl⟩ | ⟨hm, -, rfl⟩
  · exact h -- ignored in ERROR
  · exact h.clearCall
  · exact h.raise e
  · exact h.storeKey r
  · exact (h.expansion hk).with_olen (by decide)
  · have hfit : 0 + (s.decBlock (s.dbufBlock 0)).toList.length ≤ Config.obufBytes := by
      rw [toList_length, Config.obufBytes]; omega
    have hout := h.with_obuf (Memory.wf_setBytes _ 0 _ h.obuf_wf) (Memory.within_setBytes _ _ 0 _ hfit h.obuf_within)
    exact hout.with_olen (by decide)
  · obtain ⟨hk, hsv, h20, hmod, hdecl⟩ := (sbeginCheck_eq_none x s).1 hc
    have hn : (s.slen - 20).toNat = s.slen.toNat - 20 := sub_ofNat_toNat s.slen 20 h20
    rw [← hn] at hmod hdecl
    cases x with
    | false => exact h.beginStream hm (hsv rfl) hmod hdecl
    | true =>
      refine (h.expansion (hk rfl)).beginStream ?_ (expansion_sv (hk rfl)) hmod ?_
      · rw [expansion_mode, hm]
      · rw [expansion_declaredLength]; exact hdecl
  · exact h.snextRule hm

/-- Settles O4: a step is one of the events of `step_cases`, and each keeps the invariants. -/
theorem everyStepKeepsTheInvariants : Obligations.EveryStepKeepsTheInvariants := by
  intro s t h hstep
  rcases step_cases s t hstep with ⟨-, rfl⟩ | ⟨a, rest, -, rfl⟩ | ⟨a, v, rest, -, -, rfl⟩ | ⟨w, i, rest, -, -, hexec⟩
    | ⟨w, rest, -, -, hill⟩ | ⟨rest, -, rfl⟩
  · exact h -- no event
  · exact h.with_port_rdata rest _ -- a read
  · exact (h.with_port_rdata rest none).writeTarget (offsetOf_mod_four a) v
  · exact (h.with_port_rdata rest none).exec hexec
  · rcases illegalCommand_cases _ t hill with ⟨-, rfl⟩ | ⟨-, rfl⟩ -- an illegal word
    · exact h.with_port_rdata rest none
    · exact (h.with_port_rdata rest none).raise _
  · exact inv_reset_with _ rest

/-! ### Runs -/

/-- What every step keeps, a run keeps. -/
theorem run_keeps {P : State → Prop} (hkeep : ∀ s t, P s → step s = .next t → P t) (n : Nat) {s t : State} (hs : P s)
    (h : Host.Core.run Sys2Proof.core n s = .next t) : P t := by
  induction n generalizing s with
  | zero =>
    cases h
    exact hs
  | succ n ih =>
    obtain ⟨u, hu⟩ := everyStepYieldsANextState.1 s
    have hu' : Sys2Proof.core.step s = .next u := hu
    have hrun : Host.Core.run Sys2Proof.core (n + 1) s = Host.Core.run Sys2Proof.core n u := by
      simp only [Host.Core.run, hu']
    exact ih (hkeep s u hs hu) (hrun ▸ h)

/-- Settles O5: the invariants hold at reset, whatever events are placed, and every step keeps them. -/
theorem reachableStatesMeetTheInvariants : Obligations.ReachableStatesMeetTheInvariants := by
  rintro t ⟨es, n, h⟩
  exact run_keeps everyStepKeepsTheInvariants n (inv_reset_with 0 es) h

/-! ### Where a schedule comes from -/

theorem SameSchedule.scheduleExpanded {s t : State} (h : SameSchedule s t) (hs : s.ScheduleExpanded) :
    t.ScheduleExpanded := by
  obtain ⟨hrks, hnr, hsv⟩ := h
  simpa only [State.ScheduleExpanded, hrks, hnr, hsv] using hs

theorem scheduleExpanded_of_sv_eq_false {s : State} (h : s.sv = false) : s.ScheduleExpanded := by
  intro hsv
  rw [h] at hsv
  cases hsv

/-- An expansion leaves what `Expand` gives for the RawKey of the state. -/
theorem scheduleExpanded_expansion {s : State} (hk : keyLengthOk s.klen.toNat = true) :
    (expansion s).ScheduleExpanded := by
  rw [← rawKey_length] at hk
  have hkey := expandKey_of_ok _ hk
  rw [expansion_eq s _ _ hkey]
  exact fun _ => ⟨_, _, _, hkey, rfl, rfl⟩

/-- A command leaves the schedule as it is, or as an expansion leaves it. -/
theorem sameSchedule_of_exec {i : Instr} {s t : State} (h : exec i s = .next t) :
    SameSchedule s t ∨ (keyLengthOk s.klen.toNat = true ∧ SameSchedule (expansion s) t) := by
  rcases exec_next_cases i s t h with ⟨-, -, rfl⟩ | ⟨-, rfl⟩ | ⟨-, -, e, rfl, -⟩ | ⟨-, -, r, -, -, rfl⟩
    | ⟨-, -, hk, rfl⟩ | ⟨-, -, -, rfl⟩ | ⟨-, x, -, hc, rfl⟩ | ⟨-, -, rfl⟩
  · exact .inl (.refl _) -- ignored in ERROR
  · exact .inl (.refl s) -- CLR
  · exact .inl (sameSchedule_raise e s)
  · exact .inl (.refl s) -- EXTRACT
  · exact .inr ⟨hk, .refl (expansion s)⟩ -- EXPAND
  · exact .inl (.refl s) -- DECBLK
  · cases x with
    | false => exact .inl (sameSchedule_beginStream _ s)
    | true => exact .inr ⟨((sbeginCheck_eq_none true s).1 hc).1 rfl, sameSchedule_beginStream _ (expansion s)⟩
  · exact .inl (sameSchedule_snextRule s)

/-- Settles O6: a step leaves the schedule as it is, expands one, or is reset, after which there is none. -/
theorem everyStepKeepsTheScheduleExpanded : Obligations.EveryStepKeepsTheScheduleExpanded := by
  intro s t hs hstep
  rcases step_cases s t hstep with ⟨-, rfl⟩ | ⟨a, rest, -, rfl⟩ | ⟨a, v, rest, -, -, rfl⟩ | ⟨w, i, rest, -, -, hexec⟩
    | ⟨w, rest, -, -, hill⟩ | ⟨rest, -, rfl⟩
  · exact hs -- no event
  · exact hs -- a read
  · exact (sameSchedule_writeTarget _ v { s with port := rest, rdata := none }).scheduleExpanded hs
  · rcases sameSchedule_of_exec hexec with hsame | ⟨hk, hsame⟩
    · exact hsame.scheduleExpanded hs
    · exact hsame.scheduleExpanded (scheduleExpanded_expansion hk)
  · rcases illegalCommand_cases _ t hill with ⟨-, rfl⟩ | ⟨-, rfl⟩ -- an illegal word
    · exact hs
    · exact (sameSchedule_raise _ { s with port := rest, rdata := none }).scheduleExpanded hs
  · exact scheduleExpanded_of_sv_eq_false rfl

/-- Settles O3: the case of no reset event and no pending event of `inv_reset_with`; reset leaves no schedule. -/
theorem resetSatisfiesTheInvariants : Obligations.ResetSatisfiesTheInvariants :=
  ⟨inv_reset_with 0 [], scheduleExpanded_of_sv_eq_false rfl⟩

end Sys2Proof.Machine
end

section
/-! PROOFS. Errors: they are precise, ERROR ignores every word but CLR's, and which command raises which error
(60_exceptions.md R226 to R234). -/

namespace Sys2Proof.Machine

/-! ### Error entry -/

/-- Settles O14: the only row of `Transition` that leaves ERROR behind a state outside it is `raised`. -/
theorem errorsArePrecise : Obligations.ErrorsArePrecise := by
  intro i s t hs h ht
  cases exec_transition h with
  | ignored hm => exact absurd hm hs
  | cleared => cases ht
  | raised e => exact ⟨e, rfl⟩
  | completed _ _ hidle => simp [hidle] at ht
  | begun _ _ hmode => split at hmode <;> simp [hmode] at ht
  | window _ hmode => split at hmode <;> simp [hmode] at ht

/-! ### What depends on `STATE` -/

theorem targetOf_eq_status {a : BitVec 30} (h : targetOf (offsetOf a) = .status) : a = addrOf 0x004 := by
  have hrow := targetOf_cases (offsetOf a) (offsetOf_mod_four a)
  have hoff : offsetOf a = 0x004 := by simpa [h] using hrow
  exact offsetOf_inj a _ (by rw [hoff, offsetOf_addrOf _ rfl (by decide)])

theorem readTarget_with_mode {t : Target} (ht : t ≠ .status) (m : Mode) (s : State) :
    readTarget t { s with mode := m } = readTarget t s := by
  cases t with
  | status => exact absurd rfl ht
  | _ => rfl

theorem writeTarget_with_mode (t : Target) (v : Word) (m : Mode) (s : State) :
    writeTarget t v { s with mode := m } = { writeTarget t v s with mode := m } := by
  cases t <;> rfl

/-- Settles O15: no word but CLR's does anything in ERROR, only STATUS reads `STATE`, and no data write reads or writes it. -/
theorem errorStateIgnoresEveryWordButClr : Obligations.ErrorStateIgnoresEveryWordButClr := by
  refine fun s he => ⟨fun w rest hp hw => ?ignored, fun m a v => ⟨fun ha => ?read, fun ha => ?write⟩⟩
  case ignored =>
    rw [step_of_cmd hp]
    exact writeCmd_in_error he hw
  case read => exact readTarget_with_mode (fun ht => ha (targetOf_eq_status ht)) m s
  case write =>
    obtain ⟨hmode, -, -, herr, -⟩ := writeTarget_frame (targetOf (offsetOf a)) v s
    refine ⟨_, portWrite_data a v s ha, hmode.trans he, herr, ?_⟩
    rw [portWrite_data a v _ ha, writeTarget_with_mode]

/-! ### Which command raises which error -/

/-- A command that has an error of its own runs in IDLE. -/
theorem homeOf_of_mem_errorsOf {i : Instr} {e : ErrCode} (h : e ∈ errorsOf i) : homeOf i = .idle := by
  cases i with
  | snext => cases h
  | _ => rfl

/-- An error that a command raises outside ERROR is error 8 away from its home, or one of its own at home. -/
theorem exec_errcode {i : Instr} {s t : State} {e : ErrCode} (hinv : s.Inv) (hm : s.mode ≠ .error)
    (h : exec i s = .next t) (he : t.errcode = some e) :
    i ≠ .clr ∧ ((e = .sequence ∧ s.mode ≠ homeOf i) ∨ (e ∈ errorsOf i ∧ s.mode = homeOf i)) := by
  have hmode : t.mode = .error := (hinv.exec h).error_iff.2 (by simp [he])
  rcases exec_next_cases i s t h with ⟨herr, -⟩ | ⟨-, rfl⟩ | ⟨-, hi, e', rfl, hwhy⟩ | ⟨hs, -, r, -, -, rfl⟩
    | ⟨hs, -, -, rfl⟩ | ⟨hs, -, -, rfl⟩ | ⟨-, x, -, -, rfl⟩ | ⟨-, -, rfl⟩
  · exact absurd herr hm
  · cases hmode
  · obtain rfl : e' = e := Option.some.inj he
    exact ⟨hi, hwhy⟩
  · simp [hs] at hmode -- EXTRACT
  · simp [hs] at hmode -- EXPAND
  · simp [hs] at hmode -- DECBLK
  · exact absurd hmode (beginStream_mode_ne_error _ _)
  · exact absurd hmode (snextRule_mode_ne_error s)

/-- A core with a stream of one block to come, under the schedule of zeros. -/
def oneBlockStream : State := { State.reset with mode := .stream, sv := true, nr := 10, remct := 16 }

theorem oneBlockStream_inv : oneBlockStream.Inv :=
  { inv_reset_with 0 [] with
    error_iff := by decide
    sv_iff := by decide
    no_schedule := nofun
    schedule_tail := fun _ i _ _ => by simp [oneBlockStream, State.reset]
    in_stream := by decide
    in_idle := nofun
    last_idle := nofun }

/-- A state that meets the invariants in IDLE and in STREAM. -/
theorem exists_inv_of_mode {m : Mode} (hm : m ≠ .error) : ∃ s : State, s.Inv ∧ s.mode = m := by
  cases m with
  | idle => exact ⟨State.reset, inv_reset_with 0 [], rfl⟩
  | stream => exact ⟨oneBlockStream, oneBlockStream_inv, rfl⟩
  | error => exact absurd rfl hm

/-- Outside ERROR there is a command that is not accepted. -/
theorem exists_not_acceptedIn {m : Mode} (hm : m ≠ .error) : ∃ i, acceptedIn i m = false := by
  cases m with
  | idle => exact ⟨.snext, rfl⟩
  | stream => exact ⟨.extract, rfl⟩
  | error => exact absurd rfl hm

/-- Settles O16: the cause of an error is `exec_errcode`; a command that is not accepted and the word 0 raise errors 8 and 10
from the reset state and from a stream in progress. -/
theorem eachErrorHasItsCommandAndItsState : Obligations.EachErrorHasItsCommandAndItsState := by
  refine ⟨fun i s t e hinv hm h he => ?cause, fun m hm => ?sequence, fun m hm => ?illegal⟩
  case cause =>
    obtain ⟨hi, ⟨hseq, hhome⟩ | ⟨hmem, hhome⟩⟩ := exec_errcode hinv hm h he
    · refine .inl ⟨hseq, ?_⟩
      rw [← Bool.not_eq_true, acceptedIn_iff, not_or]
      exact ⟨hi, hhome⟩
    · exact .inr ⟨hmem, (acceptedIn_iff i s.mode).2 (.inr hhome), hhome.trans (homeOf_of_mem_errorsOf hmem)⟩
  case sequence =>
    obtain ⟨s, hinv, rfl⟩ := exists_inv_of_mode hm
    obtain ⟨i, hi⟩ := exists_not_acceptedIn hm
    exact ⟨i, s, _, hinv, rfl, exec_of_not_acceptedIn hm hi, rfl⟩
  case illegal =>
    obtain ⟨s, hinv, rfl⟩ := exists_inv_of_mode hm
    have hill : ∀ i, decode 0 ≠ .ok i := (forall_decode_ne_ok_iff 0).2 (.inl rfl)
    exact ⟨0, s, _, hinv, rfl, (writeCmd_of_illegal s hill).trans (illegalCommand_outside_error hm), rfl⟩

end Sys2Proof.Machine
end

section
/-! PROOFS. The word STATUS and its fields (10_state.md R24, R25, 60_exceptions.md R226). -/

namespace Sys2Proof.Machine

/-- A field laid above the bits of a word adds its shifted value. -/
theorem toNat_or_shiftLeft {x y : Word} {k : Nat} (hx : x.toNat < 2 ^ k) (hy : y.toNat * 2 ^ k < 2 ^ 32) :
    (x ||| y <<< k).toNat = x.toNat + 2 ^ k * y.toNat := by
  rw [BitVec.toNat_or, BitVec.toNat_shiftLeft, Nat.shiftLeft_eq, Nat.mod_eq_of_lt hy, Nat.or_comm, Nat.mul_comm,
    ← Nat.two_pow_add_eq_or_of_lt hx, Nat.add_comm]

theorem code_toNat_le (m : Mode) : m.code.toNat ≤ 2 := by
  cases m <;> decide

theorem errField_toNat_le (e : Option ErrCode) : (errField e).toNat ≤ 11 := by
  cases e with
  | none => decide
  | some e => cases e <;> decide

/-- STATUS is the sum of its fields, each at its place (R24). -/
theorem status_toNat (s : State) :
    s.status.toNat = s.mode.code.toNat + 4 * s.sv.toNat + 8 * s.last.toNat + 16 * (errField s.errcode).toNat
      + 256 * s.nr.toNat := by
  have hm := code_toNat_le s.mode
  have hsv := Bool.toNat_le s.sv
  have hlast := Bool.toNat_le s.last
  have herr := errField_toNat_le s.errcode
  have hnr := s.nr.isLt
  have hmode : (s.mode.code.setWidth 32).toNat = s.mode.code.toNat := BitVec.toNat_setWidth_of_le (by decide)
  have hbool (b : Bool) : ((BitVec.ofBool b).setWidth 32).toNat = b.toNat := by cases b <;> rfl
  have hfield (x : BitVec 4) : (x.setWidth 32).toNat = x.toNat := BitVec.toNat_setWidth_of_le (by decide)
  have h1 := toNat_or_shiftLeft (x := s.mode.code.setWidth 32) (y := (BitVec.ofBool s.sv).setWidth 32) (k := 2)
    (by omega) (by rw [hbool]; omega)
  have h2 := toNat_or_shiftLeft (y := (BitVec.ofBool s.last).setWidth 32) (k := 3) (by rw [h1, hmode, hbool]; omega)
    (by rw [hbool]; omega)
  have h3 := toNat_or_shiftLeft (y := (errField s.errcode).setWidth 32) (k := 4)
    (by rw [h2, h1, hmode, hbool, hbool]; omega) (by rw [hfield]; omega)
  have h4 := toNat_or_shiftLeft (y := s.nr.setWidth 32) (k := 8)
    (by rw [h3, h2, h1, hmode, hbool, hbool, hfield]; omega) (by rw [hfield]; omega)
  rw [State.status, h4, h3, h2, h1, hmode, hbool, hbool, hfield, hfield]
  omega

/-- Under the invariants `NR` is a round count or 0 (R29, R45). -/
theorem State.Inv.nr_cases {s : State} (h : s.Inv) : s.nr = 0 ∨ s.nr = 10 ∨ s.nr = 12 ∨ s.nr = 14 := by
  cases hsv : s.sv with
  | true => exact .inr (h.sv_iff.1 hsv)
  | false => exact .inl (h.no_schedule hsv).1

/-- Settles O17: the numbers are the definitions' own, the sum is `status_toNat`, whose bound gives the reserved bits, and
STATUS is a read-only target. -/
theorem statusPacksItsFields : Obligations.StatusPacksItsFields := by
  refine ⟨rfl, ⟨rfl, rfl, rfl⟩, ⟨rfl, rfl, rfl, rfl, rfl, rfl, rfl, rfl, rfl, rfl, rfl, rfl, fun _ => rfl⟩, fun s => ?_⟩
  have hm := code_toNat_le s.mode
  have herr := errField_toNat_le s.errcode
  have hread : portRead (addrOf 0x004) s = s.status := rfl
  refine ⟨hread, status_toNat s, ?reserved, ?state, herr, State.Inv.nr_cases, fun v => rfl, rfl⟩
  case reserved =>
    have hsum := status_toNat s
    have hsv := Bool.toNat_le s.sv
    have hlast := Bool.toNat_le s.last
    have hnr := s.nr.isLt
    apply BitVec.eq_of_toNat_eq
    have hzero : (0 : Word).toNat = 0 := rfl
    rw [BitVec.toNat_ushiftRight, Nat.shiftRight_eq_div_pow, hzero]
    omega
  case state =>
    intro h3
    rw [h3] at hm
    exact absurd hm (by decide)

end Sys2Proof.Machine
end

section
/-! PROOFS. The port as a memory of words: what a read answers, what a write leaves, and what may be repeated (20_memory.md R85,
R87, R91). -/

namespace Sys2Proof.Machine

/-- Settles O18: a register's read is its field; at the offset of an array's word the target is that word. -/
theorem portReadsAnswerTheirRegisters : Obligations.PortReadsAnswerTheirRegisters := by
  intro s
  have hle := dbufBytes_le
  refine ⟨rfl, rfl, rfl, rfl, rfl, rfl, rfl, rfl, rfl, rfl, rfl, fun k hk => ?key, fun k hk => ?chain, fun k hk => ?rks,
    fun k hk => ?obuf, fun k hk => ?dbuf, fun a ha => ?unmapped, fun i hi => ?freeObuf, fun i hi => ?freeDbuf, fun a => rfl⟩
  case key => rw [portRead_addrOf s (by omega) (by omega) (targetOf_key k hk), readTarget]
  case chain => rw [portRead_addrOf s (by omega) (by omega) (targetOf_chain k hk), readTarget]
  case rks => rw [portRead_addrOf s (by omega) (by omega) (targetOf_rks k hk), readTarget]
  case obuf => rw [portRead_addrOf s (by omega) (by omega) (targetOf_obuf k hk), readTarget]
  case dbuf => rw [portRead_addrOf s (by omega) (by omega) (targetOf_dbuf k hk), readTarget]
  case unmapped => rw [portRead, targetOf_unmapped (offsetOf a) (offsetOf_mod_four a) ha, readTarget]
  case freeObuf => rw [State.obufByte, hi, Option.getD_none]
  case freeDbuf => rw [State.dbufByte, hi, Option.getD_none]

/-! ### Which offset a target has -/

/-- The offset of a mapped target's word (10_state.md R47). -/
def Target.offset : Target → Nat
  | .cmd => 0x000
  | .status => 0x004
  | .dlen => 0x008
  | .slen => 0x00c
  | .klen => 0x010
  | .olen => 0x014
  | .declen => 0x018
  | .remct => 0x01c
  | .rempt => 0x020
  | .id => 0x024
  | .cap => 0x028
  | .key k => 0x040 + 4 * k
  | .chain k => 0x060 + 4 * k
  | .rks k => 0x100 + 4 * k
  | .obuf k => 0x400 + 4 * k
  | .dbuf k => 0x1000 + 4 * k
  | .unmapped => 0

theorem offset_targetOf {off : Nat} (h4 : off % 4 = 0) (h : targetOf off ≠ .unmapped) :
    Target.offset (targetOf off) = off := by
  rcases targetOf_cases off h4 with ⟨ho, ht⟩ | ⟨ho, ht⟩ | ⟨ho, ht⟩ | ⟨ho, ht⟩ | ⟨ho, ht⟩ | ⟨ho, ht⟩ | ⟨ho, ht⟩ | ⟨ho, ht⟩
    | ⟨ho, ht⟩ | ⟨ho, ht⟩ | ⟨ho, ht⟩ | ⟨k, -, ho, ht⟩ | ⟨k, -, ho, ht⟩ | ⟨k, -, ho, ht⟩ | ⟨k, -, ho, ht⟩ | ⟨k, -, ho, ht⟩
    | ⟨-, ht⟩
  on_goal 17 => exact absurd ht h
  all_goals rw [ht, ho, Target.offset]

/-- Two addresses that name the same word are one address. -/
theorem address_eq_of_targetOf_eq {a b : BitVec 30} (h : targetOf (offsetOf a) = targetOf (offsetOf b))
    (hmap : targetOf (offsetOf a) ≠ .unmapped) : a = b := by
  apply offsetOf_inj
  rw [← offset_targetOf (offsetOf_mod_four a) hmap, h, offset_targetOf (offsetOf_mod_four b) (h ▸ hmap)]

/-! ### A read after a write -/

/-- Word `k` of an array depends on its own four bytes only. -/
theorem wordAt_congr {f g : Nat → Byte} {k : Nat} (h : ∀ j < 4, f (4 * k + j) = g (4 * k + j)) :
    wordAt f k = wordAt g k := by
  rw [wordAt, wordAt, h 1 (by decide), h 2 (by decide), h 3 (by decide), show f (4 * k) = g (4 * k) from h 0 (by decide)]

/-- A word whose four bytes are the lanes of `v` is `v`. -/
theorem wordAt_of_lanes {f : Nat → Byte} {k : Nat} {v : Word} (h : ∀ j < 4, f (4 * k + j) = lane v j) :
    wordAt f k = v := by
  rw [wordAt, h 1 (by decide), h 2 (by decide), h 3 (by decide), show f (4 * k) = lane v 0 from h 0 (by decide),
    le32_lanes]

theorem wordAt_setWord_ne {n : Nat} (b : Bytes n) {j k : Nat} (v : Word) (h : j ≠ k) :
    wordAt (byteAt (setWord b k v)) j = wordAt (byteAt b) j := by
  refine wordAt_congr fun r hr => ?_
  rw [byteAt_setWord, if_neg (show (4 * j + r) / 4 ≠ k by omega)]
  split
  · rfl
  · rw [byteAt_past b _ (by omega)]

theorem wordAt_setWord_self {n : Nat} (b : Bytes n) {k : Nat} (v : Word) (h : 4 * k + 4 ≤ n) :
    wordAt (byteAt (setWord b k v)) k = v := by
  refine wordAt_of_lanes fun r hr => ?_
  have hmod : (4 * k + r) % 4 = r := by omega
  rw [byteAt_setWord, if_pos (by omega), if_pos (by omega), hmod]

/-- A data write leaves what every other target reads as. -/
theorem readTarget_writeTarget_of_ne {t u : Target} (h : u ≠ t) (v : Word) (s : State) :
    readTarget u (writeTarget t v s) = readTarget u s := by
  cases t with
  | cmd | status | olen | declen | remct | rempt | id | cap | chain | rks | obuf | unmapped => rfl
  | dlen =>
    cases u with
    | dlen => exact absurd rfl h
    | _ => rfl
  | slen =>
    cases u with
    | slen => exact absurd rfl h
    | _ => rfl
  | klen =>
    cases u with
    | klen => exact absurd rfl h
    | _ => rfl
  | key k =>
    cases u with
    | key j => exact wordAt_setWord_ne s.key v (fun hj => h (hj ▸ rfl))
    | _ => rfl
  | dbuf k =>
    cases u with
    | dbuf j =>
      have hjk : j ≠ k := fun hj => h (hj ▸ rfl)
      refine wordAt_congr fun r hr => ?_
      rw [writeTarget, dbufByte_setBytes_lanes, if_neg (by omega)]
    | _ => rfl

/-- The writable words read as the value last written (R91). -/
theorem readTarget_writeTarget_self (v : Word) (s : State) {off : Nat} (h4 : off % 4 = 0)
    (h : (0x008 ≤ off ∧ off < 0x014) ∨ (0x040 ≤ off ∧ off < 0x060) ∨ (0x1000 ≤ off ∧ off < 0x1000 + Config.dbufBytes)) :
    readTarget (targetOf off) (writeTarget (targetOf off) v s) = v := by
  rcases h with h | h | h
  · have hreg : off = 0x008 ∨ off = 0x00c ∨ off = 0x010 := by omega
    rcases hreg with rfl | rfl | rfl <;> rfl
  · obtain ⟨k, hk, rfl⟩ : ∃ k < 8, off = 0x040 + 4 * k := ⟨(off - 0x040) / 4, by omega, by omega⟩
    rw [targetOf_key k hk]
    exact wordAt_setWord_self s.key v (by omega)
  · obtain ⟨k, hk, rfl⟩ : ∃ k, 4 * k < Config.dbufBytes ∧ off = 0x1000 + 4 * k :=
      ⟨(off - 0x1000) / 4, by omega, by omega⟩
    rw [targetOf_dbuf k hk]
    refine wordAt_of_lanes fun r hr => ?_
    have hmod : (4 * k + r) % 4 = r := by omega
    rw [writeTarget, dbufByte_setBytes_lanes, if_pos (by omega), hmod]

/-- Settles O21: another address has another target, or is unmapped as this one is and the write is ignored. -/
theorem readsGiveTheLatestWrite : Obligations.ReadsGiveTheLatestWrite := by
  intro s t a b v ha h
  rw [portWrite_data a v s ha, Host.Outcome.next.injEq] at h
  subst h
  refine ⟨fun hb => ?other, fun hrange => readTarget_writeTarget_self v s (offsetOf_mod_four a) hrange⟩
  case other =>
    by_cases hsame : targetOf (offsetOf b) = targetOf (offsetOf a)
    · have hun : targetOf (offsetOf b) = .unmapped := by
        by_contra hmap
        exact hb (address_eq_of_targetOf_eq hsame hmap)
      rw [← hsame, hun, writeTarget]
    · exact readTarget_writeTarget_of_ne hsame v s

/-! ### Repeated accesses -/

/-- Writes to two indices of a buffer commute, on any list of cells. -/
theorem Memory.set_comm (m : Memory) {a b : Nat} (x y : Byte) (h : a < b) :
    Memory.set (Memory.set m a x) b y = Memory.set (Memory.set m b y) a x := by
  induction m with
  | nil => simp [Memory.set, h, Nat.lt_asymm h, Nat.ne_of_gt h]
  | cons c rest ih =>
    rcases Nat.lt_trichotomy b c.1 with hb | hb | hb
    · have hac : a < c.1 := by omega
      simp [Memory.set, hac, hb, h, Nat.lt_asymm h, Nat.ne_of_gt h]
    · have hac : a < c.1 := by omega
      simp [Memory.set, hac, hb, Nat.lt_asymm hac, Nat.ne_of_gt hac]
    · rcases Nat.lt_trichotomy a c.1 with ha | ha | ha
      · simp [Memory.set, ha, Nat.lt_asymm hb, Nat.ne_of_gt hb, Nat.lt_asymm h, Nat.ne_of_gt h]
      · simp [Memory.set, ha, Nat.lt_asymm hb, Nat.ne_of_gt hb]
      · simp [Memory.set, Nat.lt_asymm ha, Nat.ne_of_gt ha, Nat.lt_asymm hb, Nat.ne_of_gt hb, ih]

theorem Memory.set_set_same (m : Memory) (a : Nat) (x : Byte) :
    Memory.set (Memory.set m a x) a x = Memory.set m a x := by
  induction m with
  | nil => simp [Memory.set]
  | cons c rest ih =>
    rcases Nat.lt_trichotomy a c.1 with ha | ha | ha
    · simp [Memory.set, ha]
    · simp [Memory.set, ha]
    · simp [Memory.set, Nat.lt_asymm ha, Nat.ne_of_gt ha, ih]

theorem Memory.set_setBytes_comm (m : Memory) {a b : Nat} (x : Byte) (l : List Byte) (h : a < b) :
    Memory.set (Memory.setBytes m b l) a x = Memory.setBytes (Memory.set m a x) b l := by
  induction l generalizing m b with
  | nil => rfl
  | cons y l ih => rw [Memory.setBytes, Memory.setBytes, ih _ (by omega), Memory.set_comm m x y h]

theorem Memory.setBytes_setBytes_same (m : Memory) (a : Nat) (l : List Byte) :
    Memory.setBytes (Memory.setBytes m a l) a l = Memory.setBytes m a l := by
  induction l generalizing m a with
  | nil => rfl
  | cons x l ih =>
    rw [Memory.setBytes, Memory.setBytes, Memory.set_setBytes_comm _ x l (by omega), Memory.set_set_same, ih]

theorem setWord_setWord_same {n : Nat} (b : Bytes n) (k : Nat) (v : Word) :
    setWord (setWord b k v) k v = setWord b k v := by
  apply bytes_ext
  intro i hi
  simp only [byteAt_setWord, if_pos hi]
  split <;> rfl

/-- A data write made twice is the write made once (R85). -/
theorem writeTarget_writeTarget_same (t : Target) (v : Word) (s : State) :
    writeTarget t v (writeTarget t v s) = writeTarget t v s := by
  cases t with
  | key k => simp only [writeTarget, setWord_setWord_same]
  | dbuf k => simp only [writeTarget, Memory.setBytes_setBytes_same]
  | _ => rfl

/-- Settles O22: data writes and reads by the laws above; SNEXT on the last block of a stream ends it, and SNEXT again is
error 8. -/
theorem dataWritesAreIdempotentAndCommandsAreNot : Obligations.DataWritesAreIdempotentAndCommandsAreNot := by
  refine ⟨fun s t a v ha h => ?write, fun s t a h => ?read, ?command⟩
  case write =>
    rw [portWrite_data a v s ha, Host.Outcome.next.injEq] at h
    subst h
    rw [portWrite_data a v _ ha, writeTarget_writeTarget_same]
  case read =>
    rw [applyEvent, Host.Outcome.next.injEq] at h
    subst h
    have hagain : portRead a { s with rdata := some (portRead a s) } = portRead a s := portRead_rdata a s _
    simp only [applyEvent, hagain]
  case command =>
    have hidle : (snextRule oneBlockStream).mode = .idle := by rw [snextRule_eq]; rfl
    refine ⟨oneBlockStream, snextRule oneBlockStream, raise .sequence (snextRule oneBlockStream), encode .snext,
      oneBlockStream_inv, ?_, ?_, ?_⟩
    · rw [writeCmd_of_decode _ (decode_encode .snext), exec_at_home .snext _ rfl, ruleOf]
    · rw [writeCmd_of_decode _ (decode_encode .snext),
        exec_of_not_acceptedIn (by simp [hidle]) (by simp [hidle, acceptedIn])]
    · intro h
      exact snextRule_mode_ne_error oneBlockStream (h ▸ raise_mode .sequence (snextRule oneBlockStream))

end Sys2Proof.Machine
end

section
/-! PROOFS. The constant tables are what the spec's formulas define (11_constants.md R60 to R69). -/

namespace Sys2Proof.Machine

/-! ### The substitution boxes -/

/-- The inverse of the affine map: XOR of three rotations and 0x05. -/
def sboxUnaffine (b : Byte) : Byte := b.rotateLeft 1 ^^^ b.rotateLeft 3 ^^^ b.rotateLeft 6 ^^^ 0x05

theorem sboxAffine_unaffine (b : Byte) : sboxAffine (sboxUnaffine b) = b := by
  revert b
  exact forall_byte (by decide +kernel)

/-- Taking the affine map off `SBOX[a]` leaves the field inverse of `a`, or 0 for 0. -/
theorem gmul_sboxUnaffine_sbox (a : Byte) :
    (a = 0 ∧ sboxUnaffine (sbox a) = 0) ∨ gmul a (sboxUnaffine (sbox a)) = 1 := by
  revert a
  exact forall_byte (by decide +kernel)

/-- Settles O23: the inverse of `a` is `SBOX[a]` with the affine map taken off. -/
theorem sboxIsTheAffineMapOfTheFieldInverse : Obligations.SboxIsTheAffineMapOfTheFieldInverse :=
  fun a => ⟨sboxUnaffine (sbox a), gmul_sboxUnaffine_sbox a, (sboxAffine_unaffine (sbox a)).symm⟩

@[simp] theorem invSbox_sbox (a : Byte) : invSbox (sbox a) = a := by
  revert a
  exact forall_byte (by decide +kernel)

@[simp] theorem sbox_invSbox (a : Byte) : sbox (invSbox a) = a := by
  revert a
  exact forall_byte (by decide +kernel)

/-- Settles O24: each composition, checked on the 256 bytes. -/
theorem theSubstitutionBoxesAreInverse : Obligations.TheSubstitutionBoxesAreInverse :=
  fun a => ⟨invSbox_sbox a, sbox_invSbox a⟩

/-! ### The multiply tables -/

theorem mul9_eq_gmul (a : Byte) : mul9 a = gmul a 0x09 := by
  revert a
  exact forall_byte (by decide +kernel)

theorem mul11_eq_gmul (a : Byte) : mul11 a = gmul a 0x0b := by
  revert a
  exact forall_byte (by decide +kernel)

theorem mul13_eq_gmul (a : Byte) : mul13 a = gmul a 0x0d := by
  revert a
  exact forall_byte (by decide +kernel)

theorem mul14_eq_gmul (a : Byte) : mul14 a = gmul a 0x0e := by
  revert a
  exact forall_byte (by decide +kernel)

theorem mul9_xor (a b : Byte) : mul9 (a ^^^ b) = mul9 a ^^^ mul9 b := by simp only [mul9_eq_gmul, gmul_xor]
theorem mul11_xor (a b : Byte) : mul11 (a ^^^ b) = mul11 a ^^^ mul11 b := by simp only [mul11_eq_gmul, gmul_xor]
theorem mul13_xor (a b : Byte) : mul13 (a ^^^ b) = mul13 a ^^^ mul13 b := by simp only [mul13_eq_gmul, gmul_xor]
theorem mul14_xor (a b : Byte) : mul14 (a ^^^ b) = mul14 a ^^^ mul14 b := by simp only [mul14_eq_gmul, gmul_xor]

/-- An additive map that takes no other byte to 0 takes no two bytes to one. -/
theorem eq_of_additive {f : Byte → Byte} (hadd : ∀ a b, f (a ^^^ b) = f a ^^^ f b) (hzero : ∀ a, f a = 0 → a = 0)
    {a b : Byte} (h : f a = f b) : a = b := by
  have hxor : f (a ^^^ b) = 0 := by rw [hadd, h, BitVec.xor_self]; rfl
  exact BitVec.xor_eq_zero_iff.1 (hzero _ hxor)

/-! The tables take 0 to 0 alone. -/

theorem eq_zero_of_mul9_eq_zero (a : Byte) : mul9 a = 0 → a = 0 := by
  revert a
  exact forall_byte (by decide +kernel)

theorem eq_zero_of_mul11_eq_zero (a : Byte) : mul11 a = 0 → a = 0 := by
  revert a
  exact forall_byte (by decide +kernel)

theorem eq_zero_of_mul13_eq_zero (a : Byte) : mul13 a = 0 → a = 0 := by
  revert a
  exact forall_byte (by decide +kernel)

theorem eq_zero_of_mul14_eq_zero (a : Byte) : mul14 a = 0 → a = 0 := by
  revert a
  exact forall_byte (by decide +kernel)

/-- Settles O25: the products are checked on the 256 bytes; multiplication is additive, so it is enough that 0 is the only byte
that a table takes to 0. -/
theorem theMultiplyTablesAreFieldProducts : Obligations.TheMultiplyTablesAreFieldProducts := by
  refine ⟨fun a => ⟨mul9_eq_gmul a, mul11_eq_gmul a, mul13_eq_gmul a, mul14_eq_gmul a⟩, rfl, rfl, rfl, rfl,
    fun a b => ⟨?nine, ?eleven, ?thirteen, ?fourteen⟩⟩
  case nine => exact eq_of_additive mul9_xor eq_zero_of_mul9_eq_zero
  case eleven => exact eq_of_additive mul11_xor eq_zero_of_mul11_eq_zero
  case thirteen => exact eq_of_additive mul13_xor eq_zero_of_mul13_eq_zero
  case fourteen => exact eq_of_additive mul14_xor eq_zero_of_mul14_eq_zero

/-! ### The round constants -/

/-- Settles O26: the closed form is the definition's; the ten constants are compared with the recurrence one by one. -/
theorem theRoundConstantsAreTheDoublingRecurrence : Obligations.TheRoundConstantsAreTheDoublingRecurrence := by
  refine ⟨fun t _ => rfl, fun t h1 h10 => ?_⟩
  interval_cases t <;> decide

end Sys2Proof.Machine
end

section
/-! PROOFS. The transforms of the block engine, byte by byte, and `DecBlock` as the inverse of the forward cipher
(42_decblk.md R168, R171 to R175). -/

namespace Sys2Proof.Machine

/-! ### The transforms by row and column -/

/-- Byte `row + 4 col` after InvShiftRows (R172). -/
theorem byteAt_invShiftRows (b : Block) {row col : Nat} (hr : row < 4) (hc : col < 4) :
    byteAt (invShiftRows b) (row + 4 * col) = byteAt b (row + 4 * ((col + 4 - row) % 4)) := by
  have hmod : (row + 4 * col) % 4 = row := by omega
  have hdiv : (row + 4 * col) / 4 = col := by omega
  rw [invShiftRows, byteAt_bytesOf, if_pos (by omega), hmod, hdiv]

theorem byteAt_shiftRows (b : Block) {row col : Nat} (hr : row < 4) (hc : col < 4) :
    byteAt (shiftRows b) (row + 4 * col) = byteAt b (row + 4 * ((col + row) % 4)) := by
  have hmod : (row + 4 * col) % 4 = row := by omega
  have hdiv : (row + 4 * col) / 4 = col := by omega
  rw [shiftRows, byteAt_bytesOf, if_pos (by omega), hmod, hdiv]

theorem byteAt_invSubBytes (b : Block) {i : Nat} (hi : i < 16) : byteAt (invSubBytes b) i = invSbox (byteAt b i) := by
  rw [invSubBytes, byteAt_bytesOf, if_pos hi]

theorem byteAt_subBytes (b : Block) {i : Nat} (hi : i < 16) : byteAt (subBytes b) i = sbox (byteAt b i) := by
  rw [subBytes, byteAt_bytesOf, if_pos hi]

theorem byteAt_invMixColumns (b : Block) {row col : Nat} (hr : row < 4) (hc : col < 4) :
    byteAt (invMixColumns b) (row + 4 * col) =
      invMixByte row (byteAt b (4 * col)) (byteAt b (4 * col + 1)) (byteAt b (4 * col + 2)) (byteAt b (4 * col + 3)) := by
  have hmod : (row + 4 * col) % 4 = row := by omega
  have hdiv : (row + 4 * col) / 4 = col := by omega
  rw [invMixColumns, byteAt_bytesOf, if_pos (by omega), hmod, hdiv]

theorem byteAt_mixColumns (b : Block) {row col : Nat} (hr : row < 4) (hc : col < 4) :
    byteAt (mixColumns b) (row + 4 * col) =
      mixByte row (byteAt b (4 * col)) (byteAt b (4 * col + 1)) (byteAt b (4 * col + 2)) (byteAt b (4 * col + 3)) := by
  have hmod : (row + 4 * col) % 4 = row := by omega
  have hdiv : (row + 4 * col) / 4 = col := by omega
  rw [mixColumns, byteAt_bytesOf, if_pos (by omega), hmod, hdiv]

theorem byteAt_addRoundKey (rk : List Byte) (r : Nat) (b : Block) {i : Nat} (hi : i < 16) :
    byteAt (addRoundKey rk r b) i = byteAt b i ^^^ rk.getD (16 * r + i) 0 := by
  rw [addRoundKey, roundKey, byteAt_xorBlock, byteAt_blockAt, if_pos hi]

/-- Two blocks with the same matrix are equal. -/
theorem block_ext {a b : Block} (h : ∀ row < 4, ∀ col < 4, byteAt a (row + 4 * col) = byteAt b (row + 4 * col)) :
    a = b := by
  apply bytes_ext
  intro i hi
  have hsplit : i % 4 + 4 * (i / 4) = i := Nat.mod_add_div i 4
  rw [← hsplit]
  exact h (i % 4) (by omega) (i / 4) (by omega)

/-- Settles O40: the entries of the four transforms, the rows of the column-mix as `invMixByte` writes them. -/
theorem transformsActOnTheStateMatrix : Obligations.TransformsActOnTheStateMatrix := by
  intro b rk r row hr col hc
  exact ⟨byteAt_addRoundKey rk r b (by omega), byteAt_invShiftRows b hr hc, byteAt_invSubBytes b (by omega),
    byteAt_invMixColumns b (by omega) hc, byteAt_invMixColumns b (by omega) hc, byteAt_invMixColumns b (by omega) hc,
    byteAt_invMixColumns b (by omega) hc⟩

/-! ### Which transforms commute -/

theorem invShiftRows_invSubBytes (b : Block) : invShiftRows (invSubBytes b) = invSubBytes (invShiftRows b) := by
  apply block_ext
  intro row hr col hc
  rw [byteAt_invShiftRows _ hr hc, byteAt_invSubBytes _ (by omega), byteAt_invSubBytes _ (by omega),
    byteAt_invShiftRows _ hr hc]

/-- The block with byte 1 in row 1 of column 0 and zeros elsewhere. -/
def oneByteBlock : Block := padTo 16 [0, 1]

/-- Settles O41: a substitution does not look at a byte's place; one byte that is not 0 in row 1, or a round key of it, tells the
other orders apart. -/
theorem invShiftRowsAndInvSubBytesCommute : Obligations.InvShiftRowsAndInvSubBytesCommute := by
  refine ⟨invShiftRows_invSubBytes, ⟨oneByteBlock, ?rowsMix⟩, ⟨oneByteBlock, ?bytesMix⟩,
    ⟨oneByteBlock, [0, 1], 0, ?rowsKey⟩, ⟨oneByteBlock, [0, 1], 0, ?bytesKey⟩⟩
  case rowsMix => decide +kernel
  case bytesMix => decide +kernel
  case rowsKey => decide +kernel
  case bytesKey => decide +kernel

/-! ### Each transform is undone -/

@[simp] theorem addRoundKey_addRoundKey (rk : List Byte) (r : Nat) (b : Block) :
    addRoundKey rk r (addRoundKey rk r b) = b := xorBlock_self_cancel b (roundKey rk r)

@[simp] theorem invSubBytes_subBytes (b : Block) : invSubBytes (subBytes b) = b := by
  apply bytes_ext
  intro i hi
  rw [byteAt_invSubBytes _ hi, byteAt_subBytes _ hi, invSbox_sbox]

@[simp] theorem invShiftRows_shiftRows (b : Block) : invShiftRows (shiftRows b) = b := by
  apply block_ext
  intro row hr col hc
  have hback : ((col + 4 - row) % 4 + row) % 4 = col := by omega
  rw [byteAt_invShiftRows _ hr hc, byteAt_shiftRows _ hr (by omega), hback]

/-! ### The two column-mixes

Both are additive in the column, so that one undoes the other once it does so on the columns with one byte. -/

theorem xor_xor_of_four (a b c d a' b' c' d' : Byte) :
    (a ^^^ a') ^^^ (b ^^^ b') ^^^ (c ^^^ c') ^^^ (d ^^^ d') = (a ^^^ b ^^^ c ^^^ d) ^^^ (a' ^^^ b' ^^^ c' ^^^ d') := by
  ac_rfl

theorem mixByte_xor (r : Nat) (a b c d a' b' c' d' : Byte) :
    mixByte r (a ^^^ a') (b ^^^ b') (c ^^^ c') (d ^^^ d') = mixByte r a b c d ^^^ mixByte r a' b' c' d' := by
  match r with
  | 0 | 1 | 2 | _ + 3 => simp only [mixByte, gmul_xor, xor_xor_of_four]

theorem invMixByte_xor (r : Nat) (a b c d a' b' c' d' : Byte) :
    invMixByte r (a ^^^ a') (b ^^^ b') (c ^^^ c') (d ^^^ d') = invMixByte r a b c d ^^^ invMixByte r a' b' c' d' := by
  match r with
  | 0 | 1 | 2 | _ + 3 =>
    simp only [invMixByte, mul9_xor, mul11_xor, mul13_xor, mul14_xor, xor_xor_of_four]

/-- Row `r` of a column after the forward and the inverse column-mix. -/
def unmixedByte (r : Nat) (a0 a1 a2 a3 : Byte) : Byte :=
  invMixByte r (mixByte 0 a0 a1 a2 a3) (mixByte 1 a0 a1 a2 a3) (mixByte 2 a0 a1 a2 a3) (mixByte 3 a0 a1 a2 a3)

theorem unmixedByte_xor (r : Nat) (a b c d a' b' c' d' : Byte) :
    unmixedByte r (a ^^^ a') (b ^^^ b') (c ^^^ c') (d ^^^ d') = unmixedByte r a b c d ^^^ unmixedByte r a' b' c' d' := by
  simp only [unmixedByte, mixByte_xor, invMixByte_xor]

/-- The columns with one byte: the products of the two circulant matrices are those of the identity. -/
theorem unmixedByte_of_one_byte (a : Byte) : ∀ r < 4,
    unmixedByte r a 0 0 0 = (if r = 0 then a else 0) ∧ unmixedByte r 0 a 0 0 = (if r = 1 then a else 0)
    ∧ unmixedByte r 0 0 a 0 = (if r = 2 then a else 0) ∧ unmixedByte r 0 0 0 a = (if r = 3 then a else 0) := by
  revert a
  exact forall_byte (by decide +kernel)

theorem unmixedByte_eq (a0 a1 a2 a3 : Byte) {r : Nat} (hr : r < 4) :
    unmixedByte r a0 a1 a2 a3 = if r = 0 then a0 else if r = 1 then a1 else if r = 2 then a2 else a3 := by
  have hsum : unmixedByte r a0 a1 a2 a3 =
      unmixedByte r a0 0 0 0 ^^^ (unmixedByte r 0 a1 0 0 ^^^ (unmixedByte r 0 0 a2 0 ^^^ unmixedByte r 0 0 0 a3)) := by
    rw [← unmixedByte_xor, ← unmixedByte_xor, ← unmixedByte_xor]
    simp
  obtain ⟨h0, -⟩ := unmixedByte_of_one_byte a0 r hr
  obtain ⟨-, h1, -⟩ := unmixedByte_of_one_byte a1 r hr
  obtain ⟨-, -, h2, -⟩ := unmixedByte_of_one_byte a2 r hr
  obtain ⟨-, -, -, h3⟩ := unmixedByte_of_one_byte a3 r hr
  rw [hsum, h0, h1, h2, h3]
  interval_cases r <;> simp

@[simp] theorem invMixColumns_mixColumns (b : Block) : invMixColumns (mixColumns b) = b := by
  apply block_ext
  intro row hr col hc
  have hentry (r : Nat) (h : r < 4) := byteAt_mixColumns b h hc
  have h0 := hentry 0 (by decide)
  have h1 := hentry 1 (by decide)
  have h2 := hentry 2 (by decide)
  have h3 := hentry 3 (by decide)
  rw [Nat.add_comm] at h0 h1 h2 h3
  rw [byteAt_invMixColumns _ hr hc, show 4 * col = 4 * col + 0 from rfl, h0, h1, h2, h3]
  refine (unmixedByte_eq _ _ _ _ hr).trans ?_
  interval_cases row <;> simp [Nat.add_comm]

/-! ### The rounds are undone -/

theorem invRound_encRound (rk : List Byte) (r : Nat) (b : Block) :
    invRound rk r (shiftRows (subBytes (encRound rk r b))) = shiftRows (subBytes b) := by
  simp only [invRound, encRound, invShiftRows_shiftRows, invSubBytes_subBytes, addRoundKey_addRoundKey,
    invMixColumns_mixColumns]

/-- The inverse rounds take the forward rounds off from the last to the first. -/
theorem invRounds_encRounds (rk : List Byte) (n : Nat) (b : Block) :
    invRounds rk n (shiftRows (subBytes (encRounds rk n b))) = shiftRows (subBytes b) := by
  induction n with
  | zero => rfl
  | succ n ih => rw [invRounds, encRounds, invRound_encRound, ih]

/-- `DecBlock` inverts the forward cipher, whatever the bytes of the schedule and the round count are (R168). -/
theorem decBlock_encBlock (p : Block) (nr : Nat) (rk : List Byte) : decBlock (encBlock p nr rk) nr rk = p := by
  rw [decBlock, encBlock, addRoundKey_addRoundKey, invRounds_encRounds, finalRound, invShiftRows_shiftRows,
    invSubBytes_subBytes, addRoundKey_addRoundKey]

/-- Settles O42: the case of a key's schedule of `decBlock_encBlock`. -/
theorem decBlockInvertsTheForwardCipher : Obligations.DecBlockInvertsTheForwardCipher :=
  fun _ nr rk p _ => decBlock_encBlock p nr rk

end Sys2Proof.Machine
end

section
/-! PROOFS. Base64 decoding: the alphabet, the groups by the table, which carriers are refused, and the encoder's inverse
(11_constants.md R69, 40_extract.md R131, R132). -/

namespace Sys2Proof.Machine

/-! ### The alphabet -/

/-- Settles O56: the 64 characters one by one, and all 256 bytes. -/
theorem theAlphabetHasItsSixtyFourCharacters : Obligations.TheAlphabetHasItsSixtyFourCharacters := by
  refine ⟨by decide, by decide, forall_byte ?bytes, rfl⟩
  case bytes => decide +kernel

theorem base64Value_padChar : base64Value padChar = none := rfl

@[simp] theorem base64Value_base64Char (v : BitVec 6) : base64Value (base64Char v) = some v := by
  have hall : ∀ n < 64, base64Value (base64Char (BitVec.ofNat 6 n)) = some (BitVec.ofNat 6 n) := by decide
  simpa using hall v.toNat v.isLt

/-! ### One group -/

/-- A number laid below the bits of another adds to its shifted value. -/
theorem shiftLeft_or_eq (x : Nat) {y k : Nat} (h : y < 2 ^ k) : x <<< k ||| y = x * 2 ^ k + y := by
  rw [← Nat.shiftLeft_add_eq_or_of_lt h, Nat.shiftLeft_eq]

/-- The number of four 6-bit values (R132). -/
theorem groupValue_toNat (v0 v1 v2 v3 : BitVec 6) :
    (groupValue v0 v1 v2 v3).toNat = 2 ^ 18 * v0.toNat + 2 ^ 12 * v1.toNat + 2 ^ 6 * v2.toNat + v3.toNat := by
  have h0 := v0.isLt
  have h1 := v1.isLt
  have h2 := v2.isLt
  have h3 := v3.isLt
  have hwide (v : BitVec 6) (k : Nat) (hv : v.toNat * 2 ^ k < 2 ^ 24) :
      (v.setWidth 24 <<< k).toNat = v.toNat <<< k := by
    rw [BitVec.toNat_shiftLeft, BitVec.toNat_setWidth_of_le (by decide), Nat.shiftLeft_eq, Nat.mod_eq_of_lt hv]
  rw [groupValue, BitVec.toNat_or, BitVec.toNat_or, BitVec.toNat_or, hwide v0 18 (by omega), hwide v1 12 (by omega),
    hwide v2 6 (by omega), BitVec.toNat_setWidth_of_le (by decide), Nat.or_assoc, Nat.or_assoc,
    shiftLeft_or_eq v2.toNat (k := 6) (by omega), shiftLeft_or_eq v1.toNat (k := 12) (by omega),
    shiftLeft_or_eq v0.toNat (k := 18) (by omega)]
  omega

theorem extractLsb'_groupValue (v0 v1 v2 v3 : BitVec 6) (k : Nat) :
    (groupValue v0 v1 v2 v3).extractLsb' k 8
      = BitVec.ofNat 8 ((2 ^ 18 * v0.toNat + 2 ^ 12 * v1.toNat + 2 ^ 6 * v2.toNat + v3.toNat) / 2 ^ k) := by
  apply BitVec.eq_of_toNat_eq
  rw [BitVec.extractLsb'_toNat, groupValue_toNat, Nat.shiftRight_eq_div_pow, BitVec.toNat_ofNat]

section Groups

variable {q0 q1 q2 q3 : Byte} {v0 v1 v2 v3 : BitVec 6} (h0 : base64Value q0 = some v0) (h1 : base64Value q1 = some v1)

include h0 h1

theorem decodeGroup_full (isLast : Bool) (h2 : base64Value q2 = some v2) (h3 : base64Value q3 = some v3) :
    decodeGroup isLast q0 q1 q2 q3 = some
      [(groupValue v0 v1 v2 v3).extractLsb' 16 8, (groupValue v0 v1 v2 v3).extractLsb' 8 8,
        (groupValue v0 v1 v2 v3).extractLsb' 0 8] := by
  simp only [decodeGroup, h0, h1, h2, h3]

theorem decodeGroup_one_pad (h2 : base64Value q2 = some v2) :
    decodeGroup true q0 q1 q2 padChar = some
      [(groupValue v0 v1 v2 0).extractLsb' 16 8, (groupValue v0 v1 v2 0).extractLsb' 8 8] := by
  simp [decodeGroup, h0, h1, h2, base64Value_padChar]

theorem decodeGroup_two_pads :
    decodeGroup true q0 q1 padChar padChar = some [(groupValue v0 v1 0 0).extractLsb' 16 8] := by
  simp [decodeGroup, h0, h1, base64Value_padChar]

end Groups

/-- A group that is not the last must be full. -/
theorem base64Value_ne_none_of_decodeGroup_false {q0 q1 q2 q3 : Byte} {d : List Byte}
    (h : decodeGroup false q0 q1 q2 q3 = some d) :
    ∀ x ∈ [q0, q1, q2, q3], base64Value x ≠ none := by
  unfold decodeGroup at h
  split at h
  · next h0 h1 h2 h3 => simp [h0, h1, h2, h3]
  · simp at h
  · simp at h
  · cases h

/-! ### The groups of a carrier -/

theorem decodeGroups_group (q0 q1 q2 q3 : Byte) (rest : List Byte) :
    decodeGroups (q0 :: q1 :: q2 :: q3 :: rest)
      = (decodeGroup rest.isEmpty q0 q1 q2 q3).bind fun d => (decodeGroups rest).map (d ++ ·) := by
  rw [decodeGroups]
  cases decodeGroup rest.isEmpty q0 q1 q2 q3 with
  | none => rfl
  | some d => cases decodeGroups rest <;> rfl

/-- What holds of the empty sequence and is kept by a group in front holds of every sequence that decodes. -/
theorem decodeGroups_induction {P : List Byte → List Byte → Prop} (nil : P [] [])
    (group : ∀ q0 q1 q2 q3 rest e d, decodeGroup rest.isEmpty q0 q1 q2 q3 = some e → P rest d →
      P (q0 :: q1 :: q2 :: q3 :: rest) (e ++ d)) {l d : List Byte} (h : decodeGroups l = some d) : P l d := by
  match l with
  | [] =>
    cases h
    exact nil
  | q0 :: q1 :: q2 :: q3 :: rest =>
    rw [decodeGroups_group, Option.bind_eq_some_iff] at h
    obtain ⟨e, he, h⟩ := h
    rw [Option.map_eq_some_iff] at h
    obtain ⟨ds, hds, rfl⟩ := h
    exact group q0 q1 q2 q3 rest e ds he (decodeGroups_induction nil group hds)
  | [_] | [_, _] | [_, _, _] => cases h

/-- A sequence with a group of no legal shape does not decode. -/
theorem decodeGroups_eq_none_of_group {before after : List Byte} {q0 q1 q2 q3 : Byte} (hlen : before.length % 4 = 0)
    (hq : decodeGroup after.isEmpty q0 q1 q2 q3 = none) : decodeGroups (before ++ q0 :: q1 :: q2 :: q3 :: after) = none := by
  match before with
  | [] => rw [List.nil_append, decodeGroups_group, hq, Option.bind_none]
  | p0 :: p1 :: p2 :: p3 :: before =>
    have hrest : decodeGroups (before ++ q0 :: q1 :: q2 :: q3 :: after) = none :=
      decodeGroups_eq_none_of_group (by simp only [List.length_cons] at hlen; omega) hq
    simp only [List.cons_append, decodeGroups_group, hrest, Option.map_none, Option.bind_fun_none]
  | [_] | [_, _] | [_, _, _] => simp at hlen

/-- The characters of a sequence that decodes are in the alphabet or pads. -/
theorem decodeGroups_characters {l d : List Byte} (h : decodeGroups l = some d) :
    ∀ x ∈ l, base64Value x ≠ none ∨ x = padChar := by
  refine decodeGroups_induction (P := fun l _ => ∀ x ∈ l, base64Value x ≠ none ∨ x = padChar) nofun ?_ h
  intro q0 q1 q2 q3 rest e _ he ih
  obtain ⟨⟨v0, h0⟩, ⟨v1, h1⟩, h2, h3, -⟩ := decodeGroup_cases _ q0 q1 q2 q3 e he
  have hq2 : base64Value q2 ≠ none ∨ q2 = padChar := by
    rcases h2 with ⟨v2, h2⟩ | ⟨h2, -⟩
    · simp [h2]
    · exact .inr h2
  have hq3 : base64Value q3 ≠ none ∨ q3 = padChar := by
    rcases h3 with ⟨v3, h3⟩ | h3
    · simp [h3]
    · exact .inr h3
  simp only [List.forall_mem_cons]
  exact ⟨by simp [h0], by simp [h1], hq2, hq3, ih⟩

/-- A sequence decodes to three bytes a group, less at most two in the last. -/
theorem decodeGroups_length {l d : List Byte} (h : decodeGroups l = some d) :
    4 * d.length ≤ 3 * l.length ∧ 3 * l.length ≤ 4 * (d.length + 2) ∧ (l = [] → d = []) := by
  refine decodeGroups_induction
    (P := fun l d => 4 * d.length ≤ 3 * l.length ∧ 3 * l.length ≤ 4 * (d.length + 2) ∧ (l = [] → d = [])) (by simp) ?_ h
  rintro q0 q1 q2 q3 rest e d he ⟨hle, hge, hnil⟩
  obtain ⟨-, -, -, -, h1, h3, hfull⟩ := decodeGroup_cases _ q0 q1 q2 q3 e he
  simp only [List.length_cons, List.length_append, reduceCtorEq, false_implies, and_true]
  cases rest with
  | nil =>
    have hd : d.length = 0 := by rw [hnil rfl, List.length_nil]
    simp only [List.length_nil]
    omega
  | cons x rest =>
    have he3 := hfull rfl
    simp only [List.length_cons] at hle hge ⊢
    omega

/-! ### The padding -/

theorem padCarrier_length (c : List Byte) : (padCarrier c).length = 4 * ((c.length + 3) / 4) := by
  rw [padCarrier, List.length_append, List.length_replicate]
  omega

theorem padCarrier_of_whole_groups {c : List Byte} (h : c.length % 4 = 0) : padCarrier c = c := by
  simp [padCarrier, h]

/-- Padding leaves the groups before the last piece as they are. -/
theorem padCarrier_append {before : List Byte} (after : List Byte) (h : before.length % 4 = 0) :
    padCarrier (before ++ after) = before ++ padCarrier after := by
  have hlen : (before ++ after).length % 4 = after.length % 4 := by
    rw [List.length_append]
    omega
  rw [padCarrier, padCarrier, hlen, List.append_assoc]

theorem padCarrier_group (q0 q1 q2 q3 : Byte) (after : List Byte) :
    padCarrier (q0 :: q1 :: q2 :: q3 :: after) = q0 :: q1 :: q2 :: q3 :: padCarrier after :=
  padCarrier_append (before := [q0, q1, q2, q3]) after (by simp)

theorem padCarrier_isEmpty (c : List Byte) : (padCarrier c).isEmpty = c.isEmpty := by
  cases c <;> rfl

/-! ### Carriers -/

theorem base64Decode_nil : base64Decode [] = some [] := rfl

/-- A carrier decodes a group at a time. -/
theorem base64Decode_group (q0 q1 q2 q3 : Byte) (after : List Byte) :
    base64Decode (q0 :: q1 :: q2 :: q3 :: after)
      = (decodeGroup after.isEmpty q0 q1 q2 q3).bind fun d => (base64Decode after).map (d ++ ·) := by
  rw [base64Decode, padCarrier_group, decodeGroups_group, padCarrier_isEmpty]
  rfl

/-- Settles O54: a padded carrier is padded already; each shape of a group has its equation, and the bits of its number are
`extractLsb'_groupValue`. -/
theorem carrierGroupsDecodeByTheTable : Obligations.CarrierGroupsDecodeByTheTable := by
  refine ⟨fun c => ?padded, base64Decode_nil, fun q0 q1 v0 v1 h0 h1 => ⟨fun q2 q3 v2 v3 after h2 h3 => ?full,
    fun q2 v2 h2 => ?onePad, ?twoPads⟩⟩
  case padded =>
    have hwhole : (padCarrier c).length % 4 = 0 := by rw [padCarrier_length, Nat.mul_mod_right]
    exact congrArg decodeGroups (padCarrier_of_whole_groups hwhole).symm
  case full =>
    rw [base64Decode_group, decodeGroup_full h0 h1 _ h2 h3]
    simp only [extractLsb'_groupValue, Nat.pow_zero, Nat.div_one]
    rfl
  case onePad =>
    have hgroup := decodeGroup_one_pad h0 h1 h2
    simp only [extractLsb'_groupValue] at hgroup
    exact (base64Decode_group q0 q1 q2 padChar []).trans (congrArg (Option.bind · _) hgroup)
  case twoPads =>
    have hgroup := decodeGroup_two_pads h0 h1
    simp only [extractLsb'_groupValue] at hgroup
    exact (base64Decode_group q0 q1 padChar padChar []).trans (congrArg (Option.bind · _) hgroup)

/-! ### Malformed carriers -/

/-- A piece of one character, padded, is a group with a pad in position 1. -/
theorem base64Decode_of_length_one {c : List Byte} (h : c.length % 4 = 1) : base64Decode c = none := by
  obtain ⟨before, x, rfl⟩ : ∃ before x, c = before ++ [x] := by
    rcases List.eq_nil_or_concat' c with rfl | hc
    · simp at h
    · exact hc
  have hbefore : before.length % 4 = 0 := by
    rw [List.length_append, List.length_singleton] at h
    omega
  rw [base64Decode, padCarrier_append [x] hbefore]
  refine decodeGroups_eq_none_of_group hbefore ?_
  rw [decodeGroup, base64Value_padChar]
  cases base64Value x <;> rfl

theorem base64Decode_of_foreign_byte {c : List Byte} {x : Byte} (hx : x ∈ c) (hv : base64Value x = none)
    (hpad : x ≠ padChar) : base64Decode c = none := by
  cases hd : base64Decode c with
  | none => rfl
  | some d =>
    rcases decodeGroups_characters hd x (List.mem_append_left _ hx) with h | h
    · exact absurd hv h
    · exact absurd h hpad

/-- `=` in a group before the last, in position 0 or 1, or in position 2 with no `=` behind it, is no legal shape. -/
theorem decodeGroup_of_misplaced_pad {isLast : Bool} {q0 q1 q2 q3 : Byte}
    (h : (padChar ∈ [q0, q1, q2, q3] ∧ isLast = false) ∨ q0 = padChar ∨ q1 = padChar ∨ (q2 = padChar ∧ q3 ≠ padChar)) :
    decodeGroup isLast q0 q1 q2 q3 = none := by
  cases hd : decodeGroup isLast q0 q1 q2 q3 with
  | none => rfl
  | some d =>
    obtain ⟨⟨v0, h0⟩, ⟨v1, h1⟩, h2, -⟩ := decodeGroup_cases isLast q0 q1 q2 q3 d hd
    rcases h with ⟨hmem, rfl⟩ | rfl | rfl | ⟨rfl, h3⟩
    · exact absurd base64Value_padChar (base64Value_ne_none_of_decodeGroup_false hd _ hmem)
    · simp [base64Value_padChar] at h0
    · simp [base64Value_padChar] at h1
    · simp [base64Value_padChar, h3] at h2

/-- Settles O29: the padding makes the short piece a malformed group, a carrier that decodes has no other bytes, its length is
that of its groups, and a group of no legal shape makes the carrier fail. -/
theorem malformedCarriersFail : Obligations.MalformedCarriersFail := by
  refine ⟨fun c => ⟨fun h => extractKey_of_malformed (base64Decode_of_length_one h), ?foreign, fun d hd => ?length⟩,
    fun before after q0 q1 q2 q3 hbefore h => extractKey_of_malformed ?pad⟩
  case foreign =>
    rintro ⟨x, hx, hv, hpad⟩
    exact extractKey_of_malformed (base64Decode_of_foreign_byte hx hv hpad)
  case length =>
    obtain ⟨hle, hge, -⟩ := decodeGroups_length hd
    rw [padCarrier_length] at hle hge
    omega
  case pad =>
    rw [base64Decode, padCarrier_append _ hbefore, padCarrier_group]
    refine decodeGroups_eq_none_of_group hbefore (decodeGroup_of_misplaced_pad ?_)
    rw [padCarrier_isEmpty, List.isEmpty_eq_false_iff]
    exact h

/-! ### Decoding inverts the encoder -/

theorem append_toNat {m n : Nat} (a : BitVec m) (b : BitVec n) : (a ++ b).toNat = a.toNat * 2 ^ n + b.toNat := by
  rw [BitVec.toNat_append, shiftLeft_or_eq _ b.isLt]

theorem extractLsb'_toNat_div {n : Nat} (a : BitVec n) (k m : Nat) :
    (a.extractLsb' k m).toNat = a.toNat / 2 ^ k % 2 ^ m := by
  rw [BitVec.extractLsb'_toNat, Nat.shiftRight_eq_div_pow]

/-- The sixes of three bytes are the group of the three bytes' number. -/
theorem groupValue_of_bytes (a b c : Byte) :
    groupValue (a.extractLsb' 2 6) ((a ++ b).extractLsb' 4 6) ((b ++ c).extractLsb' 6 6) (c.extractLsb' 0 6)
      = a ++ b ++ c := by
  have ha := a.isLt
  have hb := b.isLt
  have hc := c.isLt
  apply BitVec.eq_of_toNat_eq
  simp only [extractLsb'_toNat_div, groupValue_toNat, append_toNat]
  omega

theorem groupValue_of_two_bytes (a b : Byte) :
    groupValue (a.extractLsb' 2 6) ((a ++ b).extractLsb' 4 6) ((b ++ 0#2).extractLsb' 0 6) 0 = a ++ b ++ 0#8 := by
  have ha := a.isLt
  have hb := b.isLt
  have hzero : (0 : BitVec 6).toNat = 0 := rfl
  apply BitVec.eq_of_toNat_eq
  simp only [extractLsb'_toNat_div, groupValue_toNat, append_toNat, hzero, BitVec.toNat_ofNat]
  omega

theorem groupValue_of_one_byte (a : Byte) :
    groupValue (a.extractLsb' 2 6) ((a ++ 0#4).extractLsb' 0 6) 0 0 = a ++ 0#8 ++ 0#8 := by
  have ha := a.isLt
  have hzero : (0 : BitVec 6).toNat = 0 := rfl
  apply BitVec.eq_of_toNat_eq
  simp only [extractLsb'_toNat_div, groupValue_toNat, append_toNat, hzero, BitVec.toNat_ofNat]
  omega

/-- The bytes of three bytes' number. -/
theorem bytes_of_append (a b c : Byte) :
    (a ++ b ++ c).extractLsb' 16 8 = a ∧ (a ++ b ++ c).extractLsb' 8 8 = b ∧ (a ++ b ++ c).extractLsb' 0 8 = c := by
  have ha := a.isLt
  have hb := b.isLt
  have hc := c.isLt
  refine ⟨?_, ?_, ?_⟩
  all_goals
    apply BitVec.eq_of_toNat_eq
    simp only [extractLsb'_toNat_div, append_toNat]
    omega

/-- Settles O55: along the encoder's groups; the bytes cut into sixes are put together again. -/
theorem base64DecodingInvertsEncoding : Obligations.Base64DecodingInvertsEncoding := by
  intro d
  have hchar := base64Value_base64Char
  induction d using base64Encode.induct with
  | case1 => rfl
  | case2 a =>
    obtain ⟨ha, -, -⟩ := bytes_of_append a 0#8 0#8
    rw [base64Encode, base64Decode_group, List.isEmpty_nil, decodeGroup_two_pads (hchar _) (hchar _),
      groupValue_of_one_byte, ha]
    rfl
  | case3 a b =>
    obtain ⟨ha, hb, -⟩ := bytes_of_append a b 0#8
    rw [base64Encode, base64Decode_group, List.isEmpty_nil, decodeGroup_one_pad (hchar _) (hchar _) (hchar _),
      groupValue_of_two_bytes, ha, hb]
    rfl
  | case4 a b c rest ih =>
    obtain ⟨ha, hb, hc⟩ := bytes_of_append a b c
    rw [base64Encode, base64Decode_group, decodeGroup_full (hchar _) (hchar _) _ (hchar _) (hchar _), ih,
      groupValue_of_bytes, ha, hb, hc]
    rfl

end Sys2Proof.Machine
end

section
/-! PROOFS. The bits of the tokens, the key assembled from them, and the key of a built carrier (40_extract.md R133 to R141). -/

namespace Sys2Proof.Machine

/-! ### The bit of one token -/

/-- The bit of a run and its digit, by the digit's value (R135). -/
theorem tokenBit_append (run : List Byte) (b : Byte) :
    tokenBit (run ++ [b]) =
      if digitValue b < run.length + 1 then
        some ((run ++ [b]).getD (digitValue b) 0 == (run ++ [b]).getD (run.length - 1) 0)
      else none := by
  have hlast : (run ++ [b]).getD run.length 0 = b := by simp [List.getD_eq_getElem?_getD]
  have hbefore : run.length + 1 - 2 = run.length - 1 := by omega
  simp only [tokenBit, List.length_append, List.length_singleton, Nat.add_sub_cancel, hlast, hbefore]

/-- Settles O31: the index is in range or not; at the run's last byte it meets itself, and at the digit it meets a byte that is
no digit. -/
theorem tokenBitComparesTheIndexedByte : Obligations.TokenBitComparesTheIndexedByte := by
  intro run b hne hrun hb
  have hpos : 0 < run.length := List.length_pos_iff.2 hne
  have hlast : (run ++ [b]).getD (run.length - 1) 0 = run.getD (run.length - 1) 0 :=
    List.getD_append run [b] 0 _ (by omega)
  rw [tokenBit_append]
  refine ⟨fun h => if_neg (by omega), fun h => ?inRange, fun h => ?lastByte, fun h => ?digit⟩
  case inRange => rw [if_pos h, hlast]
  case lastByte => rw [if_pos (by omega), h, beq_self_eq_true]
  case digit =>
    have hdigit : (run ++ [b]).getD run.length 0 = b := by simp [List.getD_eq_getElem?_getD]
    have hother : b ≠ run.getD (run.length - 1) 0 := by
      intro heq
      have hmem : run.getD (run.length - 1) 0 ∈ run := by
        rw [List.getD_eq_getElem _ _ (by omega)]
        exact List.getElem_mem _
      rw [heq, hrun _ hmem] at hb
      cases hb
    rw [if_pos (by omega), h, hdigit, hlast, beq_false_of_ne hother]

/-! ### The assembled key -/

/-- Bit `n` of byte `k` of the assembled key is bit `8k + n` of the rotated bits (R136, R137). -/
theorem getLsbD_assembleKey {b : List Bool} (hb : b.length = 128) {k n : Nat} (hk : k < 16) (hn : n < 8) :
    (byteAt (assembleKey b) k).getLsbD n = b.getD ((8 * k + n + 64) % 128) false := by
  rw [assembleKey, byteAt_bytesOf, if_pos hk, BitVec.getLsbD_ofNat, decide_eq_true hn, Bool.true_and,
    Nat.testBit_shiftRight, testBit_bitsValue_reverse, rotate64_getD b hb _ (by omega)]

/-- Settles O32: the closed form, and its index without the remainder in each half. -/
theorem keyBitsComeFromTheirTokens : Obligations.KeyBitsComeFromTheirTokens := by
  refine fun b hb => ⟨fun k hk n hn => getLsbD_assembleKey hb hk hn, fun k hk n hn => ?low, fun k h8 hk n hn => ?high⟩
  case low =>
    rw [getLsbD_assembleKey hb (by omega) hn]
    congr 1
    omega
  case high =>
    rw [getLsbD_assembleKey hb hk hn]
    congr 1
    omega

/-! ### The built carrier -/

/-- Scanning over a built token yields it. -/
theorem tokens_carrierToken_append (b : Bool) (d : List Byte) :
    tokens (carrierToken b ++ d) = carrierToken b :: tokens d := by
  cases b with
  | false =>
    have hrun : tokens ([0x61, 0x62] ++ 0x30 :: d) = tokensFrom [0x61, 0x62] (0x30 :: d) :=
      tokens_run_append _ (by decide)
    exact hrun.trans (tokensFrom_digit d (by decide) (by decide))
  | true =>
    have hrun : tokens ([0x61] ++ 0x30 :: d) = tokensFrom [0x61] (0x30 :: d) := tokens_run_append _ (by decide)
    exact hrun.trans (tokensFrom_digit d (by decide) (by decide))

theorem tokens_flatMap_carrierToken (l : List Bool) : tokens (l.flatMap carrierToken) = l.map carrierToken := by
  induction l with
  | nil => rfl
  | cons b l ih => rw [List.flatMap_cons, tokens_carrierToken_append, ih, List.map_cons]

theorem tokenBit_carrierToken (b : Bool) : tokenBit (carrierToken b) = some b := by
  cases b <;> decide

theorem tokenBits_map_carrierToken (l : List Bool) : tokenBits (l.map carrierToken) = some l := by
  induction l with
  | nil => rfl
  | cons b l ih => simp only [List.map_cons, tokenBits, tokenBit_carrierToken, ih, Option.map_some]

/-- The bits that the tokens of a built carrier carry, in order (R141). -/
def carrierBits (key : Block) : List Bool := (List.range Config.tokenCount).map (carrierBit key)

theorem carrierBytes_eq_flatMap (key : Block) : carrierBytes key = (carrierBits key).flatMap carrierToken := by
  rw [carrierBytes, carrierBits, List.flatMap_map]

@[simp] theorem carrierBits_length (key : Block) : (carrierBits key).length = 128 := by
  simp [carrierBits, Config.tokenCount]

theorem carrierBits_getD (key : Block) {j : Nat} (hj : j < 128) : (carrierBits key).getD j false = carrierBit key j := by
  simp [carrierBits, Config.tokenCount, List.getD_eq_getElem?_getD, hj]

/-- The placing of the bits in the tokens is the inverse of the assembly. -/
theorem assembleKey_carrierBits (key : Block) : assembleKey (carrierBits key) = key := by
  apply bytes_ext
  intro k hk
  apply BitVec.eq_of_getLsbD_eq
  intro n hn
  have hback : ((8 * k + n + 64) % 128 + 64) % 128 = 8 * k + n := by omega
  have hdiv : (8 * k + n) / 8 = k := by omega
  have hmod : (8 * k + n) % 8 = n := by omega
  rw [getLsbD_assembleKey (carrierBits_length key) hk hn, carrierBits_getD key (by omega), carrierBit, hback, hdiv, hmod]

/-- Settles O33: decoding gives the tokens' bytes back, the scan the tokens, each token its bit, and the assembly the key. -/
theorem extractRecoversTheKeyOfABuiltCarrier : Obligations.ExtractRecoversTheKeyOfABuiltCarrier := by
  intro key
  have hdecode : base64Decode (buildCarrier key) = some (carrierBytes key) := base64DecodingInvertsEncoding _
  have htokens : tokens (carrierBytes key) = (carrierBits key).map carrierToken := by
    rw [carrierBytes_eq_flatMap, tokens_flatMap_carrierToken]
  have hcount : (tokens (carrierBytes key)).length = Config.tokenCount := by
    rw [htokens, List.length_map, carrierBits_length, Config.tokenCount]
  have hbits : tokenBits (tokens (carrierBytes key)) = some (carrierBits key) := by
    rw [htokens, tokenBits_map_carrierToken]
  rw [extractKey_of_tokenBits_some hdecode hcount hbits, assembleKey_carrierBits]

end Sys2Proof.Machine
end

section
/-! PROOFS. EXPAND depends on the RawKey alone (41_expand.md R155); the length of a decrypted stream and how far a change of it
reaches (43_stream.md R197, R198); and what each command leaves unchanged (20_memory.md R96, 30_encoding.md R117). -/

namespace Sys2Proof.Machine

/-! ### The RawKey -/

theorem rawKey_congr {s u : State} (hlen : s.klen = u.klen)
    (hkey : ∀ i < s.klen.toNat, byteAt s.key i = byteAt u.key i) : s.rawKey = u.rawKey := by
  rw [State.rawKey, State.rawKey, ← hlen]
  exact List.map_congr_left fun i hi => hkey i (List.mem_range.1 hi)

/-- Settles O37: both commands write what `Expand` gives for the one RawKey. -/
theorem scheduleDependsOnTheRawKeyAlone : Obligations.ScheduleDependsOnTheRawKeyAlone := by
  intro s u hs hu hlen hok hkey
  have hraw := rawKey_congr hlen hkey
  rw [← rawKey_length] at hok
  obtain ⟨nr, sched, hexpand⟩ : ∃ nr sched, expandKey s.rawKey = some (nr, sched) := ⟨_, _, expandKey_of_ok _ hok⟩
  have hexpand' : expandKey u.rawKey = some (nr, sched) := hraw ▸ hexpand
  refine ⟨expandRule s, expandRule u, exec_at_home .expand s hs, exec_at_home .expand u hu, ?_⟩
  rw [expandRule_of_some hexpand, expandRule_of_some hexpand']
  exact ⟨rfl, rfl⟩

/-! ### The length of the plaintext -/

/-- Settles O45: a whole number of blocks decrypts to that number of blocks, cut to a length that they reach. -/
theorem streamOutputHasTheDeclaredLength : Obligations.StreamOutputHasTheDeclaredLength := by
  intro st nr rk p _ h
  obtain ⟨hmod, hdecl, rfl⟩ := (decryptStream_eq_ok st nr rk p).1 h
  have hcover : 16 * ((st.length - 20) / 16) = st.length - 20 := by omega
  rw [List.length_take, flatMap_toList_length, cbcBlocks_length, blocksOf_length, hcover]
  exact ⟨hmod, hdecl, Nat.min_eq_left hdecl, rfl⟩

/-! ### A change of the IV -/

/-- The plaintext of a list of ciphertext blocks, cut to `n` bytes. -/
def cbcBytes (nr : Nat) (rk : List Byte) (prev : Block) (cs : List Block) (n : Nat) : List Byte :=
  ((cbcBlocks nr rk prev cs).flatMap fun p => p.toList).take n

theorem getD_take {α : Type} (l : List α) (n i : Nat) (d : α) : (l.take n).getD i d = if i < n then l.getD i d else d := by
  rw [List.getD_eq_getElem?_getD, List.getElem?_take]
  split
  · rw [List.getD_eq_getElem?_getD]
  · rfl

theorem cbcBytes_length (nr : Nat) (rk : List Byte) (prev : Block) (cs : List Block) (n : Nat) :
    (cbcBytes nr rk prev cs n).length = min n (16 * cs.length) := by
  rw [cbcBytes, List.length_take, flatMap_toList_length, cbcBlocks_length]

/-- The chain value before the first block reaches the first block only. -/
theorem cbcBytes_getD_of_ge (nr : Nat) (rk : List Byte) (prev prev' : Block) (cs : List Block) (n : Nat) {i : Nat}
    (hi : 16 ≤ i) : (cbcBytes nr rk prev' cs n).getD i 0 = (cbcBytes nr rk prev cs n).getD i 0 := by
  cases cs with
  | nil => rfl
  | cons c cs =>
    have htail (b : Block) (l : List Byte) : (b.toList ++ l).getD i 0 = l.getD (i - 16) 0 := by
      rw [List.getD_append_right _ _ _ _ (by rw [toList_length]; exact hi), toList_length]
    simp only [cbcBytes, cbcBlocks, List.flatMap_cons, getD_take, htail]

/-- The first block is XORed with the chain value. -/
theorem cbcBytes_getD_of_lt (nr : Nat) (rk : List Byte) (prev : Block) (c : Block) (cs : List Block) {n i : Nat} (hi : i < 16)
    (hn : i < n) : (cbcBytes nr rk prev (c :: cs) n).getD i 0 = byteAt (decBlock c nr rk) i ^^^ byteAt prev i := by
  rw [cbcBytes, getD_take, if_pos hn, cbcBlocks, List.flatMap_cons, List.getD_append _ _ _ _ (by rw [toList_length]; exact hi),
    ← byteAt_xorBlock]
  rfl

theorem getD_append_iv {iv : List Byte} (rest : List Byte) (hiv : iv.length = 16) (i : Nat) :
    (iv ++ rest).getD (16 + i) 0 = rest.getD i 0 := by
  rw [List.getD_append_right _ _ _ _ (by omega), hiv, Nat.add_sub_cancel_left]

theorem blockAt_append_iv {iv : List Byte} (rest : List Byte) (hiv : iv.length = 16) :
    blockAt (iv ++ rest) 0 = padTo 16 iv := by
  apply bytes_ext
  intro i hi
  rw [byteAt_blockAt, byteAt_padTo, if_pos hi, if_pos hi, Nat.zero_add, List.getD_append _ _ _ _ (by omega)]

/-- `DecryptStream` with the IV apart: it is the chain value before the first block and nothing else (R185). -/
theorem decryptStream_append_iv {iv : List Byte} (rest : List Byte) (hiv : iv.length = 16) (nr : Nat) (rk p : List Byte) :
    decryptStream (iv ++ rest) nr rk = .ok p ↔
      (rest.length - 4) % 16 = 0
      ∧ (le32 (rest.getD 0 0) (rest.getD 1 0) (rest.getD 2 0) (rest.getD 3 0)).toNat ≤ rest.length - 4
      ∧ cbcBytes nr rk (padTo 16 iv) (blocksOf (rest.drop 4) ((rest.length - 4) / 16))
          (le32 (rest.getD 0 0) (rest.getD 1 0) (rest.getD 2 0) (rest.getD 3 0)).toNat = p := by
  have hlen : (iv ++ rest).length - 20 = rest.length - 4 := by
    rw [List.length_append, hiv]
    omega
  have hdrop : (iv ++ rest).drop 20 = rest.drop 4 := by
    rw [List.drop_append, List.drop_eq_nil_of_le (by omega), hiv, List.nil_append]
  rw [decryptStream_eq_ok, hlen, hdrop, blockAt_append_iv rest hiv, getD_append_iv rest hiv 0, getD_append_iv rest hiv 1,
    getD_append_iv rest hiv 2, getD_append_iv rest hiv 3]
  rfl

/-! ### A change of a ciphertext block -/

theorem getD_set_of_ne {α : Type} (l : List α) {j k : Nat} (x d : α) (h : j ≠ k) : (l.set k x).getD j d = l.getD j d := by
  rw [List.getD_eq_getElem?_getD, List.getElem?_set_ne (Ne.symm h), List.getD_eq_getElem?_getD]

theorem cbcBlocks_set_of_ne (nr : Nat) (rk : List Byte) (prev c' : Block) (cs : List Block) {j k : Nat} (hj : j ≠ k)
    (hj1 : j ≠ k + 1) : (cbcBlocks nr rk prev (cs.set k c'))[j]? = (cbcBlocks nr rk prev cs)[j]? := by
  rw [cbcBlocks_getElem?, cbcBlocks_getElem?, List.getElem?_set_ne (Ne.symm hj)]
  by_cases h0 : j = 0
  · rw [if_pos h0, if_pos h0]
  · rw [if_neg h0, if_neg h0, getD_set_of_ne _ _ _ (show j - 1 ≠ k by omega)]

/-- Plaintext block `k + 1` is the decrypted block XORed with ciphertext block `k`. -/
theorem cbcBlocks_getElem?_succ (nr : Nat) (rk : List Byte) (prev : Block) (cs : List Block) (k : Nat) :
    (cbcBlocks nr rk prev cs)[k + 1]? = (cs[k + 1]?).map fun c => xorBlock (decBlock c nr rk) (cs.getD k prev) :=
  cbcBlocks_getElem? nr rk prev cs (k + 1)

theorem xor_xor_cancel_left (a b c : Byte) : (a ^^^ b) ^^^ (a ^^^ c) = b ^^^ c := by
  rw [xor_swap_middle, BitVec.xor_self, BitVec.zero_xor]

/-- Settles O46: the IV is the chain value of the first block only, and a ciphertext block that of the next only; XOR with the
decrypted block leaves the difference. -/
theorem changesReachOnlyTheirOwnBlocks : Obligations.ChangesReachOnlyTheirOwnBlocks := by
  refine ⟨fun iv iv' rest nr rk p hiv hiv' h => ?iv, fun nr rk prev c' cs k hk =>
    ⟨fun j hj hj1 => cbcBlocks_set_of_ne nr rk prev c' cs hj hj1, fun q hq => ?next⟩⟩
  case iv =>
    obtain ⟨hmod, hdecl, rfl⟩ := (decryptStream_append_iv rest hiv nr rk p).1 h
    refine ⟨_, (decryptStream_append_iv rest hiv' nr rk _).2 ⟨hmod, hdecl, rfl⟩, ?_,
      fun i hi => cbcBytes_getD_of_ge nr rk _ _ _ _ hi, fun i hi hlen => ?_⟩
    · rw [cbcBytes_length, cbcBytes_length]
    · rw [cbcBytes_length] at hlen
      cases hcs : blocksOf (rest.drop 4) ((rest.length - 4) / 16) with
      | nil => simp [hcs] at hlen
      | cons c cs =>
        rw [cbcBytes_getD_of_lt nr rk _ c cs hi (by omega), cbcBytes_getD_of_lt nr rk _ c cs hi (by omega),
          xor_xor_cancel_left, byteAt_padTo, byteAt_padTo, if_pos hi, if_pos hi]
  case next =>
    rw [cbcBlocks_getElem?_succ, Option.map_eq_some_iff] at hq
    obtain ⟨d, hd, rfl⟩ := hq
    have hset : (cs.set k c')[k + 1]? = some d := by rw [List.getElem?_set_ne (by omega), hd]
    have hnew : (cs.set k c').getD k prev = c' := by simp [List.getD_eq_getElem?_getD, hk]
    refine ⟨xorBlock (decBlock d nr rk) c', cs[k], ?_, List.getElem?_eq_getElem hk, fun i _ => ?_⟩
    · rw [cbcBlocks_getElem?_succ, hset, hnew, Option.map_some]
    · rw [byteAt_xorBlock, byteAt_xorBlock, xor_xor_cancel_left, List.getD_eq_getElem _ _ hk]

/-! ### What each command leaves unchanged -/

/-- The two commands that write `OBUF` write below 1024: a block at index 0, and the blocks of a window. -/
theorem obufByte_of_exec_past {i : Instr} {s t : State} (h : exec i s = .next t) {a : Nat} (ha : Config.obufBytes ≤ a) :
    t.obufByte a = s.obufByte a := by
  rw [Config.obufBytes] at ha
  rcases exec_next_cases i s t h with ⟨-, -, rfl⟩ | ⟨-, rfl⟩ | ⟨-, -, e, rfl, -⟩ | ⟨-, -, r, -, -, rfl⟩
    | ⟨-, -, -, rfl⟩ | ⟨-, -, -, rfl⟩ | ⟨-, x, -, -, rfl⟩ | ⟨-, -, rfl⟩
  · rfl -- ignored in ERROR
  · rfl -- CLR
  · rfl -- an error
  · rfl -- EXTRACT
  · exact obufByte_congr s _ (expansion_obuf s) (expansion_draw s) a
  · exact (obufByte_setBytes_block s 0 (s.decBlock (s.dbufBlock 0)) a).trans (if_neg (by omega))
  · rw [beginStream_eq]
    cases x with
    | false => rfl
    | true => exact obufByte_congr s (expansion s) (expansion_obuf s) (expansion_draw s) a
  · have hw : s.windowBytes ≤ 1024 := Nat.min_le_left _ _
    rw [snextRule_eq]
    exact obufByte_windowBlocks_past s (by omega)

/-- Settles O51: the update of each kind of answer, field by field, and `obufByte_of_exec_past`. -/
theorem commandsChangeOnlyTheirOwnState : Obligations.CommandsChangeOnlyTheirOwnState := by
  intro i s t h
  have hpast (a : Nat) := obufByte_of_exec_past (a := a) h
  rcases exec_next_cases i s t h with ⟨-, -, rfl⟩ | ⟨rfl, rfl⟩ | ⟨-, -, e, rfl, -⟩ | ⟨-, rfl, r, -, -, rfl⟩
    | ⟨-, rfl, -, rfl⟩ | ⟨-, rfl, -, rfl⟩ | ⟨-, x, rfl, -, rfl⟩ | ⟨-, rfl, rfl⟩
  · simp -- ignored in ERROR
  · simpa using hpast -- CLR
  · simpa using hpast -- an error
  · simpa [storeKey] using hpast -- EXTRACT
  · simpa using hpast -- EXPAND
  · simpa using hpast -- DECBLK
  · cases x <;> simpa [beginStream_eq] using hpast -- SBEGIN
  · simpa [snextRule_eq] using hpast -- SNEXT

end Sys2Proof.Machine
end

section
/-! PROOFS. The host sequence of `extract_key` (40_extract.md R143). -/

namespace Sys2Proof.Machine

/-! ### Events and the invariants -/

/-- An event of the host is a step, so it keeps the invariants. -/
theorem State.Inv.present {s : State} (h : s.Inv) (e : Event) : (present s e).Inv := by
  obtain ⟨t, ht⟩ := everyStepYieldsANextState.1 { s with port := e :: s.port }
  have hrun : Machine.present s e = t := present_of_step { s with port := e :: s.port } t e s.port rfl ht
  rw [hrun]
  exact everyStepKeepsTheInvariants _ t (h.with_port_rdata (e :: s.port) s.rdata) ht

theorem State.Inv.play {s : State} (h : s.Inv) (es : List Event) : (play es s).Inv := by
  induction es generalizing s with
  | nil => exact h
  | cons e es ih => exact ih (h.present e)

/-- A command line in the state that accepts the command runs its rule. -/
theorem present_cmdLine_at_home {i : Instr} {s : State} (h : s.mode = homeOf i) :
    present s (cmdLine i) = ruleOf i { s with rdata := none } :=
  present_cmdLine s _ i (decode_encode i) (exec_at_home i _ h)

theorem play_clr (s : State) : play [cmdLine .clr] s = clearCall { s with rdata := none } :=
  present_cmdLine s _ .clr (decode_encode .clr) (exec_clr _)

/-- What the host learns from STATUS. -/
theorem statusState_status_eq_two (s : State) : statusState s.status = 2 ↔ s.mode = .error := by
  rw [statusState_status]
  cases s.mode <;> decide

theorem statusState_status_eq_one (s : State) : statusState s.status = 1 ↔ s.mode = .stream := by
  rw [statusState_status]
  cases s.mode <;> decide

/-! ### The lines of EXTRACT_KEY -/

/-- The state in which EXTRACT runs in the sequence: `DBUF` and `DLEN` describe the carrier, and the key and the schedule are
those of the state in which the host begins. -/
structure AtExtract (c : List Byte) (s u : State) : Prop where
  lines : play (extractLines c) s = extractRule u
  carrier : u.carrier = c
  dlen : u.dlen.toNat ≤ Config.dbufBytes
  mode : u.mode = .idle
  key : u.key = s.key
  klen : u.klen = s.klen
  schedule : SameSchedule s u

theorem exists_atExtract {s : State} {c : List Byte} (hm : s.mode = .idle) (hc : c.length ≤ Config.dbufBytes) :
    ∃ u, AtExtract c s u := by
  have hle := dbufBytes_le
  obtain ⟨m, r, hload, hbytes⟩ := play_load c s hc
  have hlen : (BitVec.ofNat 32 c.length).toNat = c.length := by
    rw [BitVec.toNat_ofNat]
    omega
  refine ⟨{ s with dbuf := m, dlen := BitVec.ofNat 32 c.length, rdata := none },
    { lines := ?_, carrier := ?_, dlen := hlen.trans_le hc, mode := hm, key := rfl, klen := rfl, schedule := .refl s }⟩
  · rw [extractLines, play_append, hload, play_cons, present_wr_dlen, play_cons, present_cmdLine_at_home hm, play_nil, ruleOf]
  · apply List.ext_getElem
    · rw [carrier_length, hlen]
    · intro i _ hi
      rw [← List.getD_eq_getElem _ 0, ← List.getD_eq_getElem _ 0, carrier_getD _ (by rw [hlen]; exact hi)]
      exact hbytes i hi

@[simp] theorem storeKey_klen (r : Block) (s : State) : (storeKey r s).klen = 16 := rfl

theorem storeKey_rawKey (r : Block) (s : State) : (storeKey r s).rawKey = r.toList := by
  rw [toList_eq_map_byteAt]
  refine List.map_congr_left fun i hi => ?_
  have hi : i < 16 := List.mem_range.1 hi
  rw [byteAt_storeKey_key r s (by omega), if_pos hi]

/-- Settles O48: the sequence leaves the core with EXTRACT's rule run on the carrier, and STATUS tells the host which of its two
ends it was. -/
theorem hostExtractKeyComputesTheFunction : Obligations.HostExtractKeyComputesTheFunction := by
  intro s c _ hm hc
  obtain ⟨u, hu⟩ := exists_atExtract hm hc
  obtain ⟨hrks, hnr, hsv⟩ := hu.schedule
  refine ⟨fun r hr => ?key, fun e he => ?failure⟩
  case key =>
    have hplay : play (extractLines c) s = storeKey r u :=
      hu.lines.trans (extractRule_of_ok hu.dlen (hu.carrier.symm ▸ hr))
    have hidle : (storeKey r u).mode = .idle := by rw [storeKey_mode, hu.mode]
    have hstatus : statusState (storeKey r u).status ≠ 2 := by
      rw [ne_eq, statusState_status_eq_two, hidle]
      decide
    obtain ⟨d, hread⟩ := readKey_eq { storeKey r u with rdata := some (storeKey r u).status } (by simp)
    have hkey : State.rawKey { storeKey r u with rdata := some (storeKey r u).status } = r.toList := storeKey_rawKey r u
    rw [hkey] at hread
    refine ⟨{ storeKey r u with rdata := d }, ?_, hidle, rfl, hsv, hnr, hrks⟩
    simp only [hostExtractKey, hplay, ask_status, hread, if_neg hstatus]
  case failure =>
    have hplay : play (extractLines c) s = raise e u :=
      hu.lines.trans (extractRule_of_error hu.dlen (hu.carrier.symm ▸ he))
    have hstatus : statusState (raise e u).status = 2 := (statusState_status_eq_two _).2 rfl
    have hcode : statusErrcode (raise e u).status = e.code := statusErrcode_status _
    obtain ⟨d, l, hread⟩ := readKey_state { raise e u with rdata := some (raise e u).status }
    refine ⟨by rw [hplay, raise_mode], by rw [hplay, raise_errcode],
      clearCall { raise e u with rdata := none }, ?_, rfl, rfl, hu.key, hu.klen, hsv, hnr, hrks⟩
    simp only [hostExtractKey, hplay, ask_status, hread, if_pos hstatus, hcode, play_clr]

end Sys2Proof.Machine
end

section
/-! PROOFS. The host sequence of `decrypt_stream`: its windows against the source's function (43_stream.md R185, R193, R203). -/

namespace Sys2Proof.Machine

/-! ### Blocks of a sequence and of `DBUF` -/

theorem blocksOf_getD (s : List Byte) (d : Block) {n j : Nat} (hj : j < n) : (blocksOf s n).getD j d = blockAt s (16 * j) := by
  simp [blocksOf, List.getD_eq_getElem?_getD, hj]

theorem blocksOf_succ (s : List Byte) (n : Nat) : blocksOf s (n + 1) = blocksOf s n ++ [blockAt s (16 * n)] := by
  rw [blocksOf, List.range_succ, List.map_append, List.map_singleton, blocksOf]

/-- A block of `DBUF` that holds a part of a sequence. -/
theorem dbufBlock_eq_blockAt {s : State} {l : List Byte} (h : ∀ i < l.length, s.dbufByte i = l.getD i 0) {j : Nat}
    (hj : 16 * j + 16 ≤ l.length) : s.dbufBlock j = blockAt l (16 * j) := by
  apply bytes_ext
  intro i hi
  rw [byteAt_dbufBlock, byteAt_blockAt, if_pos hi, if_pos hi, h _ (by omega)]

/-! ### The plaintext in two parts -/

/-- Byte `i` of the plaintext: the decrypted byte XORed with the chain value's (R185, R192). -/
theorem cbcBytes_getD (nr : Nat) (rk : List Byte) (prev d : Block) (cs : List Block) {n i : Nat} (hn : i < n)
    (hi : i < 16 * cs.length) :
    (cbcBytes nr rk prev cs n).getD i 0
      = byteAt (decBlock (cs.getD (i / 16) d) nr rk) (i % 16)
        ^^^ byteAt (if i / 16 = 0 then prev else cs.getD (i / 16 - 1) prev) (i % 16) := by
  have hj : i / 16 < cs.length := by omega
  have hblock : (cbcBlocks nr rk prev cs).getD (i / 16) (Vector.replicate 16 0)
      = xorBlock (decBlock (cs.getD (i / 16) d) nr rk) (if i / 16 = 0 then prev else cs.getD (i / 16 - 1) prev) := by
    rw [List.getD_eq_getElem?_getD, cbcBlocks_getElem?, List.getElem?_eq_getElem hj, Option.map_some, Option.getD_some,
      List.getD_eq_getElem _ d hj]
  rw [cbcBytes, getD_take, if_pos hn, flatMap_toList_getD _ _ (by rw [cbcBlocks_length]; exact hi), hblock,
    byteAt_xorBlock]

/-- The plaintext of two runs of blocks is that of the first and, with its last block as the chain value, that of the second
(R194). -/
theorem cbcBytes_append (nr : Nat) (rk : List Byte) (prev : Block) (cs ds : List Block) (n : Nat) :
    cbcBytes nr rk prev (cs ++ ds) n
      = cbcBytes nr rk prev cs (min n (16 * cs.length))
        ++ cbcBytes nr rk (cs.getLastD prev) ds (n - min n (16 * cs.length)) := by
  have hlen : ((cbcBlocks nr rk prev cs).flatMap fun p => p.toList).length = 16 * cs.length := by
    rw [flatMap_toList_length, cbcBlocks_length]
  have hrest : n - 16 * cs.length = n - min n (16 * cs.length) := by omega
  rw [cbcBytes, cbcBlocks_append, List.flatMap_append, List.take_append, List.take_eq_take_min, hlen, hrest]
  rfl

/-! ### One window -/

theorem SameSchedule.schedule_eq {s t : State} (h : SameSchedule s t) : t.schedule = s.schedule := by
  obtain ⟨hrks, hnr, -⟩ := h
  rw [State.schedule, State.schedule, hrks, hnr]

/-- After SNEXT on a window whose ciphertext is `l`, the first `n` bytes of `OBUF` are the plaintext of `l`. -/
theorem obufBytes_snextRule {u : State} {l : List Byte} {n : Nat} (hl : l.length = u.windowBytes)
    (hmod : u.windowBytes % 16 = 0) (hdbuf : ∀ i < l.length, u.dbufByte i = l.getD i 0) (hn : n ≤ u.windowBytes) :
    (snextRule u).obufBytes n
      = cbcBytes u.nr.toNat u.schedule u.chain (blocksOf l (u.windowBytes / 16)) n := by
  have hwhole : 16 * (u.windowBytes / 16) = u.windowBytes := by omega
  apply List.ext_getElem
  · rw [cbcBytes_length, blocksOf_length, hwhole, Nat.min_eq_left hn]
    simp [State.obufBytes]
  · intro i hi hi'
    have hin : i < n := by simpa [State.obufBytes] using hi
    have hj : i / 16 < u.windowBytes / 16 := by omega
    have hsplit : 16 * (i / 16) + i % 16 = i := Nat.div_add_mod i 16
    have hbyte := obufByte_windowBlocks_block u hj (Nat.mod_lt i (by decide))
    have hprev : u.prevRaw (i / 16)
        = if i / 16 = 0 then u.chain else (blocksOf l (u.windowBytes / 16)).getD (i / 16 - 1) u.chain := by
      rw [State.prevRaw]
      split
      · rfl
      · rw [blocksOf_getD l _ (by omega), dbufBlock_eq_blockAt hdbuf (by omega)]
    rw [hsplit, dbufBlock_eq_blockAt hdbuf (by omega), hprev] at hbyte
    rw [← List.getD_eq_getElem _ 0 hi', cbcBytes_getD _ _ _ u.chain _ hin (by rw [blocksOf_length]; omega),
      blocksOf_getD l _ hj]
    have hget : ((snextRule u).obufBytes n)[i] = (snextRule u).obufByte i := by simp [State.obufBytes]
    rw [hget, snextRule_eq]
    exact hbyte

/-- The state of the core in the window loop: `rest` is the ciphertext that the host has still to load. -/
structure InStream (nr : Nat) (rk rest : List Byte) (v : State) : Prop where
  inv : v.Inv
  mode : v.mode = if rest = [] then .idle else .stream
  last : v.last = decide (rest = [])
  remct : v.remct.toNat = rest.length
  nr : v.nr.toNat = nr
  schedule : v.schedule = rk

/-- The plaintext that is still to come. -/
def State.plaintextOf (v : State) (rest : List Byte) : List Byte :=
  cbcBytes v.nr.toNat v.schedule v.chain (blocksOf rest (rest.length / 16)) v.rempt.toNat

theorem InStream.with_rdata {nr : Nat} {rk rest : List Byte} {v : State} (h : InStream nr rk rest v) (r : Option Word) :
    InStream nr rk rest { v with rdata := r } :=
  { h with inv := h.inv.with_port_rdata v.port r }

/-- What SNEXT leaves of a stream in progress. -/
theorem InStream.snextRule {nr : Nat} {rk rest : List Byte} {u : State} (h : InStream nr rk rest u) (hne : rest ≠ []) :
    InStream nr rk (rest.drop u.windowBytes) (snextRule u) := by
  have hmode : u.mode = .stream := by rw [h.mode, if_neg hne]
  obtain ⟨-, hpos⟩ := windowBytes_whole_blocks h.inv hmode
  obtain ⟨-, hnr, -⟩ := sameSchedule_snextRule u
  have hremct := h.remct
  have hlt := u.remct.isLt
  have hw : u.windowBytes ≤ u.remct.toNat := Nat.min_le_right _ _
  have hempty : rest.drop u.windowBytes = [] ↔ u.remct.toNat = u.windowBytes := by
    rw [List.drop_eq_nil_iff]
    omega
  have hword : (BitVec.ofNat 32 (u.remct.toNat - u.windowBytes)).toNat = u.remct.toNat - u.windowBytes := by
    rw [BitVec.toNat_ofNat]
    omega
  refine
    { inv := h.inv.snextRule hmode
      mode := ?_
      last := ?_
      remct := ?_
      nr := by rw [hnr, h.nr]
      schedule := by rw [(sameSchedule_snextRule u).schedule_eq, h.schedule] }
  · simp only [snextRule_of_block hpos, hempty]
  · simp only [snextRule_of_block hpos, hempty]
  · rw [snextRule_of_block hpos, List.length_drop, ← hremct]
    exact hword

/-- SNEXT puts the next part of the plaintext into `OBUF`. -/
theorem plaintextOf_eq_append {nr : Nat} {rk rest : List Byte} {u : State} (h : InStream nr rk rest u) (hne : rest ≠ [])
    (hdbuf : ∀ i < (rest.take u.windowBytes).length, u.dbufByte i = (rest.take u.windowBytes).getD i 0) :
    u.plaintextOf rest
      = (snextRule u).obufBytes (snextRule u).olen.toNat
        ++ (snextRule u).plaintextOf (rest.drop u.windowBytes) := by
  have hmode : u.mode = .stream := by rw [h.mode, if_neg hne]
  obtain ⟨-, -, hmod16, -⟩ := h.inv.in_stream hmode
  obtain ⟨hmod, hpos⟩ := windowBytes_whole_blocks h.inv hmode
  obtain ⟨-, hnr, -⟩ := sameSchedule_snextRule u
  have hremct := h.remct
  have hw : u.windowBytes ≤ u.remct.toNat := Nat.min_le_right _ _
  have hw1024 : u.windowBytes ≤ 1024 := Nat.min_le_left _ _
  have hrempt := u.rempt.isLt
  have hwhole : 16 * (u.windowBytes / 16) = u.windowBytes := by omega
  have htake : (rest.take u.windowBytes).length = u.windowBytes := by
    rw [List.length_take]
    omega
  have hblocks : blocksOf rest (rest.length / 16)
      = blocksOf (rest.take u.windowBytes) (u.windowBytes / 16)
        ++ blocksOf (rest.drop u.windowBytes) ((rest.drop u.windowBytes).length / 16) := by
    have hcount : rest.length / 16 = u.windowBytes / 16 + (rest.drop u.windowBytes).length / 16 := by
      rw [List.length_drop]
      omega
    rw [hcount, blocksOf_add, hwhole]
  have holen : (snextRule u).olen.toNat = min u.rempt.toNat u.windowBytes := by
    rw [snextRule_of_block hpos, BitVec.toNat_ofNat]
    omega
  have hleft : (snextRule u).rempt.toNat = u.rempt.toNat - min u.rempt.toNat u.windowBytes := by
    rw [snextRule_of_block hpos, BitVec.toNat_ofNat]
    omega
  have hchain : (snextRule u).chain
      = (blocksOf (rest.take u.windowBytes) (u.windowBytes / 16)).getLastD u.chain := by
    have hlast : u.windowBytes / 16 = u.windowBytes / 16 - 1 + 1 := by omega
    rw [snextRule_of_block hpos, hlast, blocksOf_succ, List.getLastD_concat, Nat.add_sub_cancel]
    exact dbufBlock_eq_blockAt hdbuf (by omega)
  rw [State.plaintextOf, hblocks, cbcBytes_append, blocksOf_length, hwhole, holen,
    obufBytes_snextRule htake hmod hdbuf (Nat.min_le_right _ _), State.plaintextOf, hnr,
    (sameSchedule_snextRule u).schedule_eq, hchain, hleft]

/-- The state in which SNEXT runs: the next window of `rest` stands in `DBUF`. -/
theorem exists_at_snext {nr : Nat} {rk rest : List Byte} {v : State} (h : InStream nr rk rest v) (hne : rest ≠ []) :
    ∃ u, play (load (rest.take v.windowBytes) ++ [cmdLine .snext]) v = snextRule u
      ∧ InStream nr rk rest u ∧ u.windowBytes = v.windowBytes ∧ u.plaintextOf rest = v.plaintextOf rest
      ∧ ∀ i < (rest.take v.windowBytes).length, u.dbufByte i = (rest.take v.windowBytes).getD i 0 := by
  have hge := dbufBytes_ge
  have hmode : v.mode = .stream := by rw [h.mode, if_neg hne]
  have hw : v.windowBytes ≤ 1024 := Nat.min_le_left _ _
  obtain ⟨m, r, hload, hbytes⟩ := play_load (rest.take v.windowBytes) v (by rw [List.length_take]; omega)
  have hinv := h.inv.play (load (rest.take v.windowBytes))
  rw [hload] at hinv
  refine ⟨{ v with dbuf := m, rdata := none }, ?_, { h with inv := hinv.with_port_rdata v.port none }, rfl, rfl, hbytes⟩
  rw [play_append, hload, play_cons, play_nil, present_cmdLine_at_home hmode, ruleOf]

/-- One window: the host has the next part of the plaintext, and the stream goes on with the rest. -/
theorem exists_window {nr : Nat} {rk rest : List Byte} {v : State} (h : InStream nr rk rest v) (hne : rest ≠ []) :
    ∃ v' out, readOut (play (load (rest.take v.windowBytes) ++ [cmdLine .snext]) v) = (v', out)
      ∧ InStream nr rk (rest.drop v.windowBytes) v'
      ∧ v.plaintextOf rest = out ++ v'.plaintextOf (rest.drop v.windowBytes) := by
  obtain ⟨u, hplay, hu, hw, hplain, hdbuf⟩ := exists_at_snext h hne
  rw [← hw] at hdbuf
  obtain ⟨r, hread⟩ := readOut_eq (snextRule u) (hu.snextRule hne).inv.olen_le
  refine ⟨{ snextRule u with rdata := r }, (snextRule u).obufBytes (snextRule u).olen.toNat,
    by rw [hplay, hread], ?_, ?_⟩
  · rw [← hw]
    exact (hu.snextRule hne).with_rdata r
  · rw [← hplain, ← hw]
    exact plaintextOf_eq_append hu hne hdbuf

/-! ### The window loop -/

theorem ask_remct (s : State) : ask 0x01c s = ({ s with rdata := some s.remct }, s.remct) := ask_eq 0x01c s

theorem plaintextOf_nil (v : State) : v.plaintextOf [] = [] := by
  simp [State.plaintextOf, cbcBytes, blocksOf, cbcBlocks]

/-- At the end of the stream the loop ends with what the host has. -/
theorem hostWindows_of_end {nr : Nat} {rk : List Byte} (n : Nat) (out : List Byte) {v : State} (h : InStream nr rk [] v) :
    hostWindows n [] out (ask 0x004 v) = ({ v with rdata := some v.status }, out) := by
  cases n with
  | zero => rfl
  | succ n =>
    have hstate : statusState v.status ≠ 1 := by
      rw [ne_eq, statusState_status_eq_one, h.mode]
      decide
    simp only [hostWindows, ask_status, if_neg hstate]

/-- The window loop reads out the plaintext and ends idle with `LAST`; each window takes at least one byte of `rest`, so `n`
windows are enough. -/
theorem exists_hostWindows {nr : Nat} {rk : List Byte} (n : Nat) {rest : List Byte} (out : List Byte) {v : State}
    (h : InStream nr rk rest v) (hn : rest.length ≤ n) :
    ∃ t, hostWindows n rest out (ask 0x004 v) = (t, out ++ v.plaintextOf rest) ∧ t.mode = .idle ∧ t.last = true := by
  induction n generalizing rest out v with
  | zero =>
    obtain rfl : rest = [] := List.length_eq_zero_iff.1 (by omega)
    exact ⟨{ v with rdata := some v.status }, by rw [hostWindows_of_end 0 out h, plaintextOf_nil, List.append_nil], h.mode, h.last⟩
  | succ n ih =>
    by_cases hne : rest = []
    · subst hne
      exact ⟨{ v with rdata := some v.status }, by rw [hostWindows_of_end _ out h, plaintextOf_nil, List.append_nil],
        h.mode, h.last⟩
    · have hmode : v.mode = .stream := by rw [h.mode, if_neg hne]
      have hstate : statusState v.status = 1 := (statusState_status_eq_one v).2 hmode
      obtain ⟨-, hpos⟩ := windowBytes_whole_blocks h.inv hmode
      obtain ⟨v', o, hread, hv', hplain⟩ := exists_window (h.with_rdata (some v.remct)) hne
      have hread' : readOut (play (load (rest.take (min Config.window v.remct.toNat)) ++ [cmdLine .snext])
          { v with rdata := some v.remct }) = (v', o) := hread
      have hplain' : v.plaintextOf rest = o ++ v'.plaintextOf (rest.drop v.windowBytes) := hplain
      have hloop : hostWindows (n + 1) rest out (ask 0x004 v)
          = hostWindows n (rest.drop v.windowBytes) (out ++ o) (ask 0x004 v') := by
        simp only [hostWindows, ask_status, ask_remct, if_pos hstate, hread']
        rfl
      have hfuel : (rest.drop v.windowBytes).length ≤ n := by
        rw [List.length_drop]
        omega
      rw [hloop, hplain', ← List.append_assoc]
      exact ih (out ++ o) hv' hfuel

/-! ### The lines up to SBEGIN -/

/-- The state in which the host's SBEGIN runs: the header stands in `DBUF` and the length in `SLEN`, and the rest is that of the
state in which the host begins, with the key that the form has set. -/
structure AtSbegin (form : KeyForm) (st : List Byte) (s u : State) : Prop where
  lines : play (beginLines form st) s = sbeginRule form.flag u
  inv : u.Inv
  mode : u.mode = .idle
  slen : u.slen.toNat = st.length
  header : ∀ i < 20, i < st.length → u.dbufByte i = st.getD i 0
  schedule : SameSchedule s u
  obuf : ∀ i, u.obufByte i = s.obufByte i
  klen : u.klen = (play form.lines s).klen
  rawKey : u.rawKey = (play form.lines s).rawKey

/-- The lines that set the key change the key, its length and the read data. -/
theorem play_keyLines (form : KeyForm) (s : State) :
    ∃ key klen r, play form.lines s = { s with key := key, klen := klen, rdata := r } := by
  cases form with
  | schedule => exact ⟨s.key, s.klen, s.rdata, rfl⟩
  | rawKey l =>
    obtain ⟨key, h, -⟩ := play_setKey l s
    exact ⟨key, _, _, h⟩
  | keyInPlace => exact ⟨s.key, s.klen, s.rdata, rfl⟩

theorem exists_atSbegin (form : KeyForm) {st : List Byte} {s : State} (hinv : s.Inv) (hm : s.mode = .idle)
    (hst : st.length < 2 ^ 32) : ∃ u, AtSbegin form st s u := by
  have hge := dbufBytes_ge
  have htake : (st.take Config.headerBytes).length ≤ 20 := List.length_take_le _ _
  obtain ⟨key, klen, r, hkey⟩ := play_keyLines form s
  obtain ⟨m, r', hload, hbytes⟩ := play_load (st.take Config.headerBytes) { s with key := key, klen := klen, rdata := r }
    (by omega)
  have hlines : play (beginLines form st) s
      = sbeginRule form.flag { s with
          key := key, klen := klen, dbuf := m, slen := BitVec.ofNat 32 st.length, rdata := none } := by
    rw [beginLines, play_append, play_append, hkey, hload, play_cons, present_wr_slen, play_cons,
      present_cmdLine_at_home hm, play_nil, ruleOf]
  have hbegin := ((hinv.play form.lines).play (load (st.take Config.headerBytes))).play [wr 0x00c (BitVec.ofNat 32 st.length)]
  rw [hkey, hload, play_cons, present_wr_slen, play_nil] at hbegin
  exact ⟨_,
    { lines := hlines
      inv := hbegin
      mode := hm
      slen := by rw [BitVec.toNat_ofNat]; omega
      header := fun i hi hlen => by
        have hbyte := hbytes i (by rw [List.length_take, Config.headerBytes]; omega)
        rw [getD_take, Config.headerBytes, if_pos hi] at hbyte
        exact hbyte
      schedule := .refl s
      obuf := fun _ => rfl
      klen := by rw [hkey]
      rawKey := by rw [hkey]; rfl }⟩

section Begun

variable {form : KeyForm} {st : List Byte} {s u : State} (h : AtSbegin form st s u)

include h

/-- Where a check of SBEGIN fails, the host reports its code and its CLR leaves the core idle. -/
theorem AtSbegin.hostFails {e : ErrCode} (hcheck : sbeginCheck form.flag u = some e) : HostFails form st s e := by
  have hplay : play (beginLines form st) s = raise e u := h.lines.trans (sbeginRule_of_fail hcheck)
  have hstatus : statusState (raise e u).status = 2 := (statusState_status_eq_two _).2 rfl
  have hcode : statusErrcode (raise e u).status = e.code := statusErrcode_status _
  refine ⟨by rw [hplay, raise_mode], by rw [hplay, raise_errcode], fun i => by rw [hplay]; exact h.obuf i,
    clearCall { raise e u with rdata := none }, ?_, rfl, rfl, h.obuf⟩
  simp only [hostDecryptStream, hplay, ask_status, if_pos hstatus, hcode, play_clr]

/-- The declared length that SBEGIN reads is the stream's (R188). -/
theorem AtSbegin.declaredLength_eq (hlen : 20 ≤ st.length) :
    u.declaredLength = le32 (st.getD 16 0) (st.getD 17 0) (st.getD 18 0) (st.getD 19 0) := by
  have hbyte (i : Nat) (hi : i < 20) := h.header i hi (by omega)
  rw [State.declaredLength, hbyte 16 (by decide), hbyte 17 (by decide), hbyte 18 (by decide), hbyte 19 (by decide)]

/-- The IV that SBEGIN reads is the stream's (R185). -/
theorem AtSbegin.dbufBlock_zero (hlen : 20 ≤ st.length) : u.dbufBlock 0 = blockAt st 0 := by
  apply bytes_ext
  intro i hi
  rw [byteAt_dbufBlock, byteAt_blockAt, if_pos hi, if_pos hi, Nat.mul_zero, h.header _ (by omega) (by omega)]

/-- With a key or a schedule in order, SBEGIN's checks are those of the stream. -/
theorem AtSbegin.check_eq (hkey : form.flag = true → keyLengthOk u.klen.toNat = true)
    (hsv : form.flag = false → u.sv = true) :
    sbeginCheck form.flag u =
      if st.length < 20 then some .streamTooShort
      else if (st.length - 20) % 16 ≠ 0 then some .invalidStreamLength
      else if st.length - 20 < u.declaredLength.toNat then some .declaredLengthExceedsCiphertext
      else none := by
  have h1 : ¬ (form.flag = true ∧ ¬ (u.klen.toNat = 16 ∨ u.klen.toNat = 24 ∨ u.klen.toNat = 32)) := by
    rintro ⟨hx, hbad⟩
    exact hbad ((keyLengthOk_iff _).1 (hkey hx))
  have h2 : ¬ (form.flag = false ∧ u.sv = false) := by
    rintro ⟨hx, hno⟩
    simp [hsv hx] at hno
  rw [sbeginCheck_eq, if_neg h1, if_neg h2, h.slen]

/-- When SBEGIN's checks pass the stream is in progress, all of its ciphertext being still to come. -/
theorem AtSbegin.inStream {w : State} {nr : Nat} {rk : List Byte} (hinv : (beginStream (u.slen - 20) w).Inv)
    (hlen : 20 ≤ st.length) (hblock : w.dbufBlock 0 = u.dbufBlock 0) (hdecl : w.declaredLength = u.declaredLength)
    (hnr : w.nr.toNat = nr) (hrk : w.schedule = rk) :
    InStream nr rk (st.drop 20) (beginStream (u.slen - 20) w) := by
  have hslen : 20 ≤ u.slen.toNat := h.slen ▸ hlen
  have hlt := u.slen.isLt
  have hempty : st.drop 20 = [] ↔ u.slen.toNat = 20 := by
    rw [List.drop_eq_nil_iff, h.slen]
    omega
  obtain ⟨-, hnr', -⟩ := sameSchedule_beginStream (u.slen - 20) w
  refine { inv := hinv, mode := ?_, last := ?_, remct := ?_, nr := by rw [hnr', hnr], schedule := ?_ }
  · simp only [beginStream_of_header hslen hblock hdecl, hempty]
  · simp only [beginStream_of_header hslen hblock hdecl, hempty]
  · rw [beginStream_remct, List.length_drop, ← h.slen]
    exact sub_ofNat_toNat u.slen 20 hslen
  · rw [(sameSchedule_beginStream (u.slen - 20) w).schedule_eq, hrk]

/-- The plaintext to come is what `DecryptStream` gives (R185). -/
theorem AtSbegin.plaintextOf_eq {w : State} {nr : Nat} {rk p : List Byte} (hlen : 20 ≤ st.length)
    (hblock : w.dbufBlock 0 = u.dbufBlock 0) (hdecl : w.declaredLength = u.declaredLength) (hnr : w.nr.toNat = nr)
    (hrk : w.schedule = rk) (hp : decryptStream st nr rk = .ok p) :
    (beginStream (u.slen - 20) w).plaintextOf (st.drop 20) = p := by
  obtain ⟨-, -, hbytes⟩ := (decryptStream_eq_ok st nr rk p).1 hp
  obtain ⟨-, hnr', -⟩ := sameSchedule_beginStream (u.slen - 20) w
  have hchain : (beginStream (u.slen - 20) w).chain = blockAt st 0 := by
    rw [beginStream_eq, hblock, h.dbufBlock_zero hlen]
  have hrempt : (beginStream (u.slen - 20) w).rempt
      = le32 (st.getD 16 0) (st.getD 17 0) (st.getD 18 0) (st.getD 19 0) := by
    rw [beginStream_eq, hdecl, h.declaredLength_eq hlen]
  rw [State.plaintextOf, hnr', hnr, (sameSchedule_beginStream (u.slen - 20) w).schedule_eq, hrk, hchain, hrempt,
    List.length_drop]
  exact hbytes

/-- Where SBEGIN's checks pass, the host reads out the stream's plaintext. -/
theorem AtSbegin.hostDelivers {nr : Nat} {rk p : List Byte} (hcheck : sbeginCheck form.flag u = none)
    (hlen : 20 ≤ st.length) (hnr : (if form.flag then expansion u else u).nr.toNat = nr)
    (hrk : (if form.flag then expansion u else u).schedule = rk) (hp : decryptStream st nr rk = .ok p) :
    HostDelivers form st s p := by
  have hrule := sbeginRule_of_pass hcheck
  have hplay := h.lines.trans hrule
  have hinv : (sbeginRule form.flag u).Inv := h.inv.exec (exec_at_home (.sbegin form.flag) u h.mode)
  rw [hrule] at hinv
  generalize hw : (if form.flag then expansion u else u) = w at *
  have hblock : w.dbufBlock 0 = u.dbufBlock 0 := by
    rw [← hw]
    split
    · exact expansion_dbufBlock u 0
    · rfl
  have hdecl : w.declaredLength = u.declaredLength := by
    rw [← hw]
    split
    · exact expansion_declaredLength u
    · rfl
  have hin := h.inStream hinv hlen hblock hdecl hnr hrk
  have hstatus : statusState (beginStream (u.slen - 20) w).status ≠ 2 := by
    rw [ne_eq, statusState_status_eq_two]
    exact beginStream_mode_ne_error _ _
  obtain ⟨t, hloop, hmode, hlast⟩ := exists_hostWindows st.length [] hin (by rw [List.length_drop]; omega)
  rw [List.nil_append, h.plaintextOf_eq hlen hblock hdecl hnr hrk hp, ask_status] at hloop
  refine ⟨t, ?_, hmode, hlast⟩
  simp only [hostDecryptStream, hplay, ask_status, if_neg hstatus, Config.headerBytes, hloop]

/-- With a key or a schedule in order, the sequence computes `DecryptStream`. -/
theorem AtSbegin.hostComputes {nr : Nat} {rk : List Byte} (hkey : form.flag = true → keyLengthOk u.klen.toNat = true)
    (hsv : form.flag = false → u.sv = true) (hnr : (if form.flag then expansion u else u).nr.toNat = nr)
    (hrk : (if form.flag then expansion u else u).schedule = rk) : HostComputes form st s nr rk := by
  have hcheck := h.check_eq hkey hsv
  refine ⟨fun hshort => ?short, fun hlen => ?stream⟩
  case short =>
    rw [Config.headerBytes] at hshort
    exact h.hostFails (hcheck.trans (if_pos hshort))
  case stream =>
    rw [Config.headerBytes] at hlen
    rw [if_neg (Nat.not_lt.2 hlen), h.declaredLength_eq hlen] at hcheck
    by_cases hmod : (st.length - 20) % 16 = 0
    · rw [if_neg (not_not.2 hmod)] at hcheck
      by_cases hdecl : (le32 (st.getD 16 0) (st.getD 17 0) (st.getD 18 0) (st.getD 19 0)).toNat ≤ st.length - 20
      · rw [if_neg (Nat.not_lt.2 hdecl)] at hcheck
        refine ⟨fun p hp => h.hostDelivers hcheck hlen hnr hrk hp, fun e he => ?_⟩
        rw [decryptStream_ok st nr rk hmod hdecl] at he
        cases he
      · rw [if_pos (Nat.not_le.1 hdecl)] at hcheck
        rw [decryptStream_short st nr rk hmod (Nat.not_le.1 hdecl)]
        exact ⟨nofun, fun e he => h.hostFails (hcheck.trans (congrArg some (Except.error.inj he)))⟩
    · rw [if_pos hmod] at hcheck
      rw [decryptStream_ragged st nr rk hmod]
      exact ⟨nofun, fun e he => h.hostFails (hcheck.trans (congrArg some (Except.error.inj he)))⟩

end Begun

/-! ### The three forms of the key -/

/-- What an expansion leaves is the schedule of the RawKey (R155). -/
theorem expansion_schedule {s : State} {nr : Nat} {rk : List Byte} (h : expandKey s.rawKey = some (nr, rk)) :
    (expansion s).nr.toNat = nr ∧ (expansion s).schedule = rk := by
  have hlen := schedule_length_of_expandKey h
  obtain ⟨-, hrounds⟩ := length_of_expandKey h
  have hnr : (expansion s).nr.toNat = nr := by
    rw [expansion_eq s nr rk h, BitVec.toNat_ofNat]
    omega
  refine ⟨hnr, schedule_of_padTo _ nr rk hnr ?_ (by omega) (by omega)⟩
  rw [expansion_eq s nr rk h]

/-- A form that expands a key computes `DecryptStream` for that key's schedule. -/
theorem AtSbegin.hostComputes_of_expandKey {form : KeyForm} {st : List Byte} {s u : State} (h : AtSbegin form st s u)
    (hflag : form.flag = true) {nr : Nat} {rk : List Byte} (hkey : expandKey u.rawKey = some (nr, rk)) :
    HostComputes form st s nr rk := by
  obtain ⟨hok, -, -⟩ := (expandKey_eq_some _ nr rk).1 hkey
  obtain ⟨hnr, hrk⟩ := expansion_schedule hkey
  rw [rawKey_length] at hok
  refine h.hostComputes (fun _ => hok) (fun hno => ?_) ?_ ?_
  · rw [hflag] at hno
    cases hno
  · rw [hflag, if_pos rfl, hnr]
  · rw [hflag, if_pos rfl, hrk]

/-- A form that expands a key fails where its length is no key's. -/
theorem AtSbegin.hostFails_of_bad_length {form : KeyForm} {st : List Byte} {s u : State} (h : AtSbegin form st s u)
    (hflag : form.flag = true) (hbad : keyLengthOk u.klen.toNat = false) : HostFails form st s .invalidKeyLength := by
  refine h.hostFails ?_
  rw [hflag, sbeginCheck_eq, if_pos]
  rw [← keyLengthOk_iff, hbad]
  exact ⟨rfl, Bool.false_ne_true⟩

/-- SETKEY leaves the key as the RawKey. -/
theorem rawKey_play_setKey {key : List Byte} {s : State} (hlen : key.length ≤ 32) : (play (setKey key) s).rawKey = key := by
  obtain ⟨k, hplay, hbytes⟩ := play_setKey key s
  have hklen : (BitVec.ofNat 32 key.length).toNat = key.length := by
    rw [BitVec.toNat_ofNat]
    omega
  rw [hplay]
  apply List.ext_getElem
  · rw [rawKey_length, hklen]
  · intro i hi hi'
    simp only [State.rawKey, List.getElem_map, List.getElem_range]
    rw [hbytes hlen i hi', List.getD_eq_getElem _ 0 hi']

theorem klen_play_setKey {key : List Byte} (s : State) (hlen : key.length < 2 ^ 32) :
    (play (setKey key) s).klen.toNat = key.length := by
  obtain ⟨k, hplay, -⟩ := play_setKey key s
  rw [hplay]
  exact Nat.mod_eq_of_lt hlen

/-- Settles O47: the lines bring the core to SBEGIN, whose checks are those of the function; where they pass the window loop reads
out the plaintext window by window, by induction on the windows. -/
theorem hostDecryptStreamComputesTheFunction : Obligations.HostDecryptStreamComputesTheFunction := by
  intro s st hinv hm hst
  have hat (form : KeyForm) := exists_atSbegin form hinv hm hst
  refine ⟨fun hsv => ?schedule, fun hsv => ?noSchedule, fun key hlen => ⟨fun hbad => ?badKey, fun nr rk hkey => ?rawKey⟩,
    fun hbad => ?badKeyInPlace, fun nr rk hkey => ?keyInPlace⟩
  case schedule =>
    obtain ⟨u, hu⟩ := hat .schedule
    obtain ⟨-, hnr, husv⟩ := hu.schedule
    exact hu.hostComputes nofun (fun _ => husv.trans hsv) (congrArg _ hnr) hu.schedule.schedule_eq
  case noSchedule =>
    obtain ⟨u, hu⟩ := hat .schedule
    obtain ⟨-, -, husv⟩ := hu.schedule
    refine hu.hostFails ?_
    rw [KeyForm.flag, sbeginCheck_eq, if_neg (by simp), if_pos ⟨rfl, husv.trans hsv⟩]
  case badKey =>
    obtain ⟨u, hu⟩ := hat (.rawKey key)
    refine hu.hostFails_of_bad_length rfl ?_
    rw [hu.klen, KeyForm.lines, klen_play_setKey s hlen]
    exact (expandKey_eq_none key).1 hbad
  case rawKey =>
    obtain ⟨u, hu⟩ := hat (.rawKey key)
    obtain ⟨hklen, hrounds⟩ := length_of_expandKey hkey
    refine hu.hostComputes_of_expandKey rfl ?_
    rw [hu.rawKey, KeyForm.lines, rawKey_play_setKey (by omega), hkey]
  case badKeyInPlace =>
    obtain ⟨u, hu⟩ := hat .keyInPlace
    refine hu.hostFails_of_bad_length rfl ?_
    rw [hu.klen, ← rawKey_length]
    exact (expandKey_eq_none s.rawKey).1 hbad
  case keyInPlace =>
    obtain ⟨u, hu⟩ := hat .keyInPlace
    refine hu.hostComputes_of_expandKey rfl ?_
    rw [hu.rawKey]
    exact hkey

end Sys2Proof.Machine
end
